-- ==== Sys2Proof/Word.lean ====
section
/-! DEFINITION. The word types of the SCHIP-8 core: what the spec treats as bits (00_scope.md R13). Every value is
unsigned; the core has no signed operation. Addresses formed for a memory access are plain `Nat`, because the
spec never wraps them (20_memory.md R51). -/

namespace Sys2Proof

/-- A u8: one memory cell, one general register, one timer. -/
abbrev Byte := BitVec 8

/-- A u16: PC, I, IR, a return address, an instruction word. -/
abbrev Word := BitVec 16

/-- A four-bit field of an instruction word (30_encoding.md R71). -/
abbrev Nibble := BitVec 4

/-- The 12-bit immediate address `nnn` (30_encoding.md R71). -/
abbrev Addr12 := BitVec 12

/-- A register number 0 to F (10_state.md R20). -/
abbrev RegIdx := Fin 16

/-- A logical key 0 to F (10_state.md R34). -/
abbrev Key := Fin 16

end Sys2Proof
end

