-- ==== Sys2Proof/Syntax.lean ====
section
/-! DEFINITION. The 44 instructions, one constructor for each row of spec/opcode_table.json, in the table's order
(30_encoding.md section 4). Operands are the decoded fields x, y, n, nn, nnn of R71. -/

namespace Sys2Proof

inductive Instr where
  /-- 0-E0 CLS, R193 -/
  | cls
  /-- 0-EE RET, R121 -/
  | ret
  /-- 0-Cn SCD n, R250 -/
  | scd (n : Nibble)
  /-- 0-FB SCR, R251 -/
  | scr
  /-- 0-FC SCL, R252 -/
  | scl
  /-- 0-FD EXIT, R253 -/
  | exit
  /-- 0-FE LOW, R254 -/
  | low
  /-- 0-FF HIGH, R255 -/
  | high
  /-- 1nnn JP nnn, R122 -/
  | jp (nnn : Addr12)
  /-- 2nnn CALL nnn, R123 -/
  | call (nnn : Addr12)
  /-- 3xnn SE Vx, nn, R124 -/
  | seImm (x : RegIdx) (nn : Byte)
  /-- 4xnn SNE Vx, nn, R125 -/
  | sneImm (x : RegIdx) (nn : Byte)
  /-- 5xy- SE Vx, Vy, R126 -/
  | seReg (x y : RegIdx)
  /-- 6xnn LD Vx, nn, R141 -/
  | ldImm (x : RegIdx) (nn : Byte)
  /-- 7xnn ADD Vx, nn, R142 -/
  | addImm (x : RegIdx) (nn : Byte)
  /-- 8xy0 LD Vx, Vy, R143 -/
  | ldReg (x y : RegIdx)
  /-- 8xy1 OR Vx, Vy, R144 -/
  | orReg (x y : RegIdx)
  /-- 8xy2 AND Vx, Vy, R145 -/
  | andReg (x y : RegIdx)
  /-- 8xy3 XOR Vx, Vy, R146 -/
  | xorReg (x y : RegIdx)
  /-- 8xy4 ADD Vx, Vy, R147 -/
  | addReg (x y : RegIdx)
  /-- 8xy5 SUB Vx, Vy, R148 -/
  | subReg (x y : RegIdx)
  /-- 8xy6 SHR Vx, Vy, R149 -/
  | shr (x y : RegIdx)
  /-- 8xy7 SUBN Vx, Vy, R150 -/
  | subn (x y : RegIdx)
  /-- 8xyE SHL Vx, Vy, R151 -/
  | shl (x y : RegIdx)
  /-- 9xy- SNE Vx, Vy, R127 -/
  | sneReg (x y : RegIdx)
  /-- Annn LD I, nnn, R170 -/
  | ldI (nnn : Addr12)
  /-- Bnnn JP V0, nnn, R128 -/
  | jpV0 (nnn : Addr12)
  /-- Cxnn RND Vx, nn, R180 -/
  | rnd (x : RegIdx) (nn : Byte)
  /-- Dxyn DRW Vx, Vy, n with n ≠ 0, R194 -/
  | drw (x y : RegIdx) (n : Nibble)
  /-- Dxy0 DRW Vx, Vy, 0, R195 -/
  | drwLarge (x y : RegIdx)
  /-- Ex9E SKP Vx, R215 -/
  | skp (x : RegIdx)
  /-- ExA1 SKNP Vx, R216 -/
  | sknp (x : RegIdx)
  /-- Fx07 LD Vx, DT, R230 -/
  | ldVxDt (x : RegIdx)
  /-- Fx0A LD Vx, K, R217 -/
  | ldVxK (x : RegIdx)
  /-- Fx15 LD DT, Vx, R231 -/
  | ldDtVx (x : RegIdx)
  /-- Fx18 LD ST, Vx, R232 -/
  | ldStVx (x : RegIdx)
  /-- Fx1E ADD I, Vx, R171 -/
  | addI (x : RegIdx)
  /-- Fx29 LD F, Vx, R172 -/
  | ldF (x : RegIdx)
  /-- Fx30 LD HF, Vx, R173 -/
  | ldHf (x : RegIdx)
  /-- Fx33 LD B, Vx, R242 -/
  | ldB (x : RegIdx)
  /-- Fx55 LD [I], Vx, R240 -/
  | storeRegs (x : RegIdx)
  /-- Fx65 LD Vx, [I], R241 -/
  | loadRegs (x : RegIdx)
  /-- Fx75 LD R, Vx, R256 -/
  | saveFlags (x : RegIdx)
  /-- Fx85 LD Vx, R, R257 -/
  | restoreFlags (x : RegIdx)
  deriving DecidableEq, Repr

end Sys2Proof
end

