-- ==== Sys2Proof/Decode.lean ====
section
/-! DEFINITION. Decoding (30_encoding.md R70 to R76), total on every word and every byte list, and after it the
encoder, written from the opcode map of 30_encoding.md section 4, and the listing of R77. -/

namespace Sys2Proof

/-! ### Fields (R71) -/

/-- c = w[15:12], the opcode class. -/
def fieldC (w : Word) : Nibble := w.extractLsb' 12 4
/-- w[11:8]. -/
def fieldX (w : Word) : Nibble := w.extractLsb' 8 4
/-- w[7:4]. -/
def fieldY (w : Word) : Nibble := w.extractLsb' 4 4
/-- n = w[3:0]. -/
def fieldN (w : Word) : Nibble := w.extractLsb' 0 4
/-- nn = w[7:0]. -/
def fieldNN (w : Word) : Byte := w.extractLsb' 0 8
/-- nnn = w[11:0]. -/
def fieldNNN (w : Word) : Addr12 := w.extractLsb' 0 12

/-- A register operand names V[x] (R72). -/
def regOf (b : Nibble) : RegIdx := b.toFin
/-- The register operands of a word. -/
def regX (w : Word) : RegIdx := regOf (fieldX w)
def regY (w : Word) : RegIdx := regOf (fieldY w)

/-! ### The decoder (R74) -/

/-- Class 0 decodes on nn, and on y for SCD; bits 11:8 take no part (R73). -/
def decode0 (w : Word) : Option Instr :=
  match fieldNN w with
  | 0xE0#8 => some .cls
  | 0xEE#8 => some .ret
  | 0xFB#8 => some .scr
  | 0xFC#8 => some .scl
  | 0xFD#8 => some .exit
  | 0xFE#8 => some .low
  | 0xFF#8 => some .high
  | _ => if fieldY w = 0xC#4 then some (.scd (fieldN w)) else none

/-- Class 8 decodes on n. -/
def decode8 (w : Word) : Option Instr :=
  match fieldN w with
  | 0x0#4 => some (.ldReg (regX w) (regY w))
  | 0x1#4 => some (.orReg (regX w) (regY w))
  | 0x2#4 => some (.andReg (regX w) (regY w))
  | 0x3#4 => some (.xorReg (regX w) (regY w))
  | 0x4#4 => some (.addReg (regX w) (regY w))
  | 0x5#4 => some (.subReg (regX w) (regY w))
  | 0x6#4 => some (.shr (regX w) (regY w))
  | 0x7#4 => some (.subn (regX w) (regY w))
  | 0xE#4 => some (.shl (regX w) (regY w))
  | _ => none

/-- Class E decodes on nn. -/
def decodeE (w : Word) : Option Instr :=
  match fieldNN w with
  | 0x9E#8 => some (.skp (regX w))
  | 0xA1#8 => some (.sknp (regX w))
  | _ => none

/-- Class F decodes on nn. -/
def decodeF (w : Word) : Option Instr :=
  match fieldNN w with
  | 0x07#8 => some (.ldVxDt (regX w))
  | 0x0A#8 => some (.ldVxK (regX w))
  | 0x15#8 => some (.ldDtVx (regX w))
  | 0x18#8 => some (.ldStVx (regX w))
  | 0x1E#8 => some (.addI (regX w))
  | 0x29#8 => some (.ldF (regX w))
  | 0x30#8 => some (.ldHf (regX w))
  | 0x33#8 => some (.ldB (regX w))
  | 0x55#8 => some (.storeRegs (regX w))
  | 0x65#8 => some (.loadRegs (regX w))
  | 0x75#8 => some (.saveFlags (regX w))
  | 0x85#8 => some (.restoreFlags (regX w))
  | _ => none

/-- The decode function of R74; `none` is its UNDEFINED. -/
def decode (w : Word) : Option Instr :=
  match fieldC w with
  | 0x0#4 => decode0 w
  | 0x1#4 => some (.jp (fieldNNN w))
  | 0x2#4 => some (.call (fieldNNN w))
  | 0x3#4 => some (.seImm (regX w) (fieldNN w))
  | 0x4#4 => some (.sneImm (regX w) (fieldNN w))
  | 0x5#4 => some (.seReg (regX w) (regY w))
  | 0x6#4 => some (.ldImm (regX w) (fieldNN w))
  | 0x7#4 => some (.addImm (regX w) (fieldNN w))
  | 0x8#4 => decode8 w
  | 0x9#4 => some (.sneReg (regX w) (regY w))
  | 0xA#4 => some (.ldI (fieldNNN w))
  | 0xB#4 => some (.jpV0 (fieldNNN w))
  | 0xC#4 => some (.rnd (regX w) (fieldNN w))
  | 0xD#4 => if fieldN w = 0x0#4 then some (.drwLarge (regX w) (regY w))
             else some (.drw (regX w) (regY w) (fieldN w))
  | 0xE#4 => decodeE w
  | _ => decodeF w

/-- The instruction word of two consecutive bytes: the byte at the lower address in bits 15:8 (20_memory.md R54). -/
def joinBytes (hi lo : Byte) : Word := hi.setWidth 16 <<< 8 ||| lo.setWidth 16

/-- Why bytes do not decode to an instruction. -/
inductive DecodeError where
  /-- fewer than two bytes are left (R70: an instruction is exactly two bytes) -/
  | truncated
  /-- the word is UNDEFINED (R75) -/
  | undefinedOpcode (w : Word)
  deriving DecidableEq, Repr

/-- Decode the first instruction of a byte list and give back the rest (R70: always exactly two bytes). -/
def decodeBytes : List Byte → Except DecodeError (Instr × List Byte)
  | hi :: lo :: rest =>
    match decode (joinBytes hi lo) with
    | some i => .ok (i, rest)
    | none => .error (.undefinedOpcode (joinBytes hi lo))
  | _ => .error .truncated

/-! ### The encoder (30_encoding.md section 4; ignored bits are written as 0, log 11) -/

/-- The bits of a register operand. -/
def regBits (r : RegIdx) : Nibble := BitVec.ofFin r

/-- c : x : y : n. -/
def packXYN (c x y n : Nibble) : Word :=
  c.setWidth 16 <<< 12 ||| x.setWidth 16 <<< 8 ||| y.setWidth 16 <<< 4 ||| n.setWidth 16
/-- c : x : nn. -/
def packXNN (c x : Nibble) (nn : Byte) : Word :=
  c.setWidth 16 <<< 12 ||| x.setWidth 16 <<< 8 ||| nn.setWidth 16
/-- c : nnn. -/
def packNNN (c : Nibble) (nnn : Addr12) : Word :=
  c.setWidth 16 <<< 12 ||| nnn.setWidth 16

/-- The word of an instruction. -/
def encode : Instr → Word
  | .cls => 0x00E0#16
  | .ret => 0x00EE#16
  | .scd n => packXYN 0x0#4 0x0#4 0xC#4 n
  | .scr => 0x00FB#16
  | .scl => 0x00FC#16
  | .exit => 0x00FD#16
  | .low => 0x00FE#16
  | .high => 0x00FF#16
  | .jp nnn => packNNN 0x1#4 nnn
  | .call nnn => packNNN 0x2#4 nnn
  | .seImm x nn => packXNN 0x3#4 (regBits x) nn
  | .sneImm x nn => packXNN 0x4#4 (regBits x) nn
  | .seReg x y => packXYN 0x5#4 (regBits x) (regBits y) 0x0#4
  | .ldImm x nn => packXNN 0x6#4 (regBits x) nn
  | .addImm x nn => packXNN 0x7#4 (regBits x) nn
  | .ldReg x y => packXYN 0x8#4 (regBits x) (regBits y) 0x0#4
  | .orReg x y => packXYN 0x8#4 (regBits x) (regBits y) 0x1#4
  | .andReg x y => packXYN 0x8#4 (regBits x) (regBits y) 0x2#4
  | .xorReg x y => packXYN 0x8#4 (regBits x) (regBits y) 0x3#4
  | .addReg x y => packXYN 0x8#4 (regBits x) (regBits y) 0x4#4
  | .subReg x y => packXYN 0x8#4 (regBits x) (regBits y) 0x5#4
  | .shr x y => packXYN 0x8#4 (regBits x) (regBits y) 0x6#4
  | .subn x y => packXYN 0x8#4 (regBits x) (regBits y) 0x7#4
  | .shl x y => packXYN 0x8#4 (regBits x) (regBits y) 0xE#4
  | .sneReg x y => packXYN 0x9#4 (regBits x) (regBits y) 0x0#4
  | .ldI nnn => packNNN 0xA#4 nnn
  | .jpV0 nnn => packNNN 0xB#4 nnn
  | .rnd x nn => packXNN 0xC#4 (regBits x) nn
  | .drw x y n => packXYN 0xD#4 (regBits x) (regBits y) n
  | .drwLarge x y => packXYN 0xD#4 (regBits x) (regBits y) 0x0#4
  | .skp x => packXNN 0xE#4 (regBits x) 0x9E#8
  | .sknp x => packXNN 0xE#4 (regBits x) 0xA1#8
  | .ldVxDt x => packXNN 0xF#4 (regBits x) 0x07#8
  | .ldVxK x => packXNN 0xF#4 (regBits x) 0x0A#8
  | .ldDtVx x => packXNN 0xF#4 (regBits x) 0x15#8
  | .ldStVx x => packXNN 0xF#4 (regBits x) 0x18#8
  | .addI x => packXNN 0xF#4 (regBits x) 0x1E#8
  | .ldF x => packXNN 0xF#4 (regBits x) 0x29#8
  | .ldHf x => packXNN 0xF#4 (regBits x) 0x30#8
  | .ldB x => packXNN 0xF#4 (regBits x) 0x33#8
  | .storeRegs x => packXNN 0xF#4 (regBits x) 0x55#8
  | .loadRegs x => packXNN 0xF#4 (regBits x) 0x65#8
  | .saveFlags x => packXNN 0xF#4 (regBits x) 0x75#8
  | .restoreFlags x => packXNN 0xF#4 (regBits x) 0x85#8

/-- The row of spec/opcode_table.json an instruction belongs to, as (mask, match). -/
def tableRow : Instr → Word × Word
  | .cls => (0xF0FF#16, 0x00E0#16)
  | .ret => (0xF0FF#16, 0x00EE#16)
  | .scd _ => (0xF0F0#16, 0x00C0#16)
  | .scr => (0xF0FF#16, 0x00FB#16)
  | .scl => (0xF0FF#16, 0x00FC#16)
  | .exit => (0xF0FF#16, 0x00FD#16)
  | .low => (0xF0FF#16, 0x00FE#16)
  | .high => (0xF0FF#16, 0x00FF#16)
  | .jp _ => (0xF000#16, 0x1000#16)
  | .call _ => (0xF000#16, 0x2000#16)
  | .seImm _ _ => (0xF000#16, 0x3000#16)
  | .sneImm _ _ => (0xF000#16, 0x4000#16)
  | .seReg _ _ => (0xF000#16, 0x5000#16)
  | .ldImm _ _ => (0xF000#16, 0x6000#16)
  | .addImm _ _ => (0xF000#16, 0x7000#16)
  | .ldReg _ _ => (0xF00F#16, 0x8000#16)
  | .orReg _ _ => (0xF00F#16, 0x8001#16)
  | .andReg _ _ => (0xF00F#16, 0x8002#16)
  | .xorReg _ _ => (0xF00F#16, 0x8003#16)
  | .addReg _ _ => (0xF00F#16, 0x8004#16)
  | .subReg _ _ => (0xF00F#16, 0x8005#16)
  | .shr _ _ => (0xF00F#16, 0x8006#16)
  | .subn _ _ => (0xF00F#16, 0x8007#16)
  | .shl _ _ => (0xF00F#16, 0x800E#16)
  | .sneReg _ _ => (0xF000#16, 0x9000#16)
  | .ldI _ => (0xF000#16, 0xA000#16)
  | .jpV0 _ => (0xF000#16, 0xB000#16)
  | .rnd _ _ => (0xF000#16, 0xC000#16)
  | .drw _ _ _ => (0xF000#16, 0xD000#16)
  | .drwLarge _ _ => (0xF00F#16, 0xD000#16)
  | .skp _ => (0xF0FF#16, 0xE09E#16)
  | .sknp _ => (0xF0FF#16, 0xE0A1#16)
  | .ldVxDt _ => (0xF0FF#16, 0xF007#16)
  | .ldVxK _ => (0xF0FF#16, 0xF00A#16)
  | .ldDtVx _ => (0xF0FF#16, 0xF015#16)
  | .ldStVx _ => (0xF0FF#16, 0xF018#16)
  | .addI _ => (0xF0FF#16, 0xF01E#16)
  | .ldF _ => (0xF0FF#16, 0xF029#16)
  | .ldHf _ => (0xF0FF#16, 0xF030#16)
  | .ldB _ => (0xF0FF#16, 0xF033#16)
  | .storeRegs _ => (0xF0FF#16, 0xF055#16)
  | .loadRegs _ => (0xF0FF#16, 0xF065#16)
  | .saveFlags _ => (0xF0FF#16, 0xF075#16)
  | .restoreFlags _ => (0xF0FF#16, 0xF085#16)

/-- The high byte of a word, which stands at the lower address (R54). -/
def hiByte (w : Word) : Byte := w.extractLsb' 8 8
/-- The low byte of a word. -/
def loByte (w : Word) : Byte := w.extractLsb' 0 8
/-- A word as the hardware stores it. -/
def wordBytes (w : Word) : List Byte := [hiByte w, loByte w]

/-! ### The host's view of the decoder -/

/-- The one word of an instruction of `nbits` bits whose table number is `w`: bits above `nbits` are 0, and bits above
15 do not exist (R70: one 16-bit word). -/
def tableWord (nbits w : Nat) : Word := BitVec.ofNat 16 (w % 2 ^ nbits)

/-- The instruction the decoder reads from a row's bits, laid out as the hardware stores them. -/
def decodeTableWord (nbits w : Nat) : Option Instr :=
  match decodeBytes (wordBytes (tableWord nbits w)) with
  | .ok (i, _) => some i
  | .error _ => none

/-! ### Listing (R77; carries no behaviour) -/

/-- One upper-case hexadecimal digit. -/
def hexDigit (n : Nat) : String := String.singleton (Nat.digitChar n).toUpper
/-- A register operand, V0 to VF. -/
def listReg (r : RegIdx) : String := "V" ++ hexDigit r.val
/-- An 8-bit immediate. -/
def listByte (b : Byte) : String := "0x" ++ hexDigit (b.toNat / 16) ++ hexDigit (b.toNat % 16)
/-- A 12-bit address. -/
def listAddr (a : Addr12) : String :=
  "0x" ++ hexDigit (a.toNat / 256) ++ hexDigit (a.toNat / 16 % 16) ++ hexDigit (a.toNat % 16)
/-- A data word in a listing. -/
def listWord (w : Word) : String :=
  "0x" ++ hexDigit (w.toNat / 4096) ++ hexDigit (w.toNat / 256 % 16) ++ hexDigit (w.toNat / 16 % 16) ++
    hexDigit (w.toNat % 16)

/-- The assembler syntax of an instruction (30_encoding.md section 4, column `syntax`, and R77). -/
def Instr.asm : Instr → String
  | .cls => "CLS"
  | .ret => "RET"
  | .scd n => "SCD " ++ toString n.toNat
  | .scr => "SCR"
  | .scl => "SCL"
  | .exit => "EXIT"
  | .low => "LOW"
  | .high => "HIGH"
  | .jp nnn => "JP " ++ listAddr nnn
  | .call nnn => "CALL " ++ listAddr nnn
  | .seImm x nn => "SE " ++ listReg x ++ ", " ++ listByte nn
  | .sneImm x nn => "SNE " ++ listReg x ++ ", " ++ listByte nn
  | .seReg x y => "SE " ++ listReg x ++ ", " ++ listReg y
  | .ldImm x nn => "LD " ++ listReg x ++ ", " ++ listByte nn
  | .addImm x nn => "ADD " ++ listReg x ++ ", " ++ listByte nn
  | .ldReg x y => "LD " ++ listReg x ++ ", " ++ listReg y
  | .orReg x y => "OR " ++ listReg x ++ ", " ++ listReg y
  | .andReg x y => "AND " ++ listReg x ++ ", " ++ listReg y
  | .xorReg x y => "XOR " ++ listReg x ++ ", " ++ listReg y
  | .addReg x y => "ADD " ++ listReg x ++ ", " ++ listReg y
  | .subReg x y => "SUB " ++ listReg x ++ ", " ++ listReg y
  | .shr x y => "SHR " ++ listReg x ++ ", " ++ listReg y
  | .subn x y => "SUBN " ++ listReg x ++ ", " ++ listReg y
  | .shl x y => "SHL " ++ listReg x ++ ", " ++ listReg y
  | .sneReg x y => "SNE " ++ listReg x ++ ", " ++ listReg y
  | .ldI nnn => "LD I, " ++ listAddr nnn
  | .jpV0 nnn => "JP V0, " ++ listAddr nnn
  | .rnd x nn => "RND " ++ listReg x ++ ", " ++ listByte nn
  | .drw x y n => "DRW " ++ listReg x ++ ", " ++ listReg y ++ ", " ++ toString n.toNat
  | .drwLarge x y => "DRW " ++ listReg x ++ ", " ++ listReg y ++ ", 0"
  | .skp x => "SKP " ++ listReg x
  | .sknp x => "SKNP " ++ listReg x
  | .ldVxDt x => "LD " ++ listReg x ++ ", DT"
  | .ldVxK x => "LD " ++ listReg x ++ ", K"
  | .ldDtVx x => "LD DT, " ++ listReg x
  | .ldStVx x => "LD ST, " ++ listReg x
  | .addI x => "ADD I, " ++ listReg x
  | .ldF x => "LD F, " ++ listReg x
  | .ldHf x => "LD HF, " ++ listReg x
  | .ldB x => "LD B, " ++ listReg x
  | .storeRegs x => "LD [I], " ++ listReg x
  | .loadRegs x => "LD " ++ listReg x ++ ", [I]"
  | .saveFlags x => "LD R, " ++ listReg x
  | .restoreFlags x => "LD " ++ listReg x ++ ", R"

/-- A word in a listing: its instruction, or a data word where it decodes as UNDEFINED. -/
def listing (w : Word) : String :=
  match decode w with
  | some i => i.asm
  | none => "DW " ++ listWord w

end Sys2Proof
end

