-- ==== Sys2Proof/Config.lean ====
section
/-! DEFINITION. What an implementation of the core fixes (00_scope.md R5 to R11; the spec's defaults are in
Machine/Defaults.lean), and the two free values of the model. A `Config` is plain data that a state carries and no step
changes (log 2). -/

namespace Sys2Proof

/-- The quirk configuration register's five one-bit fields, in bit order 0 to 4 (10_state.md R29). -/
structure Qcr where
  /-- bit 0: OR, AND and XOR then write VF with 0 -/
  vfReset : Bool
  /-- bit 1: the block transfers advance I by x + 1 -/
  memory : Bool
  /-- bit 2: the shifts read Vx, not Vy -/
  shifting : Bool
  /-- bit 3: the offset jump adds Vx with x = nnn[11:8], not V0 -/
  jumping : Bool
  /-- bit 4: ADD I, Vx writes VF -/
  ioverflow : Bool
  deriving DecidableEq, Repr

/-- The name of one field of QCR. -/
inductive Quirk where
  | vfReset | memory | shifting | jumping | ioverflow
  deriving DecidableEq, Repr

/-- The implementation parameters: "a value the model takes as an argument" (00_scope.md section 3). -/
structure Config where
  /-- MEM_SIZE, the number of byte cells (R5) -/
  memSize : Nat
  /-- STACK_DEPTH (R6) -/
  stackDepth : Nat
  /-- HIRES_SCALE (R8) -/
  hiresScale : Nat
  /-- FONT_BASE (R9) -/
  fontBase : Nat
  /-- FONT_SMALL, 16 glyphs of 5 bytes (20_memory.md R58) -/
  fontSmall : List Byte
  /-- FONT_LARGE, 16 glyphs of 10 bytes (20_memory.md R59) -/
  fontLarge : List Byte
  /-- IOVF_LIMIT (R10) -/
  iovfLimit : Nat
  /-- QCR_POWERON (R11) -/
  qcrPowerOn : Qcr
  /-- The spelling of the five quirk names (60_exceptions.md R289; 93_implementation_defined.md U21) -/
  quirkNames : List (String × Quirk)
  /-- The named presets and their values (60_exceptions.md R289) -/
  presets : List (String × Qcr)
  deriving DecidableEq, Repr

namespace Config

/-- BASE_W and BASE_H, the low-resolution size (R7). -/
def baseW : Nat := 64
def baseH : Nat := 32

/-- Where the program image goes and where PC starts (20_memory.md R60, 70_reset_and_hazards.md R303). -/
def progBase : Nat := 0x200

/-- The legal parameter values: the range of MEM_SIZE (R5), a power of two ≥ 2 for HIRES_SCALE (R8), font tables of
80 and 160 bytes lying before 0x200 (R58 to R60). -/
abbrev Legal (c : Config) : Prop :=
  4096 ≤ c.memSize ∧ c.memSize ≤ 65536 ∧ 2 ≤ c.hiresScale ∧ 2 ^ c.hiresScale.log2 = c.hiresScale ∧
    c.fontSmall.length = 80 ∧ c.fontLarge.length = 160 ∧ c.fontBase + 240 ≤ progBase

/-- FREE VALUE: the byte the host's random source gives at the `n`-th draw that no supplied byte answers
(44_random.md R180, 93_implementation_defined.md U10; log 4). It has no body: nothing constrains it. -/
opaque randomByte : Nat → Byte

/-- FREE VALUE: the sixteen HOSTKEY lines at the `n`-th sample that no supplied sample answers; bit k is
HOSTKEY[k] (46_keys.md R213, 93_implementation_defined.md U11; log 5). -/
opaque hostKeys : Nat → BitVec 16

end Config

end Sys2Proof
end

