-- ==== Sys2Proof/Machine/State.lean ====
section
/-! DEFINITION. Everything the spec gives the machine, as plain data (10_state.md), the reasons a step can stop, and
the core right after reset. -/

namespace Sys2Proof.Machine

/-- The kind of a byte access, recorded with a MEM_BOUNDS fault (60_exceptions.md R271). -/
inductive AccessKind where
  | fetch | read | write
  deriving DecidableEq, Repr

/-- The record FAULT holds (R271): its code and the information the table gives each code. `pc` is the address A of
the instruction that faulted. Taking one is a NEXT state (log 1). -/
inductive FatalFault where
  /-- code 1, MEM_BOUNDS: a byte access at the unwrapped address `addr ≥ MEM_SIZE` -/
  | memBounds (pc : Word) (addr : Nat) (kind : AccessKind)
  /-- code 2, STACK_OVERFLOW: CALL with STACK_DEPTH entries on the stack -/
  | stackOverflow (pc : Word)
  /-- code 3, STACK_UNDERFLOW: RET with an empty stack -/
  | stackUnderflow (pc : Word)
  /-- code 4, FLAG_INDEX: FX75 or FX85 with x ≥ 8 -/
  | flagIndex (pc : Word) (x : RegIdx)
  deriving DecidableEq, Repr

/-- Why a step answers `fault`. -/
inductive Fault where
  /-- Raised by `step` alone: FAULT is set, so no host operation has a step (40_cycle.md R100, 60_exceptions.md R272).
  Safe: the spec says the core is stopped for good. -/
  | stopped (record : FatalFault)
  deriving DecidableEq, Repr

/-- Why a step is refused. -/
inductive Refusal where
  /-- Raised by `exec`'s arm of an instruction that has no meaning yet; no arm is left that does so. Safe: it stops. -/
  | notModelled (mnemonic : String)
  deriving DecidableEq, Repr

/-- RUNSTATE (10_state.md R30). -/
inductive RunState where
  | running | waiting
  deriving DecidableEq, Repr

/-- SCALE: low is 1, high is HIRES_SCALE (10_state.md R33). -/
inductive Resolution where
  | low | high
  deriving DecidableEq, Repr

/-- The pixel grid PIX: rows from the top, each a list of pixels from the left (45_display.md R185). -/
abbrev Grid := List (List Bool)

/-- Byte memory: (address, byte) pairs, addresses strictly rising, no pair equal to what an unlisted address reads
as (log 9). -/
abbrev Memory := List Host.Cell

/-- A host operation (60_exceptions.md R285). -/
inductive HostOp where
  /-- one fetch, decode and execute -/
  | cycle
  /-- the frame tick, R280 -/
  | tick
  /-- the interpreter reset, R301 -/
  | reset
  /-- LOAD of an image, R62; `none` is an image that is missing or unreadable (R278) -/
  | load (image : Option (List Byte))
  /-- KeyDown(k), R210 -/
  | keyDown (k : Key)
  /-- KeyUp(k), R211 -/
  | keyUp (k : Key)
  /-- KeyboardReset(), R214 -/
  | keyboardReset
  /-- CONFIG_WRITE(name, value), R289 -/
  | configWrite (name value : String)
  /-- PRESET(name), R289 -/
  | preset (name : String)
  deriving DecidableEq, Repr

/-- What an operation sends to the host (R285). -/
inductive Output where
  /-- UndefinedOpcode(A, word), 40_cycle.md R104 -/
  | undefinedOpcode (a word : Word)
  /-- the flush snapshot (W, H, PIX), 45_display.md R192 -/
  | flush (w h : Nat) (pix : Grid)
  /-- a load or configuration write was accepted or rejected, R277, R278 -/
  | report (accepted : Bool)
  deriving DecidableEq, Repr

/-- The state of the core (10_state.md), its parameters, and the model's own input and output fields. -/
structure State where
  /-- the implementation parameters, which no step changes (log 2) -/
  cfg : Config
  /-- V0 to VF, R20 -/
  v : Vector Byte 16
  /-- PC, R22 -/
  pc : Word
  /-- I, R23 -/
  i : Word
  /-- IR, R24 -/
  ir : Word
  /-- DT, R25 -/
  dt : Byte
  /-- ST, R26 -/
  st : Byte
  /-- RPL[0..7], R27 -/
  rpl : Vector Byte 8
  /-- STACK, R28, the entry pushed last first -/
  stack : List Word
  /-- QCR, R29 -/
  qcr : Qcr
  /-- RUNSTATE, R30 -/
  runState : RunState
  /-- REDRAW, R31 -/
  redraw : Bool
  /-- FAULT, R32 -/
  fault : Option FatalFault
  /-- SCALE, R33 -/
  res : Resolution
  /-- PIX, R33 -/
  pix : Grid
  /-- HELD[0..15], R34 -/
  held : Vector Bool 16
  /-- PENDING, R34 -/
  pending : Option Key
  /-- M, R36 -/
  mem : Memory
  /-- MODEL'S OWN: the operations the host will issue, next first; when none is left it issues CYCLE (log 3) -/
  sched : List HostOp
  /-- MODEL'S OWN: random bytes the host has ready, next first (log 4) -/
  randIn : List Byte
  /-- MODEL'S OWN: how many free random bytes have been drawn (log 4) -/
  draws : Nat
  /-- MODEL'S OWN: HOSTKEY line samples supplied, next first; bit k is HOSTKEY[k] (log 5) -/
  keysIn : List (BitVec 16)
  /-- MODEL'S OWN: how many free line samples have been taken (log 5) -/
  samples : Nat
  /-- MODEL'S OWN: what the operation just done sent to the host (log 6) -/
  out : List Output
  deriving DecidableEq, Repr

/-- A grid of `w` × `h` pixels, all 0. -/
def Grid.blank (w h : Nat) : Grid := List.replicate h (List.replicate w false)

/-- The core when it is created with parameters `c` (70_reset_and_hazards.md R300). -/
def State.powerOn (c : Config) : State where
  cfg := c
  v := Vector.replicate 16 0x00#8
  pc := 0x0200#16
  i := 0x0000#16
  ir := 0x0000#16
  dt := 0x00#8
  st := 0x00#8
  rpl := Vector.replicate 8 0x00#8
  stack := []
  qcr := c.qcrPowerOn
  runState := .running
  redraw := false
  fault := none
  res := .low
  pix := Grid.blank Config.baseW Config.baseH
  held := Vector.replicate 16 false
  pending := none
  mem := []
  sched := []
  randIn := []
  draws := 0
  keysIn := []
  samples := 0
  out := []

/-- The core right after reset, with the spec's default parameters and no program loaded (R300, R301; log 7). -/
def State.reset : State := State.powerOn Config.standard

end Sys2Proof.Machine
end

