-- ==== Sys2Proof/Machine/Ops.lean ====
section
/-! DEFINITION. The shared operations over memory, registers, stack and PC, and the taking of a fatal fault. A
meaning is written over these and never touches the storage itself. -/

namespace Sys2Proof.Machine

/-! ### Byte memory (20_memory.md R50 to R57) -/

/-- What an address reads as while nothing is listed for it: 0x00 (70_reset_and_hazards.md R300; log 9). -/
def Memory.unlisted : Byte := 0x00#8

/-- The byte at address `a`. -/
def Memory.read : Memory → Nat → Byte
  | [], _ => Memory.unlisted
  | (k, b) :: rest, a => if k = a then b else Memory.read rest a

/-- Memory with `v` at address `a`, in canonical form again. -/
def Memory.write : Memory → Nat → Byte → Memory
  | [], a, v => if v = Memory.unlisted then [] else [(a, v)]
  | (k, b) :: rest, a, v =>
    if a < k then (if v = Memory.unlisted then (k, b) :: rest else (a, v) :: (k, b) :: rest)
    else if a = k then (if v = Memory.unlisted then rest else (a, v) :: rest)
    else (k, b) :: Memory.write rest a v

/-- Bytes written to consecutive ascending addresses. -/
def Memory.writeAll : Memory → Nat → List Byte → Memory
  | m, _, [] => m
  | m, a, b :: bs => Memory.writeAll (m.write a b) (a + 1) bs

/-- The canonical form: addresses strictly rising, no pair equal to the unlisted value. -/
def Memory.wf : Memory → Bool
  | [] => true
  | (k, b) :: rest => b != Memory.unlisted && rest.all (fun c => decide (k < c.1)) && Memory.wf rest

/-- Every listed address exists (R50). -/
def Memory.within (n : Nat) (m : Memory) : Bool := m.all (fun c => decide (c.1 < n))

/-! ### Fatal faults (60_exceptions.md R271 to R276) -/

/-- TAKING A FATAL FAULT, the one operation for it: FAULT gets the record and every other element stays as it stood
(R272). No pc or status is saved and control goes nowhere: the core has no vector, no handler and no return (R276). -/
def State.raise (f : FatalFault) (s : State) : State := { s with fault := some f }

/-- The numeric code of a fault record (R271). -/
def FatalFault.code : FatalFault → Nat
  | .memBounds _ _ _ => 1
  | .stackOverflow _ => 2
  | .stackUnderflow _ => 3
  | .flagIndex _ _ => 4

/-- How a statement of a rule ends: it goes on with a result, or a fatal fault has ended the operation in the state
as it stood at that statement (R273). -/
inductive Flow (α : Type) where
  | go (a : α)
  | stop (s : State)

/-- The statement after another: it runs only where the first goes on. -/
def Flow.bind {α β : Type} (m : Flow α) (k : α → Flow β) : Flow β :=
  match m with
  | .go a => k a
  | .stop s => .stop s

/-- The end of an operation (40_cycle.md R103): either way the core is in the state reached. -/
def Flow.finish : Flow State → Host.Outcome State Fault Refusal
  | .go s => .next s
  | .stop s => .next s

/-- MemRead(a, 1) by the instruction at `pc` (20_memory.md R51). -/
def State.memRead (s : State) (kind : AccessKind) (pc : Word) (a : Nat) : Flow Byte :=
  if a < s.cfg.memSize then .go (s.mem.read a) else .stop (s.raise (.memBounds pc a kind))

/-- MemWrite(a, 1, b) by the instruction at `pc` (20_memory.md R52). -/
def State.memWrite (s : State) (pc : Word) (a : Nat) (b : Byte) : Flow State :=
  if a < s.cfg.memSize then .go { s with mem := s.mem.write a b } else .stop (s.raise (.memBounds pc a .write))

/-- Reads of `n` consecutive bytes in ascending order. -/
def State.readBytes (s : State) (pc : Word) : Nat → Nat → Flow (List Byte)
  | _, 0 => .go []
  | a, n + 1 => (s.memRead .read pc a).bind fun b => (s.readBytes pc (a + 1) n).bind fun bs => .go (b :: bs)

/-- Writes of bytes to consecutive addresses in ascending order; those before a failing address stay done (R273). -/
def State.writeBytes (s : State) (pc : Word) : Nat → List Byte → Flow State
  | _, [] => .go s
  | a, b :: bs => (s.memWrite pc a b).bind fun t => t.writeBytes pc (a + 1) bs

/-! ### Registers (10_state.md R20 to R23) -/

/-- V[r]. -/
def State.getV (s : State) (r : RegIdx) : Byte := s.v[r]

/-- V[r] <- b. -/
def State.setV (s : State) (r : RegIdx) (b : Byte) : State := { s with v := s.v.set r b }

/-- The number of VF, the flag register (R21). -/
def vf : RegIdx := 15

/-- A result and its flag: the result is written first and VF second (42_arith.md R140). -/
def State.setResultFlag (s : State) (r : RegIdx) (result flag : Byte) : State :=
  (s.setV r result).setV vf flag

/-- A, the address of the instruction being executed: PC is the post-fetch value (00_scope.md R17). -/
def State.instrAddr (s : State) : Word := s.pc - 2#16

/-- PC <- target. -/
def State.jump (s : State) (target : Word) : State := { s with pc := target }

/-- Skip(), taken where the condition holds (41_control_flow.md R120). -/
def State.skipIf (s : State) (c : Bool) : State := if c then { s with pc := s.pc + 2#16 } else s

/-- PC back to the instruction's own address (R217, R253). -/
def State.rewind (s : State) : State := { s with pc := s.pc - 2#16 }

/-- I <- a. -/
def State.setI (s : State) (a : Word) : State := { s with i := a }

/-- The registers 0..x in ascending order. -/
def regsUpTo (x : RegIdx) : List RegIdx :=
  [0, 1, 2, 3, 4, 5, 6, 7, 8, 9, 10, 11, 12, 13, 14, 15].take (x.val + 1)

/-- V[i] <- MemRead(base + i, 1) for the registers given, in their order; those loaded before a failing address keep
their new values (48_memory_block_bcd.md R241). -/
def State.loadV (s : State) (pc : Word) (base : Nat) : List RegIdx → Flow State
  | [] => .go s
  | r :: rs => (s.memRead .read pc (base + r.val)).bind fun b => (s.setV r b).loadV pc base rs

/-- I <- wrap16(I + x + 1) where quirk `memory` is 1 (R240, R241). -/
def State.advanceI (s : State) (x : RegIdx) : State :=
  if s.qcr.memory then { s with i := s.i + BitVec.ofNat 16 (x.val + 1) } else s

/-! ### Call stack (20_memory.md R61) -/

/-- Push(w). -/
def State.push (s : State) (w : Word) : Flow State :=
  if s.stack.length < s.cfg.stackDepth then .go { s with stack := w :: s.stack }
  else .stop (s.raise (.stackOverflow s.instrAddr))

/-- PC <- Pop(). -/
def State.popPc (s : State) : Flow State :=
  match s.stack with
  | [] => .stop (s.raise (.stackUnderflow s.instrAddr))
  | w :: rest => .go { s with stack := rest, pc := w }

/-! ### Fetch and the undefined opcode (40_cycle.md R101, R104) -/

/-- The state after a completed fetch of the word `w`. -/
def State.fetched (s : State) (w : Word) : State := { s with ir := w, pc := s.pc + 2#16 }

/-- Fetch: two reads, unwrapped addresses; IR and PC are written only after both. -/
def State.fetch (s : State) : Flow State :=
  (s.memRead .fetch s.pc s.pc.toNat).bind fun hi =>
    (s.memRead .fetch s.pc (s.pc.toNat + 1)).bind fun lo => .go (s.fetched (joinBytes hi lo))

/-- emit UndefinedOpcode(A, IR), after the fetch; no other state changes. -/
def State.undefinedOpcode (s : State) : State :=
  { s with out := s.out ++ [.undefinedOpcode s.instrAddr s.ir] }

/-- The word the next fetch reads. -/
def State.wordAtPc (s : State) : Word := joinBytes (s.mem.read s.pc.toNat) (s.mem.read (s.pc.toNat + 1))

/-- Both bytes at PC exist, so the next fetch completes. -/
def State.canFetch (s : State) : Bool := decide (s.pc.toNat + 1 < s.cfg.memSize)

/-! ### Inputs (10_state.md R35) -/

/-- draw_rand() (44_random.md R180): the next supplied byte, else a free value (log 4). -/
def State.randByte (s : State) : Byte :=
  match s.randIn with
  | b :: _ => b
  | [] => Config.randomByte s.draws

/-- The state after that draw. -/
def State.afterDraw (s : State) : State :=
  match s.randIn with
  | _ :: bs => { s with randIn := bs }
  | [] => { s with draws := s.draws + 1 }

/-- The sixteen HOSTKEY lines as this instruction samples them (46_keys.md R213): the next supplied sample, else a
free value (log 5). -/
def State.keyLines (s : State) : BitVec 16 :=
  match s.keysIn with
  | b :: _ => b
  | [] => Config.hostKeys s.samples

/-- The state after that sample. -/
def State.afterSample (s : State) : State :=
  match s.keysIn with
  | _ :: bs => { s with keysIn := bs }
  | [] => { s with samples := s.samples + 1 }

/-- isPressed(k) (46_keys.md R213). -/
def State.isPressed (s : State) (k : Key) : Bool := s.keyLines.getLsbD k.val

/-! ### Placing a word for the host's probe -/

/-- `s` with the instruction word `w` where its next CYCLE fetches, and that CYCLE next (log 10). -/
def State.placeWord (s : State) (w : Word) : State :=
  let pc := if s.canFetch then s.pc else 0x0200#16
  { s with
    pc := pc
    mem := s.mem.writeAll pc.toNat (wordBytes w)
    fault := none
    sched := [] }

end Sys2Proof.Machine
end

