-- ==== Sys2Proof/Machine/Operands.lean ====
section
/-! DEFINITION. The operand forms: how an instruction finds its operands beyond a plain V[x], nn, nnn or n
(30_encoding.md R72 and the rules of each form). -/

namespace Sys2Proof.Machine

/-- V[x][3:0], the digit or key a register names (43_index.md R172, 46_keys.md R215). -/
def lowNibble (b : Byte) : Fin 16 := regOf (b.extractLsb' 0 4)

/-- zext_16(nnn) (30_encoding.md R72). -/
def addrOf (nnn : Addr12) : Word := nnn.setWidth 16

/-- nnn[11:8] as a register number (41_control_flow.md R128). -/
def addrReg (nnn : Addr12) : RegIdx := regOf (nnn.extractLsb' 8 4)

/-- The operand of a shift: V[y], or V[x] where quirk `shifting` is 1 (42_arith.md R149). -/
def State.shiftSource (s : State) (x y : RegIdx) : Byte := if s.qcr.shifting then s.getV x else s.getV y

/-- The register of the offset jump: V0, or V[nnn[11:8]] where quirk `jumping` is 1 (R128). -/
def State.jumpReg (s : State) (nnn : Addr12) : RegIdx := if s.qcr.jumping then addrReg nnn else 0

/-- The target of the offset jump, `wrap16(nnn + V[r])`. -/
def State.jumpTarget (s : State) (nnn : Addr12) : Word :=
  addrOf nnn + (s.getV (s.jumpReg nnn)).setWidth 16

/-- The address of the small glyph of a digit (43_index.md R172). -/
def State.smallGlyph (s : State) (d : Fin 16) : Word := BitVec.ofNat 16 (s.cfg.fontBase + 5 * d.val)

/-- The address of the large glyph of a digit (43_index.md R173). -/
def State.largeGlyph (s : State) (d : Fin 16) : Word := BitVec.ofNat 16 (s.cfg.fontBase + 80 + 10 * d.val)

/-- The hundreds, tens and units digits of a byte, each a whole byte (48_memory_block_bcd.md R242). -/
def bcdDigits (b : Byte) : List Byte :=
  [BitVec.ofNat 8 (b.toNat / 100), BitVec.ofNat 8 (b.toNat / 10 % 10), BitVec.ofNat 8 (b.toNat % 10)]

/-- V[0..x] as the bytes a block store writes (R240). -/
def State.regBytes (s : State) (x : RegIdx) : List Byte := (regsUpTo x).map s.getV

end Sys2Proof.Machine
end

