-- ==== Sys2Proof/Machine/Flags.lean ====
section
/-! DEFINITION. Every value VF gets as a flag (10_state.md R21). There is no other flag. -/

namespace Sys2Proof.Machine

/-- A condition as the byte VF holds. -/
def flagByte (c : Bool) : Byte := if c then 0x01#8 else 0x00#8

/-- The carry of an addition: 1 iff the unsigned sum exceeds 255 (42_arith.md R147). -/
def carryFlag (a b : Byte) : Byte := flagByte (decide (a.toNat + b.toNat > 255))

/-- No borrow in a - b: 1 iff minuend ≥ subtrahend (R148, R150). -/
def noBorrowFlag (a b : Byte) : Byte := flagByte (decide (a.toNat ≥ b.toNat))

/-- The bit a right shift by 1 shifts out (R149). -/
def shiftedOutRight (a : Byte) : Byte := a &&& 0x01#8

/-- The bit a left shift by 1 shifts out (R151). -/
def shiftedOutLeft (a : Byte) : Byte := a >>> 7

/-- The flag of ADD I, Vx: 1 iff the unwrapped sum exceeds IOVF_LIMIT (43_index.md R171). -/
def indexOverflowFlag (limit : Nat) (i : Word) (b : Byte) : Byte :=
  flagByte (decide (i.toNat + b.toNat > limit))

/-- VF <- 0 after OR, AND and XOR where quirk `vf_reset` is 1 (42_arith.md R144). -/
def State.logicFlag (s : State) : State := if s.qcr.vfReset then s.setV vf 0x00#8 else s

/-- VF after ADD I, Vx where quirk `ioverflow` is 1 (43_index.md R171). -/
def State.indexFlag (s : State) (flag : Byte) : State := if s.qcr.ioverflow then s.setV vf flag else s

/-- The collision flag of a draw: 0 or 1, whatever the number of collisions (45_display.md R194). -/
def collisionFlag (hit : Bool) : Byte := flagByte hit

end Sys2Proof.Machine
end

