-- ==== Sys2Proof/Machine/Block.lean ====
section
/-! DEFINITION. Memory block transfer and BCD (48_memory_block_bcd.md R240 to R242). -/

namespace Sys2Proof.Machine

/-- LD [I], Vx, R240: I advances only after every write is done. -/
def execStoreRegs (x : RegIdx) (s : State) : Host.Outcome State Fault Refusal :=
  ((s.writeBytes s.instrAddr s.i.toNat (s.regBytes x)).bind fun t => .go (t.advanceI x)).finish

/-- LD Vx, [I], R241. -/
def execLoadRegs (x : RegIdx) (s : State) : Host.Outcome State Fault Refusal :=
  ((s.loadV s.instrAddr s.i.toNat (regsUpTo x)).bind fun t => .go (t.advanceI x)).finish

/-- LD B, Vx, R242. -/
def execLdB (x : RegIdx) (s : State) : Host.Outcome State Fault Refusal :=
  (s.writeBytes s.instrAddr s.i.toNat (bcdDigits (s.getV x))).finish

end Sys2Proof.Machine
end

