-- ==== Sys2Proof/Machine/DisplayOps.lean ====
section
/-! DEFINITION. The display controller's primitives (45_display.md R185 to R192). -/

namespace Sys2Proof.Machine

/-- SCALE as a number (10_state.md R33). -/
def State.scale (s : State) : Nat :=
  match s.res with
  | .low => 1
  | .high => s.cfg.hiresScale

/-- W = 64 * SCALE (R185). -/
def State.width (s : State) : Nat := Config.baseW * s.scale

/-- H = 32 * SCALE (R185). -/
def State.height (s : State) : Nat := Config.baseH * s.scale

/-- The pixel of column `x` and row `y`; 0 off the grid (log 12). -/
def Grid.get (g : Grid) (x y : Nat) : Bool := (g.getD y []).getD x false

/-- The grid of `w` × `h` pixels that `f` gives. -/
def Grid.build (w h : Nat) (f : Nat → Nat → Bool) : Grid :=
  (List.range h).map fun y => (List.range w).map fun x => f x y

/-- The grid has `h` rows of `w` pixels. -/
def Grid.shaped (w h : Nat) (g : Grid) : Bool := g.length == h && g.all (fun row => row.length == w)

/-- PIX[y][x]. -/
def State.pixel (s : State) (x y : Nat) : Bool := s.pix.get x y

/-- DispClear() (R186). -/
def State.dispClear (s : State) : State := { s with pix := Grid.blank s.width s.height }

/-- The toggle of DispFlip(x, y) (R187). -/
def Grid.flip (g : Grid) (x y : Nat) : Grid := g.modify y fun row => row.modify x fun b => !b

/-- DispSetResolution(s) (R188): the grid is lost whether or not the resolution changes. -/
def State.dispSetResolution (s : State) (r : Resolution) : State := { s with res := r }.dispClear

/-- DispScrollDown(k) (R189). -/
def State.dispScrollDown (s : State) (k : Nat) : State :=
  { s with pix := Grid.build s.width s.height fun x y => if y ≥ k then s.pixel x (y - k) else false }

/-- DispScrollRight() (R190). -/
def State.dispScrollRight (s : State) : State :=
  { s with pix := Grid.build s.width s.height fun x y => if x ≥ 4 then s.pixel (x - 4) y else false }

/-- DispScrollLeft() (R191). -/
def State.dispScrollLeft (s : State) : State :=
  { s with pix := Grid.build s.width s.height fun x y => if x + 4 < s.width then s.pixel (x + 4) y else false }

/-- REDRAW <- 1. -/
def State.setRedraw (s : State) : State := { s with redraw := true }

/-! ### Sprites (R194, R195) -/

/-- The eight pixels of a sprite byte, bit 7 leftmost (20_memory.md R55). -/
def byteBits (b : Byte) : List Bool := (List.range 8).map fun c => b.getLsbD (7 - c)

/-- The 16-pixel rows of a large sprite: the byte at the lower address holds the left 8 pixels (R55). -/
def largeRows : List Byte → List (List Bool)
  | left :: right :: rest => (byteBits left ++ byteBits right) :: largeRows rest
  | _ => []

/-- One sprite row, drawn from column `px` of grid row `py`: a set bit inside the right edge flips its pixel, and the
hit flag is set where the pixel was 1. -/
def drawRow (w py : Nat) : Nat → List Bool → Grid × Bool → Grid × Bool
  | _, [], c => c
  | px, bit :: bits, (g, hit) =>
    drawRow w py (px + 1) bits (if bit && decide (px < w) then (g.flip px py, hit || g.get px py) else (g, hit))

/-- The rows of a sprite, drawn from row `py` down; rows past the bottom edge are clipped. -/
def drawRows (w h x0 : Nat) : Nat → List (List Bool) → Grid × Bool → Grid × Bool
  | _, [], c => c
  | py, row :: rows, c => drawRows w h x0 (py + 1) rows (if py < h then drawRow w py x0 row c else c)

/-- The start column: V[x] & (W - 1). -/
def State.drawX (s : State) (x : RegIdx) : Nat := (s.getV x).toNat &&& (s.width - 1)

/-- The start row: V[y] & (H - 1). -/
def State.drawY (s : State) (y : RegIdx) : Nat := (s.getV y).toNat &&& (s.height - 1)

/-- The draw itself, after every sprite byte is read: the pixels, then VF, then REDRAW. -/
def State.drawSprite (s : State) (x y : RegIdx) (rows : List (List Bool)) : State :=
  let c := drawRows s.width s.height (s.drawX x) (s.drawY y) rows (s.pix, false)
  ({ s with pix := c.1 }.setV vf (collisionFlag c.2)).setRedraw

end Sys2Proof.Machine
end

