-- ==== Sys2Proof/Machine/Display.lean ====
section
/-! DEFINITION. The drawing instructions (45_display.md R193 to R196). -/

namespace Sys2Proof.Machine

/-- CLS, R193. -/
def execCls (s : State) : Host.Outcome State Fault Refusal := .next s.dispClear.setRedraw

/-- DRW Vx, Vy, n, R194: n rows of one byte each, all read before any pixel changes. -/
def execDrw (x y : RegIdx) (n : Nibble) (s : State) : Host.Outcome State Fault Refusal :=
  ((s.readBytes s.instrAddr s.i.toNat n.toNat).bind fun bytes =>
    .go (s.drawSprite x y (bytes.map byteBits))).finish

/-- DRW Vx, Vy, 0, R195: 16 rows of two bytes each, in both resolutions. -/
def execDrwLarge (x y : RegIdx) (s : State) : Host.Outcome State Fault Refusal :=
  ((s.readBytes s.instrAddr s.i.toNat 32).bind fun bytes => .go (s.drawSprite x y (largeRows bytes))).finish

end Sys2Proof.Machine
end

