-- ==== Sys2Proof/Machine/Extended.lean ====
section
/-! DEFINITION. Extended display and control instructions (49_extended.md R250 to R257). -/

namespace Sys2Proof.Machine

/-- SCD n, R250. -/
def execScd (n : Nibble) (s : State) : Host.Outcome State Fault Refusal :=
  .next (s.dispScrollDown n.toNat).setRedraw

/-- SCR, R251. -/
def execScr (s : State) : Host.Outcome State Fault Refusal := .next s.dispScrollRight.setRedraw

/-- SCL, R252. -/
def execScl (s : State) : Host.Outcome State Fault Refusal := .next s.dispScrollLeft.setRedraw

/-- EXIT, R253: the core loops on this instruction; no halted state exists. -/
def execExit (s : State) : Host.Outcome State Fault Refusal := .next s.rewind

/-- LOW, R254. -/
def execLow (s : State) : Host.Outcome State Fault Refusal := .next (s.dispSetResolution .low).setRedraw

/-- HIGH, R255. -/
def execHigh (s : State) : Host.Outcome State Fault Refusal := .next (s.dispSetResolution .high).setRedraw

/-- The RPL bank with V[0..x] copied in. -/
def State.savedFlags (s : State) (x : RegIdx) : Vector Byte 8 :=
  Vector.ofFn fun j => if j.val ≤ x.val then s.getV (j.castLE (by decide)) else s.rpl[j]

/-- The register file with RPL[0..x] copied in. -/
def State.restoredFlags (s : State) (x : RegIdx) : Vector Byte 16 :=
  Vector.ofFn fun j => if h : j.val < 8 then (if j.val ≤ x.val then s.rpl[j.val] else s.getV j) else s.getV j

/-- LD R, Vx, R256: x > 7 faults before any copy. -/
def execSaveFlags (x : RegIdx) (s : State) : Host.Outcome State Fault Refusal :=
  if x.val > 7 then .next (s.raise (.flagIndex s.instrAddr x)) else .next { s with rpl := s.savedFlags x }

/-- LD Vx, R, R257: x > 7 faults before any copy. -/
def execRestoreFlags (x : RegIdx) (s : State) : Host.Outcome State Fault Refusal :=
  if x.val > 7 then .next (s.raise (.flagIndex s.instrAddr x)) else .next { s with v := s.restoredFlags x }

end Sys2Proof.Machine
end

