-- ==== Sys2Proof/Machine/Index.lean ====
section
/-! DEFINITION. Index register instructions (43_index.md R170 to R173). -/

namespace Sys2Proof.Machine

/-- LD I, nnn, R170. -/
def execLdI (nnn : Addr12) (s : State) : Host.Outcome State Fault Refusal := .next (s.setI (addrOf nnn))

/-- ADD I, Vx, R171: the sum wraps at 16 bits; the flag, where the quirk asks for it, is written after I. -/
def execAddI (x : RegIdx) (s : State) : Host.Outcome State Fault Refusal :=
  .next ((s.setI (s.i + (s.getV x).setWidth 16)).indexFlag (indexOverflowFlag s.cfg.iovfLimit s.i (s.getV x)))

/-- LD F, Vx, R172. -/
def execLdF (x : RegIdx) (s : State) : Host.Outcome State Fault Refusal :=
  .next (s.setI (s.smallGlyph (lowNibble (s.getV x))))

/-- LD HF, Vx, R173. -/
def execLdHf (x : RegIdx) (s : State) : Host.Outcome State Fault Refusal :=
  .next (s.setI (s.largeGlyph (lowNibble (s.getV x))))

end Sys2Proof.Machine
end

