-- ==== Sys2Proof/Machine/Keys.lean ====
section
/-! DEFINITION. The keyboard engine and the key instructions (46_keys.md R210 to R217). -/

namespace Sys2Proof.Machine

/-- KeyDown(k), R210: ignored while a release is pending. -/
def State.keyDown (s : State) (k : Key) : State :=
  match s.pending with
  | none => { s with held := s.held.set k true }
  | some _ => s

/-- KeyUp(k), R211: the first release of a held key wins until it is consumed. -/
def State.keyUp (s : State) (k : Key) : State :=
  if s.held[k] then
    { s with
      held := s.held.set k false
      pending := match s.pending with
        | none => some k
        | some j => some j }
  else s

/-- KeyboardReset(), R214. -/
def State.keyboardReset (s : State) : State := { s with held := Vector.replicate 16 false, pending := none }

/-- SKP Vx, R215. -/
def execSkp (x : RegIdx) (s : State) : Host.Outcome State Fault Refusal :=
  .next (s.afterSample.skipIf (s.isPressed (lowNibble (s.getV x))))

/-- SKNP Vx, R216. -/
def execSknp (x : RegIdx) (s : State) : Host.Outcome State Fault Refusal :=
  .next (s.afterSample.skipIf (!s.isPressed (lowNibble (s.getV x))))

/-- LD Vx, K, R217: wasPressed() (R212) yields PENDING and clears it; with no key the instruction repeats itself. -/
def execLdVxK (x : RegIdx) (s : State) : Host.Outcome State Fault Refusal :=
  match s.pending with
  | none => .next { s with runState := .waiting }.rewind
  | some k => .next ({ s with pending := none, runState := .running }.setV x (BitVec.ofNat 8 k.val))

end Sys2Proof.Machine
end

