-- ==== Sys2Proof/Machine/Random.lean ====
section
/-! DEFINITION. The random instruction (44_random.md R180). -/

namespace Sys2Proof.Machine

/-- RND Vx, nn, R180: the drawn byte is a free input of the step. -/
def execRnd (x : RegIdx) (nn : Byte) (s : State) : Host.Outcome State Fault Refusal :=
  .next (s.afterDraw.setV x (s.randByte &&& nn))

end Sys2Proof.Machine
end

