-- ==== Sys2Proof/Machine/Timers.lean ====
section
/-! DEFINITION. The timer instructions (47_timers.md R230 to R232). The countdown itself is TICK, in HostOps.lean. -/

namespace Sys2Proof.Machine

/-- LD Vx, DT, R230. -/
def execLdVxDt (x : RegIdx) (s : State) : Host.Outcome State Fault Refusal := .next (s.setV x s.dt)

/-- LD DT, Vx, R231. -/
def execLdDtVx (x : RegIdx) (s : State) : Host.Outcome State Fault Refusal := .next { s with dt := s.getV x }

/-- LD ST, Vx, R232. -/
def execLdStVx (x : RegIdx) (s : State) : Host.Outcome State Fault Refusal := .next { s with st := s.getV x }

end Sys2Proof.Machine
end

