-- ==== Sys2Proof/Machine/HostOps.lean ====
section
/-! DEFINITION. The host operations that are no instructions: TICK, RESET, LOAD, configuration writes and the status
output (60_exceptions.md sections 3 to 5, 70_reset_and_hazards.md R301, 20_memory.md R62). -/

namespace Sys2Proof.Machine

/-- Something is sent to the host. -/
def State.emit (s : State) (o : Output) : State := { s with out := s.out ++ [o] }

/-- One timer at a TICK: down by 1 while nonzero (60_exceptions.md R280). -/
def timerDown (t : Byte) : Byte := if t.toNat > 0 then t - 1#8 else t

/-- DispFlush() (45_display.md R192): a snapshot, no state changed. -/
def State.dispFlush (s : State) : State := s.emit (.flush s.width s.height s.pix)

/-- TICK, R280. -/
def State.tick (s : State) : State :=
  let t := { s with dt := timerDown s.dt, st := timerDown s.st }
  if t.redraw then { t.dispFlush with redraw := false } else t

/-- RESET, the interpreter reset (70_reset_and_hazards.md R301). -/
def State.interpreterReset (s : State) : State :=
  { s with
    v := Vector.replicate 16 0x00#8
    i := 0x0000#16
    ir := 0x0000#16
    pc := 0x0200#16
    dt := 0x00#8
    st := 0x00#8
    rpl := Vector.replicate 8 0x00#8
    stack := []
    runState := .running
    redraw := false }

/-- Memory after an accepted LOAD (20_memory.md R62): every cell 0x00, then both fonts, then the image. -/
def loadedMemory (c : Config) (image : List Byte) : Memory :=
  Memory.writeAll (Memory.writeAll (Memory.writeAll [] c.fontBase c.fontSmall) (c.fontBase + 80) c.fontLarge)
    Config.progBase image

/-- LOAD: rejected where the image is missing, unreadable or longer than MEM_SIZE - 0x200 bytes (R62, R278). -/
def State.load (s : State) (image : Option (List Byte)) : State :=
  match image with
  | none => s.emit (.report false)
  | some bytes =>
    if bytes.length ≤ s.cfg.memSize - Config.progBase then
      { s with mem := loadedMemory s.cfg bytes }.emit (.report true)
    else s.emit (.report false)

/-- QCR with one field set. -/
def setQuirk (q : Qcr) (f : Quirk) (b : Bool) : Qcr :=
  match f with
  | .vfReset => { q with vfReset := b }
  | .memory => { q with memory := b }
  | .shifting => { q with shifting := b }
  | .jumping => { q with jumping := b }
  | .ioverflow => { q with ioverflow := b }

/-- The value of a name in a table of names. -/
def lookupName {α : Type} (name : String) : List (String × α) → Option α
  | [] => none
  | (n, a) :: rest => if n = name then some a else lookupName name rest

/-- The value of a configuration write: `true` or `false`, nothing else (60_exceptions.md R289; log 13). -/
def boolValue (value : String) : Option Bool :=
  if value = "true" then some true else if value = "false" then some false else none

/-- CONFIG_WRITE(name, value), R289; rejected where R277 says so. -/
def State.configWrite (s : State) (name value : String) : State :=
  match lookupName name s.cfg.quirkNames, boolValue value with
  | some f, some b => { s with qcr := setQuirk s.qcr f b }.emit (.report true)
  | _, _ => s.emit (.report false)

/-- PRESET(name), R289; rejected where R277 says so. -/
def State.preset (s : State) (name : String) : State :=
  match lookupName name s.cfg.presets with
  | some q => { s with qcr := q }.emit (.report true)
  | none => s.emit (.report false)

/-- QCR as its five bits, bit 0 = vf_reset to bit 4 = ioverflow (10_state.md R29). -/
def qcrBits (q : Qcr) : BitVec 5 :=
  BitVec.ofNat 5 (q.vfReset.toNat + 2 * q.memory.toNat + 4 * q.shifting.toNat + 8 * q.jumping.toNat +
    16 * q.ioverflow.toNat)

/-- The read-only status output (60_exceptions.md R285, R287). -/
structure Status where
  pc : Word
  i : Word
  ir : Word
  v : Vector Byte 16
  dt : Byte
  st : Byte
  runState : RunState
  w : Nat
  h : Nat
  fault : Option FatalFault
  deriving DecidableEq, Repr

/-- What the status output shows of a state. -/
def State.status (s : State) : Status where
  pc := s.pc
  i := s.i
  ir := s.ir
  v := s.v
  dt := s.dt
  st := s.st
  runState := s.runState
  w := s.width
  h := s.height
  fault := s.fault

end Sys2Proof.Machine
end

