-- ==== Sys2Proof/Machine/Cycle.lean ====
section
/-! DEFINITION. The cycle and the other host operations of a core without a fault (40_cycle.md R101 to R104,
60_exceptions.md R285), and which operation comes next. -/

namespace Sys2Proof.Machine

/-- CYCLE with FAULT = none (R102): fetch, decode, execute. A fault of the fetch ends it. -/
def cycle (s : State) : Host.Outcome State Fault Refusal :=
  match s.fetch with
  | .stop t => .next t
  | .go t =>
    match decode t.ir with
    | some i => exec i t
    | none => .next t.undefinedOpcode

/-- One host operation with FAULT = none (60_exceptions.md R285). -/
def hostStep (op : HostOp) (s : State) : Host.Outcome State Fault Refusal :=
  match op with
  | .cycle => cycle s
  | .tick => .next s.tick
  | .reset => .next s.interpreterReset
  | .load image => .next (s.load image)
  | .keyDown k => .next (s.keyDown k)
  | .keyUp k => .next (s.keyUp k)
  | .keyboardReset => .next s.keyboardReset
  | .configWrite name value => .next (s.configWrite name value)
  | .preset name => .next (s.preset name)

/-- The operation the host issues next: the head of the schedule, CYCLE when none is left (log 3). -/
def State.nextOp (s : State) : HostOp := s.sched.headD .cycle

/-- The state in which that operation starts: it is off the schedule and has sent nothing yet (log 6). -/
def State.begin (s : State) : State := { s with sched := s.sched.tail, out := [] }

end Sys2Proof.Machine
end

