-- ==== Sys2Proof/Machine/Step.lean ====
section
/-! DEFINITION. One step of the machine: the next host operation, atomic (40_cycle.md R100 to R107, 20_memory.md R57). -/

namespace Sys2Proof.Machine

/-- One step. While FAULT is set no operation has a step (R100, R272). -/
def step (s : State) : Host.Outcome State Fault Refusal :=
  match s.fault with
  | some f => .fault (.stopped f)
  | none => hostStep s.nextOp s.begin

/-- `s` with a table row's instruction where `step` fetches next, that CYCLE being the next operation (log 10). -/
def State.withFetchWord (s : State) (nbits w : Nat) : State := s.placeWord (tableWord nbits w)

end Sys2Proof.Machine
end

