-- ==== Sys2Proof/Safety.lean ====
section
/-! DEFINITION. The terms claims use: the invariant of the core, a run without a fatal fault, and the host's boot order. -/

namespace Sys2Proof.Machine

/-- The states the core can be in: legal parameters (00_scope.md R5 to R9), memory in canonical form and inside the
address space (20_memory.md R50), at most STACK_DEPTH return addresses (10_state.md R28), and a grid of exactly
H rows of W pixels (R33). -/
abbrev State.Inv (s : State) : Prop :=
  s.cfg.Legal ∧ Memory.wf s.mem = true ∧ Memory.within s.cfg.memSize s.mem = true ∧
    s.stack.length ≤ s.cfg.stackDepth ∧ Grid.shaped s.width s.height s.pix = true

/-- No fatal fault is recorded (10_state.md R32). -/
abbrev State.Running (s : State) : Prop := s.fault = none

/-- `k` steps from `s` all have a step and none records a fatal fault. -/
def SafeRun : Nat → State → Prop
  | 0, s => s.Running
  | k + 1, s => s.Running ∧ ∃ t, step s = .next t ∧ SafeRun k t

/-- The pixel of a sprite that falls on column `x` and row `y` of the grid when the sprite's first pixel is drawn at
(x0, y0); 0 outside the sprite (45_display.md R194, R195). -/
def spriteBit (rows : List (List Bool)) (x0 y0 x y : Nat) : Bool :=
  decide (x0 ≤ x) && decide (y0 ≤ y) && (rows.getD (y - y0) []).getD (x - x0) false

/-- An accepted LOAD with the parameters `c` (20_memory.md R62). -/
def loadAccepted (c : Config) : HostOp → Bool
  | .load (some bytes) => decide (bytes.length ≤ c.memSize - Config.progBase)
  | _ => false

/-- How far the host is in booting the core (70_reset_and_hazards.md R302). -/
inductive BootStage where
  | created | loaded | ready
  deriving DecidableEq, Repr

/-- The host's boot order from a stage: an accepted LOAD, then RESET, before the first CYCLE; a rejected LOAD forbids
CYCLE again until both are done (R302, 60_exceptions.md R278). The core does not enforce it (log 15). -/
def bootOrder (c : Config) : BootStage → List HostOp → Bool
  | _, [] => true
  | stage, op :: rest =>
    match op with
    | .cycle => decide (stage = .ready) && bootOrder c stage rest
    | .load image =>
      bootOrder c (if loadAccepted c (.load image) then .loaded else .created) rest
    | .reset => bootOrder c (if stage = .created then .created else .ready) rest
    | _ => bootOrder c stage rest

end Sys2Proof.Machine
end

