-- ==== Sys2Proof/Certificates/Slice0/Obligations.lean ====
section
/-! DEFINITION. The statements for the provers. A statement about an instruction gives the words that decode to it, its
next state in terms of reads (`getV`, `read`, `pixel`), and its frame as `t = { s with … }`: every field not named there
is unchanged. Clauses that rest on a decision of 92_eei_decisions.md name it. -/

open Sys2Proof Sys2Proof.Machine

/-! ### Terms used below -/

/-- The bits of a word that take part in decoding an instruction or are one of its operands (30_encoding.md R73). -/
def Sys2Proof.careBits : Instr → Word
  | .cls | .ret | .scd _ | .scr | .scl | .exit | .low | .high => 0xF0FF#16
  | .seReg _ _ | .sneReg _ _ => 0xFFF0#16
  | _ => 0xFFFF#16

/-- The registers an instruction may write: its destination, VF where it writes a flag (10_state.md R21), the loaded ones. -/
def Sys2Proof.Machine.mayWriteV (q : Qcr) : Instr → RegIdx → Bool
  | .ldImm x _, r | .addImm x _, r | .ldReg x _, r | .rnd x _, r | .ldVxDt x, r | .ldVxK x, r => r == x
  | .orReg x _, r | .andReg x _, r | .xorReg x _, r => r == x || (q.vfReset && r == 15)
  | .addReg x _, r | .subReg x _, r | .shr x _, r | .subn x _, r | .shl x _, r => r == x || r == 15
  | .addI _, r => q.ioverflow && r == 15
  | .drw _ _ _, r | .drwLarge _ _, r => r == 15
  | .loadRegs x, r | .restoreFlags x, r => decide (r ≤ x)
  | _, _ => false

/-- The instructions that change PC after the fetch (10_state.md R22). -/
def Sys2Proof.Machine.changesPc : Instr → Bool
  | .ret | .exit | .jp _ | .call _ | .jpV0 _ | .seImm _ _ | .sneImm _ _ | .seReg _ _ | .sneReg _ _ => true
  | .skp _ | .sknp _ | .ldVxK _ => true
  | _ => false

/-- The display instructions (10_state.md R31). -/
def Sys2Proof.Machine.touchesDisplay : Instr → Bool
  | .cls | .scd _ | .scr | .scl | .low | .high | .drw _ _ _ | .drwLarge _ _ => true
  | _ => false

/-- The fault records an instruction may leave in the execute step (60_exceptions.md section 1, the table's columns
"raised by" and "info recorded"): its own address is PC - 2 there. -/
def Sys2Proof.Machine.mayRaise (s : State) : Instr → FatalFault → Bool
  | .drw _ _ _, .memBounds pc a .read | .drwLarge _ _, .memBounds pc a .read | .loadRegs _, .memBounds pc a .read =>
    pc == s.pc - 2#16 && decide (s.cfg.memSize ≤ a)
  | .ldB _, .memBounds pc a .write | .storeRegs _, .memBounds pc a .write =>
    pc == s.pc - 2#16 && decide (s.cfg.memSize ≤ a)
  | .call _, .stackOverflow pc => pc == s.pc - 2#16 && decide (s.cfg.stackDepth ≤ s.stack.length)
  | .ret, .stackUnderflow pc => pc == s.pc - 2#16 && s.stack.isEmpty
  | .saveFlags x, .flagIndex pc y | .restoreFlags x, .flagIndex pc y =>
    pc == s.pc - 2#16 && y == x && decide (8 ≤ x.val)
  | _, _ => false

/-- The pixel a draw's sprite has at grid column `px` and row `py` (45_display.md R194, R195): n rows of one byte at I,
or 16 rows of two bytes, bit 7 leftmost, from the masked start (V[x] & (W - 1), V[y] & (H - 1)). -/
def Sys2Proof.Machine.spritePixel (i : Instr) (s : State) (px py : Nat) : Bool :=
  match i with
  | .drw x y n =>
    let x0 := (s.getV x).toNat &&& (s.width - 1)
    let y0 := (s.getV y).toNat &&& (s.height - 1)
    decide (x0 ≤ px ∧ px < x0 + 8 ∧ y0 ≤ py ∧ py < y0 + n.toNat) &&
      (s.mem.read (s.i.toNat + (py - y0))).getLsbD (7 - (px - x0))
  | .drwLarge x y =>
    let x0 := (s.getV x).toNat &&& (s.width - 1)
    let y0 := (s.getV y).toNat &&& (s.height - 1)
    decide (x0 ≤ px ∧ px < x0 + 16 ∧ y0 ≤ py ∧ py < y0 + 16) &&
      (s.mem.read (s.i.toNat + 2 * (py - y0) + (px - x0) / 8)).getLsbD (7 - (px - x0) % 8)
  | _ => false

/-- The byte at address `a` after FX55 or FX33 has stored (48_memory_block_bcd.md R240, R242). -/
def Sys2Proof.Machine.byteAfterStore (i : Instr) (s : State) (a : Nat) : Byte :=
  match i with
  | .storeRegs x =>
    if s.i.toNat ≤ a ∧ a ≤ s.i.toNat + x.val then s.getV (Fin.ofNat 16 (a - s.i.toNat)) else s.mem.read a
  | .ldB x =>
    if a = s.i.toNat then BitVec.ofNat 8 ((s.getV x).toNat / 100)
    else if a = s.i.toNat + 1 then BitVec.ofNat 8 ((s.getV x).toNat / 10 % 10)
    else if a = s.i.toNat + 2 then BitVec.ofNat 8 ((s.getV x).toNat % 10)
    else s.mem.read a
  | _ => s.mem.read a

/-! ### Encoding -/

/-- 30_encoding.md section 4, R70: the word and the two bytes of every well-formed instruction decode to it, with every
operand at every value. -/
def Obligations.DecodeOfEncodeIsTheInstruction : Prop :=
  ∀ i : Instr, i.wellFormed = true →
    decode (encode i) = some i ∧ decodeBytes (wordBytes (encode i)) = .ok (i, [])

/-- Every word that decodes gives a well-formed instruction whose encoding is that word with the ignored bits at 0
(R73, decision D12; writing them as 0 is the model's choice, log 11). -/
def Obligations.EncodeOfDecodeIsTheWordLessIgnoredBits : Prop :=
  ∀ (w : Word) (i : Instr), decode w = some i → i.wellFormed = true ∧ encode i = w &&& careBits i

/-- The decoder follows spec/opcode_table.json: a word that matches a row decodes to an instruction of that row (for the
row of DRW Vx, Vy, n, a word with n ≠ 0). -/
def Obligations.MatchingWordsDecodeToTheirRow : Prop :=
  ∀ (i : Instr) (w : Word), w &&& (tableRow i).1 = (tableRow i).2 →
    (tableRow i = (0xF000#16, 0xD000#16) → w &&& 0x000F#16 ≠ 0#16) →
    ∃ j, decode w = some j ∧ tableRow j = tableRow i

/-- 30_encoding.md section 3: the undefined words are exactly the listed ones (SYS nnn among them, decision D13). -/
def Obligations.UndefinedWordsAreTheListedOnes : Prop :=
  ∀ w : Word, decode w = none ↔
    (fieldC w = 0x0#4 ∧ fieldNN w ∉ [0xE0#8, 0xEE#8, 0xFB#8, 0xFC#8, 0xFD#8, 0xFE#8, 0xFF#8] ∧ fieldY w ≠ 0xC#4) ∨
    (fieldC w = 0x8#4 ∧ fieldN w ∈ [0x8#4, 0x9#4, 0xA#4, 0xB#4, 0xC#4, 0xD#4, 0xF#4]) ∨
    (fieldC w = 0xE#4 ∧ fieldNN w ∉ [0x9E#8, 0xA1#8]) ∨
    (fieldC w = 0xF#4 ∧ fieldNN w ∉ [0x07#8, 0x0A#8, 0x15#8, 0x18#8, 0x1E#8, 0x29#8, 0x30#8, 0x33#8, 0x55#8, 0x65#8,
      0x75#8, 0x85#8])

/-- The words the spec's examples write out decode to the instructions they stand for. -/
def Obligations.SpecExampleWordsDecode : Prop :=
  decode 0x00E0#16 = some .cls ∧ decode 0x00EE#16 = some .ret ∧ decode 0x00C3#16 = some (.scd 3#4) ∧
  decode 0x1234#16 = some (.jp 0x234#12) ∧ decode 0x3342#16 = some (.seImm 3 0x42#8) ∧
  decode 0x6A3C#16 = some (.ldImm 10 0x3C#8) ∧ decode 0x8124#16 = some (.addReg 1 2) ∧
  decode 0x812E#16 = some (.shl 1 2) ∧ decode 0xA300#16 = some (.ldI 0x300#12) ∧
  decode 0xB234#16 = some (.jpV0 0x234#12) ∧ decode 0xC00F#16 = some (.rnd 0 0x0F#8) ∧
  decode 0xD015#16 = some (.drw 0 1 5#4) ∧ decode 0xD010#16 = some (.drwLarge 0 1) ∧
  decode 0xE49E#16 = some (.skp 4) ∧ decode 0xF30A#16 = some (.ldVxK 3) ∧ decode 0xF155#16 = some (.storeRegs 1) ∧
  decode 0x5125#16 = some (.seReg 1 2) ∧ decode 0x0000#16 = none ∧ decode 0xF000#16 = none

/-! ### The cycle -/

/-- A STEP RUNS THE DECODED INSTRUCTION (40_cycle.md section on CYCLE): where CYCLE is the next operation and the two
bytes at PC exist and decode to `i`, the step is exec of `i` in the state after the fetch; the operation is off the
schedule and the output is empty (logs 3 and 6: the model's own fields). -/
def Obligations.StepRunsTheDecodedInstruction : Prop :=
  ∀ (s : State) (i : Instr), s.fault = none → (s.sched = [] ∨ s.sched.head? = some .cycle) →
    s.pc.toNat + 1 < s.cfg.memSize →
    decode (joinBytes (s.mem.read s.pc.toNat) (s.mem.read (s.pc.toNat + 1))) = some i →
    step s = exec i { s with
      sched := s.sched.tail
      out := []
      ir := joinBytes (s.mem.read s.pc.toNat) (s.mem.read (s.pc.toNat + 1))
      pc := s.pc + 2#16 }

/-- R101: the fetch reads two bytes, big-endian, into IR and advances PC by 2; where either byte does not exist the
CYCLE ends in a fault of kind fetch with IR, PC and everything else as before. -/
def Obligations.FetchIsBigEndianAndPrecise : Prop :=
  ∀ s : State,
    (s.pc.toNat + 1 < s.cfg.memSize → ∃ w : Word,
      w.toNat = 256 * (s.mem.read s.pc.toNat).toNat + (s.mem.read (s.pc.toNat + 1)).toNat ∧
      s.fetch = .go { s with ir := w, pc := s.pc + 2#16 }) ∧
    (s.cfg.memSize ≤ s.pc.toNat + 1 → s.fault = none → (s.sched = [] ∨ s.sched.head? = some .cycle) →
      step s = .next { s with
        sched := s.sched.tail
        out := []
        fault := some (.memBounds s.pc (if s.pc.toNat < s.cfg.memSize then s.pc.toNat + 1 else s.pc.toNat) .fetch) })

/-- An undefined word only emits its event with address and word (R104; the event's contents are decision D24) and
leaves PC past it and IR holding it. -/
def Obligations.UndefinedOpcodeOnlyLogs : Prop :=
  ∀ s : State, s.fault = none → (s.sched = [] ∨ s.sched.head? = some .cycle) → s.pc.toNat + 1 < s.cfg.memSize →
    decode (joinBytes (s.mem.read s.pc.toNat) (s.mem.read (s.pc.toNat + 1))) = none →
    step s = .next { s with
      sched := s.sched.tail
      out := [.undefinedOpcode s.pc (joinBytes (s.mem.read s.pc.toNat) (s.mem.read (s.pc.toNat + 1)))]
      ir := joinBytes (s.mem.read s.pc.toNat) (s.mem.read (s.pc.toNat + 1))
      pc := s.pc + 2#16 }

/-- While FAULT is set no host operation has a step, whatever the schedule says, and the record stays (decision D23). -/
def Obligations.FaultedCoreHasNoStep : Prop :=
  ∀ (s : State) (f : FatalFault) (ops : List HostOp), s.fault = some f → step { s with sched := ops } = .fault (.stopped f)

/-- Every operation of a core without a fault has a step, none is refused, and one that reports a rejection has changed
nothing (00_scope.md section 4 on outcomes). -/
def Obligations.EveryOperationHasAStep : Prop :=
  ∀ s : State, (∀ r, step s ≠ .refused r) ∧
    (s.fault = none → ∃ t, step s = .next t ∧ t.sched = s.sched.tail ∧
      (Output.report false ∈ t.out → t = { s with sched := s.sched.tail, out := [.report false] }))

/-! ### Invariants -/

/-- AN INVARIANT THAT EVERY STEP KEEPS: legal parameters, memory in canonical form inside [0, MEM_SIZE), at most
STACK_DEPTH return addresses, a grid of H rows of W pixels, whatever operation runs and whether or not it faults. -/
def Obligations.StepKeepsTheInvariant : Prop :=
  ∀ s t : State, s.Inv → step s = .next t → t.Inv

/-- The core meets the invariant when it is created with any legal parameters, and right after reset. -/
def Obligations.CreatedCoreMeetsTheInvariant : Prop :=
  (∀ c : Config, c.Legal → (State.powerOn c).Inv) ∧ State.reset.Inv

/-! ### Whole-machine frames -/

/-- Which instruction may write each element of the state but V and PC (10_state.md, "written only by" clauses), for which
OtherRegistersAreUnchanged and PcChangesOnlyByControlFlow say it: no instruction writes the parameters, QCR, HELD or IR;
each other element has its own writers, and FAULT keeps its value or takes a record that 60_exceptions.md section 1 lets
this instruction raise (the faults of RET, CALL and the flag bank are decisions D3 and D17). The model's own fields: no
instruction touches the schedule or the output; only RND draws and only SKP and SKNP sample. -/
def Obligations.ElementsBesideVAndPcHaveTheirOwnWriters : Prop :=
  ∀ (i : Instr) (s t : State), exec i s = .next t →
    t.cfg = s.cfg ∧ t.qcr = s.qcr ∧ t.held = s.held ∧ t.ir = s.ir ∧ t.sched = s.sched ∧ t.out = s.out ∧
    (t.fault = s.fault ∨ ∃ f, t.fault = some f ∧ mayRaise s i f = true) ∧
    ((∀ x, i ≠ .ldVxK x) → t.pending = s.pending ∧ t.runState = s.runState) ∧
    ((∀ x, i ≠ .ldDtVx x) → t.dt = s.dt) ∧
    ((∀ x, i ≠ .ldStVx x) → t.st = s.st) ∧
    ((∀ x, i ≠ .saveFlags x) → t.rpl = s.rpl) ∧
    (i ≠ .ret → (∀ a, i ≠ .call a) → t.stack = s.stack) ∧
    (i ≠ .low → i ≠ .high → t.res = s.res) ∧
    (touchesDisplay i = false → t.pix = s.pix ∧ t.redraw = s.redraw) ∧
    ((∀ x, i ≠ .storeRegs x) → (∀ x, i ≠ .ldB x) → t.mem = s.mem) ∧
    ((∀ a, i ≠ .ldI a) → (∀ x, i ≠ .addI x) → (∀ x, i ≠ .ldF x) → (∀ x, i ≠ .ldHf x) →
      ((∀ x, i ≠ .storeRegs x) ∧ (∀ x, i ≠ .loadRegs x) ∨ s.qcr.memory = false) → t.i = s.i) ∧
    ((∀ x n, i ≠ .rnd x n) → t.randIn = s.randIn ∧ t.draws = s.draws) ∧
    ((∀ x, i ≠ .skp x) → (∀ x, i ≠ .sknp x) → t.keysIn = s.keysIn ∧ t.samples = s.samples)

/-- A register that is no destination of the instruction and no flag of it (10_state.md section 2) is unchanged. -/
def Obligations.OtherRegistersAreUnchanged : Prop :=
  ∀ (i : Instr) (s t : State) (r : RegIdx), exec i s = .next t → mayWriteV s.qcr i r = false → t.getV r = s.getV r

/-- PC changes in the execute step only by the instructions that say so, and not at all where a fault is taken. -/
def Obligations.PcChangesOnlyByControlFlow : Prop :=
  ∀ (i : Instr) (s t : State), exec i s = .next t →
    (changesPc i = false → t.pc = s.pc) ∧ (s.fault = none → t.fault ≠ none → t.pc = s.pc)

/-- No instruction's result depends on IR (10_state.md section 3). -/
def Obligations.NoResultDependsOnIr : Prop :=
  ∀ (i : Instr) (s : State) (w : Word), ∃ t, exec i s = .next t ∧ exec i { s with ir := w } = .next { t with ir := w }

/-! ### Memory -/

/-- R52: a write in range changes the one cell it names; one out of range writes nothing and faults. -/
def Obligations.MemoryWriteChangesOneCellOrFaults : Prop :=
  ∀ (s : State) (pc : Word) (a : Nat) (b : Byte), s.mem.wf = true →
    (s.cfg.memSize ≤ a → s.memWrite pc a b = .stop { s with fault := some (.memBounds pc a .write) }) ∧
    (a < s.cfg.memSize → ∃ t, s.memWrite pc a b = .go t ∧ t = { s with mem := t.mem } ∧
      ∀ c, t.mem.read c = if c = a then b else s.mem.read c)

/-- R305: what FX55 or FX33 stores is seen by the very next fetch, whichever of its bytes they are. -/
def Obligations.StoresAreSeenByTheNextFetch : Prop :=
  ∀ (x : RegIdx) (i : Instr) (s : State), s.mem.wf = true → s.pc.toNat + 1 < s.cfg.memSize →
    (i = .storeRegs x ∧ s.i.toNat + x.val < s.cfg.memSize ∨ i = .ldB x ∧ s.i.toNat + 2 < s.cfg.memSize) →
    ∃ t, exec i s = .next t ∧
      t.fetch = .go { t with
        ir := joinBytes (byteAfterStore i s s.pc.toNat) (byteAfterStore i s (s.pc.toNat + 1))
        pc := s.pc + 2#16 }

/-! ### Control flow -/

/-- R122: JP. -/
def Obligations.JumpSetsPc : Prop :=
  (∀ w : Word, fieldC w = 0x1#4 → decode w = some (.jp (fieldNNN w))) ∧
  ∀ (nnn : Addr12) (s : State), ∃ t, exec (.jp nnn) s = .next t ∧ t = { s with pc := t.pc } ∧ t.pc.toNat = nnn.toNat

/-- RET (41_control_flow.md; bits 11:8 ignored, decision D12): pops the entry pushed last into PC; on an empty stack FAULT records STACK_UNDERFLOW with
the instruction's address and nothing else changes (decision D3). -/
def Obligations.ReturnPopsOrUnderflows : Prop :=
  (∀ w : Word, fieldC w = 0x0#4 → fieldNN w = 0xEE#8 → decode w = some .ret) ∧
  ∀ s : State,
    (∀ a rest, s.stack = a :: rest → exec .ret s = .next { s with stack := rest, pc := a }) ∧
    (s.stack = [] → exec .ret s = .next { s with fault := some (.stackUnderflow (s.pc - 2#16)) })

/-- CALL (41_control_flow.md): pushes the post-fetch PC and jumps; on a full stack FAULT records STACK_OVERFLOW and
nothing else changes (decision D3). A RET right after comes back to the instruction after the call with the old stack. -/
def Obligations.CallPushesOrOverflows : Prop :=
  (∀ w : Word, fieldC w = 0x2#4 → decode w = some (.call (fieldNNN w))) ∧
  ∀ (nnn : Addr12) (s : State),
    (s.stack.length < s.cfg.stackDepth → ∃ t, exec (.call nnn) s = .next t ∧
      t = { s with stack := s.pc :: s.stack, pc := t.pc } ∧ t.pc.toNat = nnn.toNat ∧
      ∀ p w, exec .ret { t with pc := p, ir := w } = .next { s with ir := w }) ∧
    (s.cfg.stackDepth ≤ s.stack.length →
      exec (.call nnn) s = .next { s with fault := some (.stackOverflow (s.pc - 2#16)) })

/-- R124, R125: SE and SNE with an immediate; a taken skip adds 2 to the post-fetch PC. -/
def Obligations.ImmediateSkips : Prop :=
  (∀ w : Word, fieldC w = 0x3#4 → decode w = some (.seImm (regX w) (fieldNN w))) ∧
  (∀ w : Word, fieldC w = 0x4#4 → decode w = some (.sneImm (regX w) (fieldNN w))) ∧
  ∀ (x : RegIdx) (nn : Byte) (s : State),
    (∃ t, exec (.seImm x nn) s = .next t ∧ t = { s with pc := t.pc } ∧
      (s.getV x = nn → t.pc = s.pc + 2#16) ∧ (s.getV x ≠ nn → t.pc = s.pc)) ∧
    (∃ t, exec (.sneImm x nn) s = .next t ∧ t = { s with pc := t.pc } ∧
      (s.getV x ≠ nn → t.pc = s.pc + 2#16) ∧ (s.getV x = nn → t.pc = s.pc))

/-- SE and SNE with a register (41_control_flow.md); the low nibble of the word is ignored (decision D12). -/
def Obligations.RegisterSkips : Prop :=
  (∀ w : Word, fieldC w = 0x5#4 → decode w = some (.seReg (regX w) (regY w))) ∧
  (∀ w : Word, fieldC w = 0x9#4 → decode w = some (.sneReg (regX w) (regY w))) ∧
  ∀ (x y : RegIdx) (s : State),
    (∃ t, exec (.seReg x y) s = .next t ∧ t = { s with pc := t.pc } ∧
      (s.getV x = s.getV y → t.pc = s.pc + 2#16) ∧ (s.getV x ≠ s.getV y → t.pc = s.pc)) ∧
    (∃ t, exec (.sneReg x y) s = .next t ∧ t = { s with pc := t.pc } ∧
      (s.getV x ≠ s.getV y → t.pc = s.pc + 2#16) ∧ (s.getV x = s.getV y → t.pc = s.pc))

/-- JP V0, nnn (41_control_flow.md): the addend is V0, or V[nnn[11:8]] where quirk `jumping` is set; the sum is not
masked (decision D33). -/
def Obligations.OffsetJumpAddsTheQuirkRegister : Prop :=
  (∀ w : Word, fieldC w = 0xB#4 → decode w = some (.jpV0 (fieldNNN w))) ∧
  ∀ (nnn : Addr12) (s : State), ∃ t, exec (.jpV0 nnn) s = .next t ∧ t = { s with pc := t.pc } ∧
    (s.qcr.jumping = false → t.pc.toNat = nnn.toNat + (s.getV 0).toNat) ∧
    (s.qcr.jumping = true → ∀ r : RegIdx, r.val = nnn.toNat / 256 → t.pc.toNat = nnn.toNat + (s.getV r).toNat)

/-! ### Register moves and arithmetic -/

/-- R141, R142, R143: LD Vx, nn; ADD Vx, nn (wraps, no flag); LD Vx, Vy. -/
def Obligations.MovesAndAddImmediate : Prop :=
  (∀ w : Word, fieldC w = 0x6#4 → decode w = some (.ldImm (regX w) (fieldNN w))) ∧
  (∀ w : Word, fieldC w = 0x7#4 → decode w = some (.addImm (regX w) (fieldNN w))) ∧
  (∀ w : Word, fieldC w = 0x8#4 → fieldN w = 0x0#4 → decode w = some (.ldReg (regX w) (regY w))) ∧
  ∀ (x y : RegIdx) (nn : Byte) (s : State),
    (∃ t, exec (.ldImm x nn) s = .next t ∧ t = { s with v := t.v } ∧
      ∀ r, t.getV r = if r = x then nn else s.getV r) ∧
    (∃ t, exec (.addImm x nn) s = .next t ∧ t = { s with v := t.v } ∧
      ∀ r, (t.getV r).toNat = if r = x then ((s.getV x).toNat + nn.toNat) % 256 else (s.getV r).toNat) ∧
    (∃ t, exec (.ldReg x y) s = .next t ∧ t = { s with v := t.v } ∧
      ∀ r, t.getV r = if r = x then s.getV y else s.getV r)

/-- OR, AND, XOR (42_arith.md); where quirk `vf_reset` is set VF is 0 afterwards, even when it is the destination
(decision D9). -/
def Obligations.LogicOperations : Prop :=
  (∀ w : Word, fieldC w = 0x8#4 → fieldN w = 0x1#4 → decode w = some (.orReg (regX w) (regY w))) ∧
  (∀ w : Word, fieldC w = 0x8#4 → fieldN w = 0x2#4 → decode w = some (.andReg (regX w) (regY w))) ∧
  (∀ w : Word, fieldC w = 0x8#4 → fieldN w = 0x3#4 → decode w = some (.xorReg (regX w) (regY w))) ∧
  ∀ (x y : RegIdx) (s : State),
    (∃ t, exec (.orReg x y) s = .next t ∧ t = { s with v := t.v } ∧
      ∀ r, t.getV r = if s.qcr.vfReset = true ∧ r = 15 then 0x00#8
        else if r = x then s.getV x ||| s.getV y else s.getV r) ∧
    (∃ t, exec (.andReg x y) s = .next t ∧ t = { s with v := t.v } ∧
      ∀ r, t.getV r = if s.qcr.vfReset = true ∧ r = 15 then 0x00#8
        else if r = x then s.getV x &&& s.getV y else s.getV r) ∧
    (∃ t, exec (.xorReg x y) s = .next t ∧ t = { s with v := t.v } ∧
      ∀ r, t.getV r = if s.qcr.vfReset = true ∧ r = 15 then 0x00#8
        else if r = x then s.getV x ^^^ s.getV y else s.getV r)

/-- ADD, SUB and SUBN (42_arith.md); VF is the carry, or 1 where there is no borrow, and wins over the result when it is
the destination (decision D9). -/
def Obligations.AddAndSubtract : Prop :=
  (∀ w : Word, fieldC w = 0x8#4 → fieldN w = 0x4#4 → decode w = some (.addReg (regX w) (regY w))) ∧
  (∀ w : Word, fieldC w = 0x8#4 → fieldN w = 0x5#4 → decode w = some (.subReg (regX w) (regY w))) ∧
  (∀ w : Word, fieldC w = 0x8#4 → fieldN w = 0x7#4 → decode w = some (.subn (regX w) (regY w))) ∧
  ∀ (x y : RegIdx) (s : State) (a b : Nat), a = (s.getV x).toNat → b = (s.getV y).toNat →
    (∃ t, exec (.addReg x y) s = .next t ∧ t = { s with v := t.v } ∧
      ∀ r, (t.getV r).toNat = if r = 15 then (if a + b > 255 then 1 else 0)
        else if r = x then (a + b) % 256 else (s.getV r).toNat) ∧
    (∃ t, exec (.subReg x y) s = .next t ∧ t = { s with v := t.v } ∧
      ∀ r, (t.getV r).toNat = if r = 15 then (if a ≥ b then 1 else 0)
        else if r = x then (256 + a - b) % 256 else (s.getV r).toNat) ∧
    (∃ t, exec (.subn x y) s = .next t ∧ t = { s with v := t.v } ∧
      ∀ r, (t.getV r).toNat = if r = 15 then (if b ≥ a then 1 else 0)
        else if r = x then (256 + b - a) % 256 else (s.getV r).toNat)

/-- SHR and SHL (42_arith.md) by 1 of Vy, or of Vx where quirk `shifting` is set; VF is the bit shifted out, also when it
is the destination (decision D9). -/
def Obligations.Shifts : Prop :=
  (∀ w : Word, fieldC w = 0x8#4 → fieldN w = 0x6#4 → decode w = some (.shr (regX w) (regY w))) ∧
  (∀ w : Word, fieldC w = 0x8#4 → fieldN w = 0xE#4 → decode w = some (.shl (regX w) (regY w))) ∧
  ∀ (x y : RegIdx) (s : State) (a : Nat),
    a = (if s.qcr.shifting then (s.getV x).toNat else (s.getV y).toNat) →
    (∃ t, exec (.shr x y) s = .next t ∧ t = { s with v := t.v } ∧
      ∀ r, (t.getV r).toNat = if r = 15 then a % 2 else if r = x then a / 2 else (s.getV r).toNat) ∧
    (∃ t, exec (.shl x y) s = .next t ∧ t = { s with v := t.v } ∧
      ∀ r, (t.getV r).toNat = if r = 15 then a / 128 else if r = x then 2 * a % 256 else (s.getV r).toNat)

/-! ### Index register and random byte -/

/-- R170: LD I, nnn. -/
def Obligations.LoadIndex : Prop :=
  (∀ w : Word, fieldC w = 0xA#4 → decode w = some (.ldI (fieldNNN w))) ∧
  ∀ (nnn : Addr12) (s : State), ∃ t, exec (.ldI nnn) s = .next t ∧ t = { s with i := t.i } ∧ t.i.toNat = nnn.toNat

/-- ADD I, Vx (43_index.md): wraps at 16 bits (decision D10); VF is written, after I, only where quirk `ioverflow` is
set, by the threshold IOVF_LIMIT on the unwrapped sum (decision D8). -/
def Obligations.AddToIndex : Prop :=
  (∀ w : Word, fieldC w = 0xF#4 → fieldNN w = 0x1E#8 → decode w = some (.addI (regX w))) ∧
  ∀ (x : RegIdx) (s : State) (sum : Nat), sum = s.i.toNat + (s.getV x).toNat →
    ∃ t, exec (.addI x) s = .next t ∧ t = { s with i := t.i, v := t.v } ∧ t.i.toNat = sum % 65536 ∧
      ∀ r, (t.getV r).toNat = if s.qcr.ioverflow = true ∧ r = 15 then (if sum > s.cfg.iovfLimit then 1 else 0)
        else (s.getV r).toNat

/-- LD F, Vx and LD HF, Vx (43_index.md): I is the address of the glyph of the digit V[x][3:0] (decision D14). With legal
parameters and the memory an accepted LOAD leaves, the glyph's bytes stand there. -/
def Obligations.FontGlyphAddresses : Prop :=
  (∀ w : Word, fieldC w = 0xF#4 → fieldNN w = 0x29#8 → decode w = some (.ldF (regX w))) ∧
  (∀ w : Word, fieldC w = 0xF#4 → fieldNN w = 0x30#8 → decode w = some (.ldHf (regX w))) ∧
  ∀ (x : RegIdx) (s : State) (d : Nat), d = (s.getV x).toNat % 16 →
    (∃ t, exec (.ldF x) s = .next t ∧ t = { s with i := t.i } ∧
      t.i.toNat = (s.cfg.fontBase + 5 * d) % 65536 ∧
      ∀ image k, s.cfg.Legal → s.mem = loadedMemory s.cfg image → k < 5 →
        t.mem.read (t.i.toNat + k) = s.cfg.fontSmall.getD (5 * d + k) 0x00#8) ∧
    (∃ t, exec (.ldHf x) s = .next t ∧ t = { s with i := t.i } ∧
      t.i.toNat = (s.cfg.fontBase + 80 + 10 * d) % 65536 ∧
      ∀ image k, s.cfg.Legal → s.mem = loadedMemory s.cfg image → k < 10 →
        t.mem.read (t.i.toNat + k) = s.cfg.fontLarge.getD (10 * d + k) 0x00#8)

/-- RND (44_random.md): the drawn byte under the mask; every byte can be drawn (decision D27). A byte supplied is used
first, else the free value of this draw (log 4); nothing is assumed of it. -/
def Obligations.RandomByteUnderMask : Prop :=
  (∀ w : Word, fieldC w = 0xC#4 → decode w = some (.rnd (regX w) (fieldNN w))) ∧
  ∀ (x : RegIdx) (nn : Byte) (s : State),
    (∀ b rest, s.randIn = b :: rest → ∃ t, exec (.rnd x nn) s = .next t ∧
      t = { s with v := t.v, randIn := rest } ∧ ∀ r, t.getV r = if r = x then b &&& nn else s.getV r) ∧
    (s.randIn = [] → ∃ t, exec (.rnd x nn) s = .next t ∧ t = { s with v := t.v, draws := s.draws + 1 } ∧
      ∀ r, t.getV r = if r = x then Config.randomByte s.draws &&& nn else s.getV r)

/-! ### Display -/

/-- R193, R186: CLS clears every pixel at the resolution it finds and asks for a redraw. -/
def Obligations.ClearDisplay : Prop :=
  (∀ w : Word, fieldC w = 0x0#4 → fieldNN w = 0xE0#8 → decode w = some .cls) ∧
  ∀ s : State, ∃ t, exec .cls s = .next t ∧ t = { s with pix := t.pix, redraw := true } ∧
    t.pix.shaped s.width s.height = true ∧ ∀ x y, t.pixel x y = false

/-- DRW Vx, Vy, n and DRW Vx, Vy, 0 (45_display.md section 2) with every sprite byte in range: each set sprite pixel
inside the grid flips its pixel, nothing wraps, VF is 1 iff one of them was set, and REDRAW is set. Reading every byte
first is decision D19, 16 × 16 in both resolutions and the byte order D18. -/
def Obligations.DrawFlipsTheSpritePixels : Prop :=
  (∀ w : Word, fieldC w = 0xD#4 → fieldN w ≠ 0x0#4 → decode w = some (.drw (regX w) (regY w) (fieldN w))) ∧
  (∀ w : Word, fieldC w = 0xD#4 → fieldN w = 0x0#4 → decode w = some (.drwLarge (regX w) (regY w))) ∧
  ∀ (x y : RegIdx) (n : Nibble) (i : Instr) (s : State), s.pix.shaped s.width s.height = true →
    (i = .drw x y n ∧ n ≠ 0x0#4 ∧ s.i.toNat + n.toNat ≤ s.cfg.memSize ∨
      i = .drwLarge x y ∧ s.i.toNat + 32 ≤ s.cfg.memSize) →
    ∃ t, exec i s = .next t ∧ t = { s with pix := t.pix, v := t.v, redraw := true } ∧
      t.pix.shaped s.width s.height = true ∧
      (∀ px py, t.pixel px py =
        (s.pixel px py ^^ (decide (px < s.width) && decide (py < s.height) && spritePixel i s px py))) ∧
      ((∃ px py, px < s.width ∧ py < s.height ∧ spritePixel i s px py = true ∧ s.pixel px py = true) →
        t.getV 15 = 0x01#8) ∧
      ((¬∃ px py, px < s.width ∧ py < s.height ∧ spritePixel i s px py = true ∧ s.pixel px py = true) →
        t.getV 15 = 0x00#8) ∧
      ∀ r, r ≠ 15 → t.getV r = s.getV r

/-- A draw with a sprite byte out of range records MEM_BOUNDS at the first such address and changes nothing else: no
pixel, no register, no REDRAW (decision D19). -/
def Obligations.FaultingDrawChangesNothing : Prop :=
  ∀ (x y : RegIdx) (n : Nibble) (s : State),
    (n ≠ 0x0#4 → s.cfg.memSize < s.i.toNat + n.toNat →
      exec (.drw x y n) s =
        .next { s with fault := some (.memBounds (s.pc - 2#16) (max s.i.toNat s.cfg.memSize) .read) }) ∧
    (s.cfg.memSize < s.i.toNat + 32 →
      exec (.drwLarge x y) s =
        .next { s with fault := some (.memBounds (s.pc - 2#16) (max s.i.toNat s.cfg.memSize) .read) })

/-- 45_display.md, the collision laws the spec derives: the same sprite drawn twice at the same place restores every
pixel, and the second draw sets VF exactly when some sprite pixel inside the grid fell on a pixel that was 0. VF names
no coordinate, or the second draw would start elsewhere. -/
def Obligations.DrawingTwiceRestoresTheGrid : Prop :=
  ∀ (x y : RegIdx) (n : Nibble) (i : Instr) (s : State), s.pix.shaped s.width s.height = true → x ≠ 15 → y ≠ 15 →
    (i = .drw x y n ∧ n ≠ 0x0#4 ∧ s.i.toNat + n.toNat ≤ s.cfg.memSize ∨
      i = .drwLarge x y ∧ s.i.toNat + 32 ≤ s.cfg.memSize) →
    ∃ t u, exec i s = .next t ∧ exec i t = .next u ∧ u.pix = s.pix ∧
      (u.getV 15 = 0x01#8 ↔
        ∃ px py, px < s.width ∧ py < s.height ∧ spritePixel i s px py = true ∧ s.pixel px py = false) ∧
      (u.getV 15 = 0x00#8 ∨ u.getV 15 = 0x01#8)

/-- SCD n (49_extended.md; bits 11:8 ignored, decision D12): n rows down in either resolution, the top n rows 0; REDRAW is set for n = 0 too
(decision D32). -/
def Obligations.ScrollDown : Prop :=
  (∀ w : Word, fieldC w = 0x0#4 → fieldY w = 0xC#4 → decode w = some (.scd (fieldN w))) ∧
  ∀ (n : Nibble) (s : State), ∃ t, exec (.scd n) s = .next t ∧ t = { s with pix := t.pix, redraw := true } ∧
    t.pix.shaped s.width s.height = true ∧
    ∀ x y, x < s.width → y < s.height →
      t.pixel x y = if n.toNat ≤ y then s.pixel x (y - n.toNat) else false

/-- SCR and SCL (49_extended.md) move every column by exactly 4 in either resolution; bits 11:8 of the word are ignored
(decision D12). -/
def Obligations.ScrollSideways : Prop :=
  (∀ w : Word, fieldC w = 0x0#4 → fieldNN w = 0xFB#8 → decode w = some .scr) ∧
  (∀ w : Word, fieldC w = 0x0#4 → fieldNN w = 0xFC#8 → decode w = some .scl) ∧
  ∀ s : State,
    (∃ t, exec .scr s = .next t ∧ t = { s with pix := t.pix, redraw := true } ∧
      t.pix.shaped s.width s.height = true ∧
      ∀ x y, x < s.width → y < s.height → t.pixel x y = if 4 ≤ x then s.pixel (x - 4) y else false) ∧
    (∃ t, exec .scl s = .next t ∧ t = { s with pix := t.pix, redraw := true } ∧
      t.pix.shaped s.width s.height = true ∧
      ∀ x y, x < s.width → y < s.height → t.pixel x y = if x + 4 < s.width then s.pixel (x + 4) y else false)

/-- LOW and HIGH (49_extended.md) select the resolution and always lose the picture; bits 11:8 of the word are ignored
(decision D12). -/
def Obligations.ResolutionChangesClear : Prop :=
  (∀ w : Word, fieldC w = 0x0#4 → fieldNN w = 0xFE#8 → decode w = some .low) ∧
  (∀ w : Word, fieldC w = 0x0#4 → fieldNN w = 0xFF#8 → decode w = some .high) ∧
  ∀ s : State,
    (∃ t, exec .low s = .next t ∧ t = { s with res := .low, pix := t.pix, redraw := true } ∧
      t.width = 64 ∧ t.height = 32 ∧ t.pix.shaped 64 32 = true ∧ ∀ x y, t.pixel x y = false) ∧
    (∃ t, exec .high s = .next t ∧ t = { s with res := .high, pix := t.pix, redraw := true } ∧
      t.width = 64 * s.cfg.hiresScale ∧ t.height = 32 * s.cfg.hiresScale ∧
      t.pix.shaped (64 * s.cfg.hiresScale) (32 * s.cfg.hiresScale) = true ∧ ∀ x y, t.pixel x y = false)

/-! ### Keys -/

/-- SKP and SKNP (46_keys.md): one sample of the host's line of key V[x][3:0] (decision D15) decides the skip. A sample
supplied is used first, else the free value of this sample (decision D38, log 5); nothing is assumed of it. -/
def Obligations.KeySkips : Prop :=
  (∀ w : Word, fieldC w = 0xE#4 → fieldNN w = 0x9E#8 → decode w = some (.skp (regX w))) ∧
  (∀ w : Word, fieldC w = 0xE#4 → fieldNN w = 0xA1#8 → decode w = some (.sknp (regX w))) ∧
  ∀ (x : RegIdx) (s : State) (k : Nat), k = (s.getV x).toNat % 16 →
    (∀ lines rest, s.keysIn = lines :: rest →
      exec (.skp x) s =
        .next { s with keysIn := rest, pc := if lines.getLsbD k = true then s.pc + 2#16 else s.pc } ∧
      exec (.sknp x) s =
        .next { s with keysIn := rest, pc := if lines.getLsbD k = true then s.pc else s.pc + 2#16 }) ∧
    (s.keysIn = [] →
      exec (.skp x) s = .next { s with
        samples := s.samples + 1
        pc := if (Config.hostKeys s.samples).getLsbD k = true then s.pc + 2#16 else s.pc } ∧
      exec (.sknp x) s = .next { s with
        samples := s.samples + 1
        pc := if (Config.hostKeys s.samples).getLsbD k = true then s.pc else s.pc + 2#16 })

/-- LD Vx, K (46_keys.md): with a release pending it is consumed into V[x] and the core runs; without one the core waits
and PC goes back to the instruction (polling on the first execution too is decision D16). -/
def Obligations.WaitForKey : Prop :=
  (∀ w : Word, fieldC w = 0xF#4 → fieldNN w = 0x0A#8 → decode w = some (.ldVxK (regX w))) ∧
  ∀ (x : RegIdx) (s : State),
    (s.pending = none → exec (.ldVxK x) s = .next { s with runState := .waiting, pc := s.pc - 2#16 }) ∧
    (∀ k : Key, s.pending = some k → ∃ t, exec (.ldVxK x) s = .next t ∧
      t = { s with v := t.v, pending := none, runState := .running } ∧
      ∀ r, (t.getV r).toNat = if r = x then k.val else (s.getV r).toNat)

/-- R210: KeyDown(k) holds the key unless a release is pending, when it is ignored. -/
def Obligations.KeyDownHoldsUnlessPending : Prop :=
  ∀ (s : State) (k : Key) (rest : List HostOp), s.fault = none → s.sched = .keyDown k :: rest →
    ∃ t, step s = .next t ∧ t = { s with sched := rest, out := [], held := t.held } ∧
      (s.pending = none → ∀ j : Key, t.held[j] = (if j = k then true else s.held[j])) ∧
      (s.pending ≠ none → t.held = s.held)

/-- KeyUp(k) and KeyboardReset() (46_keys.md): the first release of a held key becomes PENDING, a later one only clears
HELD (decision D16), a key that is not held changes nothing; KeyboardReset clears both. -/
def Obligations.KeyUpReleasesOnce : Prop :=
  ∀ (s : State) (k : Key) (rest : List HostOp), s.fault = none →
    (s.sched = .keyUp k :: rest →
      (s.held[k] = false → step s = .next { s with sched := rest, out := [] }) ∧
      (s.held[k] = true → ∃ t, step s = .next t ∧
        t = { s with sched := rest, out := [], held := t.held, pending := t.pending } ∧
        (∀ j : Key, t.held[j] = (if j = k then false else s.held[j])) ∧
        (s.pending = none → t.pending = some k) ∧ (s.pending ≠ none → t.pending = s.pending))) ∧
    (s.sched = .keyboardReset :: rest → ∃ t, step s = .next t ∧
      t = { s with sched := rest, out := [], held := t.held, pending := none } ∧ ∀ j : Key, t.held[j] = false)

/-! ### Timers -/

/-- R230, R231, R232: LD Vx, DT; LD DT, Vx; LD ST, Vx. -/
def Obligations.TimerMoves : Prop :=
  (∀ w : Word, fieldC w = 0xF#4 → fieldNN w = 0x07#8 → decode w = some (.ldVxDt (regX w))) ∧
  (∀ w : Word, fieldC w = 0xF#4 → fieldNN w = 0x15#8 → decode w = some (.ldDtVx (regX w))) ∧
  (∀ w : Word, fieldC w = 0xF#4 → fieldNN w = 0x18#8 → decode w = some (.ldStVx (regX w))) ∧
  ∀ (x : RegIdx) (s : State),
    (∃ t, exec (.ldVxDt x) s = .next t ∧ t = { s with v := t.v } ∧
      ∀ r, t.getV r = if r = x then s.dt else s.getV r) ∧
    exec (.ldDtVx x) s = .next { s with dt := s.getV x } ∧
    exec (.ldStVx x) s = .next { s with st := s.getV x }

/-- TICK (60_exceptions.md section 3): each timer down by 1 while nonzero; where REDRAW is set, one flush of W, H and
the grid, and REDRAW cleared; the same in both run states (decision D30). -/
def Obligations.TickCountsAndFlushes : Prop :=
  ∀ (s : State) (rest : List HostOp), s.fault = none → s.sched = .tick :: rest →
    ∃ t, step s = .next t ∧
      t = { s with
        sched := rest
        dt := t.dt
        st := t.st
        redraw := false
        out := if s.redraw = true then [.flush s.width s.height s.pix] else [] } ∧
      t.dt.toNat = s.dt.toNat - 1 ∧ t.st.toNat = s.st.toNat - 1

/-- The timer laws the spec derives (60_exceptions.md section 3): after k TICKs a timer that held c holds max(c - k, 0). -/
def Obligations.TimersReachZeroAndStay : Prop :=
  ∀ (k : Nat) (s : State) (rest : List HostOp), s.fault = none → s.sched = List.replicate k .tick ++ rest →
    ∃ t : State, Host.Core.run Sys2Proof.core k s = .next t ∧ t.sched = rest ∧
      t.dt.toNat = s.dt.toNat - k ∧ t.st.toNat = s.st.toNat - k

/-! ### Block transfers and BCD -/

/-- LD [I], Vx (48_memory_block_bcd.md) with every address in range: V0..Vx stand at I..I+x, every other byte is as
before, and I advances by x + 1 where quirk `memory` is set (decision D7). -/
def Obligations.StoreRegisters : Prop :=
  (∀ w : Word, fieldC w = 0xF#4 → fieldNN w = 0x55#8 → decode w = some (.storeRegs (regX w))) ∧
  ∀ (x : RegIdx) (s : State), s.mem.wf = true → s.i.toNat + x.val < s.cfg.memSize →
    ∃ t, exec (.storeRegs x) s = .next t ∧ t = { s with mem := t.mem, i := t.i } ∧
      t.i.toNat = (if s.qcr.memory = true then (s.i.toNat + x.val + 1) % 65536 else s.i.toNat) ∧
      (∀ k : RegIdx, k ≤ x → t.mem.read (s.i.toNat + k.val) = s.getV k) ∧
      ∀ a, (a < s.i.toNat ∨ s.i.toNat + x.val < a) → t.mem.read a = s.mem.read a

/-- LD Vx, [I] (48_memory_block_bcd.md) with every address in range: V0..Vx are the bytes at I..I+x, the rest as before,
and I advances as for the store (decision D7). -/
def Obligations.LoadRegisters : Prop :=
  (∀ w : Word, fieldC w = 0xF#4 → fieldNN w = 0x65#8 → decode w = some (.loadRegs (regX w))) ∧
  ∀ (x : RegIdx) (s : State), s.i.toNat + x.val < s.cfg.memSize →
    ∃ t, exec (.loadRegs x) s = .next t ∧ t = { s with v := t.v, i := t.i } ∧
      t.i.toNat = (if s.qcr.memory = true then (s.i.toNat + x.val + 1) % 65536 else s.i.toNat) ∧
      ∀ r, t.getV r = if r ≤ x then s.mem.read (s.i.toNat + r.val) else s.getV r

/-- 60_exceptions.md, precision of a fault in a block transfer: the bytes stored or the registers loaded before the
failing address stay, I does not advance, and FAULT records the lowest failing address and the instruction's address. -/
def Obligations.BlockTransferFaultsArePrecise : Prop :=
  ∀ (x : RegIdx) (s : State), s.mem.wf = true → s.cfg.memSize ≤ s.i.toNat + x.val →
    (∃ t, exec (.storeRegs x) s = .next t ∧
      t = { s with
        mem := t.mem
        fault := some (.memBounds (s.pc - 2#16) (max s.i.toNat s.cfg.memSize) .write) } ∧
      (∀ k : RegIdx, s.i.toNat + k.val < s.cfg.memSize → t.mem.read (s.i.toNat + k.val) = s.getV k) ∧
      ∀ a, (a < s.i.toNat ∨ s.cfg.memSize ≤ a) → t.mem.read a = s.mem.read a) ∧
    (∃ t, exec (.loadRegs x) s = .next t ∧
      t = { s with
        v := t.v
        fault := some (.memBounds (s.pc - 2#16) (max s.i.toNat s.cfg.memSize) .read) } ∧
      ∀ r : RegIdx, t.getV r =
        if s.i.toNat + r.val < s.cfg.memSize then s.mem.read (s.i.toNat + r.val) else s.getV r)

/-- The round trip of the block transfers: storing V0..Vx and loading them back with I set to where it was reproduces
them, whatever the registers held in between. -/
def Obligations.StoreThenLoadRestoresRegisters : Prop :=
  ∀ (x : RegIdx) (s : State) (w : Vector Byte 16), s.mem.wf = true → s.i.toNat + x.val < s.cfg.memSize →
    ∃ t u, exec (.storeRegs x) s = .next t ∧ exec (.loadRegs x) { t with v := w, i := s.i } = .next u ∧
      ∀ r, r ≤ x → u.getV r = s.getV r

/-- R242: LD B, Vx writes the three decimal digits of V[x] to I, I + 1, I + 2 and leaves I and every other byte alone; at
the first address out of range it faults with the digits before it written. -/
def Obligations.StoreDecimalDigits : Prop :=
  (∀ w : Word, fieldC w = 0xF#4 → fieldNN w = 0x33#8 → decode w = some (.ldB (regX w))) ∧
  ∀ (x : RegIdx) (s : State), s.mem.wf = true →
    ∃ t, exec (.ldB x) s = .next t ∧
      (s.i.toNat + 2 < s.cfg.memSize → t = { s with mem := t.mem }) ∧
      (s.cfg.memSize ≤ s.i.toNat + 2 →
        t = { s with
          mem := t.mem
          fault := some (.memBounds (s.pc - 2#16) (max s.i.toNat s.cfg.memSize) .write) }) ∧
      (s.i.toNat < s.cfg.memSize → (t.mem.read s.i.toNat).toNat = (s.getV x).toNat / 100) ∧
      (s.i.toNat + 1 < s.cfg.memSize → (t.mem.read (s.i.toNat + 1)).toNat = (s.getV x).toNat / 10 % 10) ∧
      (s.i.toNat + 2 < s.cfg.memSize → (t.mem.read (s.i.toNat + 2)).toNat = (s.getV x).toNat % 10) ∧
      ∀ a, (a < s.i.toNat ∨ s.i.toNat + 2 < a ∨ s.cfg.memSize ≤ a) → t.mem.read a = s.mem.read a

/-! ### Control and flag bank -/

/-- EXIT (49_extended.md; bits 11:8 ignored, decision D12) sets PC back to its own address and changes nothing else, so CYCLE executes it again. -/
def Obligations.ExitLoopsOnItself : Prop :=
  (∀ w : Word, fieldC w = 0x0#4 → fieldNN w = 0xFD#8 → decode w = some .exit) ∧
  (∀ s : State, exec .exit s = .next { s with pc := s.pc - 2#16 }) ∧
  ∀ s : State, s.fault = none → s.sched = [] → s.pc.toNat + 1 < s.cfg.memSize →
    decode (joinBytes (s.mem.read s.pc.toNat) (s.mem.read (s.pc.toNat + 1))) = some .exit →
    ∃ t, step s = .next t ∧ t.pc = s.pc ∧ step t = .next t

/-- LD R, Vx and LD Vx, R (49_extended.md): copy V0..Vx to or from the flag bank for x ≤ 7; for x > 7 FAULT records
FLAG_INDEX before any copy (decision D17). -/
def Obligations.FlagBankSaveAndRestore : Prop :=
  (∀ w : Word, fieldC w = 0xF#4 → fieldNN w = 0x75#8 → decode w = some (.saveFlags (regX w))) ∧
  (∀ w : Word, fieldC w = 0xF#4 → fieldNN w = 0x85#8 → decode w = some (.restoreFlags (regX w))) ∧
  ∀ (x : RegIdx) (s : State),
    (x.val ≤ 7 →
      (∃ t, exec (.saveFlags x) s = .next t ∧ t = { s with rpl := t.rpl } ∧
        ∀ (j : Fin 8) (r : RegIdx), r.val = j.val → t.rpl[j] = if r ≤ x then s.getV r else s.rpl[j]) ∧
      (∃ t, exec (.restoreFlags x) s = .next t ∧ t = { s with v := t.v } ∧
        (∀ (j : Fin 8) (r : RegIdx), r.val = j.val → r ≤ x → t.getV r = s.rpl[j]) ∧
        ∀ r, x < r → t.getV r = s.getV r)) ∧
    (7 < x.val →
      exec (.saveFlags x) s = .next { s with fault := some (.flagIndex (s.pc - 2#16) x) } ∧
      exec (.restoreFlags x) s = .next { s with fault := some (.flagIndex (s.pc - 2#16) x) })

/-! ### Host operations -/

/-- RESET (70_reset_and_hazards.md section 1): registers, PC, timers, flag bank, stack, RUNSTATE and REDRAW take their
reset values (decision D21); memory, display, keyboard, QCR and FAULT stay. -/
def Obligations.ResetSetsTheInterpreterOnly : Prop :=
  ∀ (s : State) (rest : List HostOp), s.fault = none → s.sched = .reset :: rest →
    ∃ t, step s = .next t ∧
      t = { s with
        sched := rest
        out := []
        v := t.v
        rpl := t.rpl
        i := 0x0000#16
        ir := 0x0000#16
        pc := 0x0200#16
        dt := 0x00#8
        st := 0x00#8
        stack := []
        runState := .running
        redraw := false } ∧
      (∀ r, t.getV r = 0x00#8) ∧ ∀ j : Fin 8, t.rpl[j] = 0x00#8

/-- LOAD (20_memory.md section 6): an image that fits is accepted and memory is the fonts, the image and zeros; one that
is missing, unreadable or too long (decision D36) is rejected and changes nothing. Reports: log 6. -/
def Obligations.LoadLaysOutMemory : Prop :=
  ∀ (s : State) (rest : List HostOp), s.fault = none → s.cfg.Legal →
    (∀ image : List Byte, s.sched = .load (some image) :: rest → 0x200 + image.length ≤ s.cfg.memSize →
      ∃ t, step s = .next t ∧ t = { s with sched := rest, mem := t.mem, out := [.report true] } ∧
        (∀ k, k < 80 → t.mem.read (s.cfg.fontBase + k) = s.cfg.fontSmall.getD k 0x00#8) ∧
        (∀ k, k < 160 → t.mem.read (s.cfg.fontBase + 80 + k) = s.cfg.fontLarge.getD k 0x00#8) ∧
        (∀ k, k < image.length → t.mem.read (0x200 + k) = image.getD k 0x00#8) ∧
        ∀ a, (a < s.cfg.fontBase ∨ s.cfg.fontBase + 240 ≤ a) → (a < 0x200 ∨ 0x200 + image.length ≤ a) →
          t.mem.read a = 0x00#8) ∧
    (∀ image : List Byte, s.sched = .load (some image) :: rest → s.cfg.memSize < 0x200 + image.length →
      step s = .next { s with sched := rest, out := [.report false] }) ∧
    (s.sched = .load none :: rest → step s = .next { s with sched := rest, out := [.report false] })

/-- A configuration write or preset with an unknown name, or a value other than true or false, is rejected and changes
nothing (60_exceptions.md section 1). That names and values are compared letter for letter, so that "TRUE" is rejected,
is the model's choice (log 13), and so is the form of the report (log 6). -/
def Obligations.BadConfigurationIsRejected : Prop :=
  ∀ (s : State) (rest : List HostOp) (name value : String), s.fault = none →
    (s.sched = .configWrite name value :: rest →
      ((∀ q, (name, q) ∉ s.cfg.quirkNames) ∨ (value ≠ "true" ∧ value ≠ "false")) →
      step s = .next { s with sched := rest, out := [.report false] }) ∧
    (s.sched = .preset name :: rest → (∀ q, (name, q) ∉ s.cfg.presets) →
      step s = .next { s with sched := rest, out := [.report false] })

/-- CONFIG_WRITE and PRESET (60_exceptions.md section 5) with the spec's names and preset values (decision D6): exactly
the field named, or all five at once, changes. The report's form is log 6. -/
def Obligations.ConfigurationWritesOneFieldPresetsAll : Prop :=
  ∀ (s : State) (rest : List HostOp) (b : Bool) (value : String), s.fault = none →
    s.cfg.quirkNames = Config.standard.quirkNames → s.cfg.presets = Config.standard.presets →
    value = (if b = true then "true" else "false") →
    (∀ name q, (name = "vf_reset" ∧ q = { s.qcr with vfReset := b } ∨ name = "memory" ∧ q = { s.qcr with memory := b } ∨
        name = "shifting" ∧ q = { s.qcr with shifting := b } ∨ name = "jumping" ∧ q = { s.qcr with jumping := b } ∨
        name = "ioverflow" ∧ q = { s.qcr with ioverflow := b }) →
      s.sched = .configWrite name value :: rest →
      step s = .next { s with sched := rest, qcr := q, out := [.report true] }) ∧
    (∀ name q, (name = "default" ∧ q = ⟨true, true, false, false, false⟩ ∨
        name = "schip" ∧ q = ⟨false, false, true, true, false⟩ ∨
        name = "xochip" ∧ q = ⟨false, true, false, false, false⟩) →
      s.sched = .preset name :: rest →
      step s = .next { s with sched := rest, qcr := q, out := [.report true] })
end

