-- ==== Sys2Proof/Laws/Decode.lean ====
section
/-! SUPPORT. The fields of a packed word, and byte order. -/

namespace Sys2Proof

@[simp] theorem regOf_regBits (r : RegIdx) : regOf (regBits r) = r := rfl
@[simp] theorem regBits_regOf (b : Nibble) : regBits (regOf b) = b := rfl

@[simp] theorem fieldC_packXYN (c x y n : Nibble) : fieldC (packXYN c x y n) = c := by
  ext i hi; simp [fieldC, packXYN]; interval_cases i <;> simp
@[simp] theorem fieldX_packXYN (c x y n : Nibble) : fieldX (packXYN c x y n) = x := by
  ext i hi; simp [fieldX, packXYN]; interval_cases i <;> simp
@[simp] theorem fieldY_packXYN (c x y n : Nibble) : fieldY (packXYN c x y n) = y := by
  ext i hi; simp [fieldY, packXYN]; interval_cases i <;> simp
@[simp] theorem fieldN_packXYN (c x y n : Nibble) : fieldN (packXYN c x y n) = n := by
  ext i hi; simp [fieldN, packXYN]; interval_cases i <;> simp
theorem fieldNN_packXYN (c x y n : Nibble) :
    fieldNN (packXYN c x y n) = y.setWidth 8 <<< 4 ||| n.setWidth 8 := by
  ext i hi; simp [fieldNN, packXYN]; interval_cases i <;> simp

@[simp] theorem fieldC_packXNN (c x : Nibble) (nn : Byte) : fieldC (packXNN c x nn) = c := by
  ext i hi; simp [fieldC, packXNN]; interval_cases i <;> simp
@[simp] theorem fieldX_packXNN (c x : Nibble) (nn : Byte) : fieldX (packXNN c x nn) = x := by
  ext i hi; simp [fieldX, packXNN]; interval_cases i <;> simp
@[simp] theorem fieldNN_packXNN (c x : Nibble) (nn : Byte) : fieldNN (packXNN c x nn) = nn := by
  ext i hi; simp [fieldNN, packXNN]; interval_cases i <;> simp

@[simp] theorem fieldC_packNNN (c : Nibble) (a : Addr12) : fieldC (packNNN c a) = c := by
  ext i hi; simp [fieldC, packNNN]; interval_cases i <;> simp
@[simp] theorem fieldNNN_packNNN (c : Nibble) (a : Addr12) : fieldNNN (packNNN c a) = a := by
  ext i hi; simp [fieldNNN, packNNN]; interval_cases i <;> simp

/-- A word is its four nibbles. -/
theorem packXYN_fields (w : Word) : packXYN (fieldC w) (fieldX w) (fieldY w) (fieldN w) = w := by
  ext i hi; simp [packXYN, fieldC, fieldX, fieldY, fieldN]; interval_cases i <;> simp
/-- A word is its class, its x and its low byte. -/
theorem packXNN_fields (w : Word) : packXNN (fieldC w) (fieldX w) (fieldNN w) = w := by
  ext i hi; simp [packXNN, fieldC, fieldX, fieldNN]; interval_cases i <;> simp
/-- A word is its class and its low 12 bits. -/
theorem packNNN_fields (w : Word) : packNNN (fieldC w) (fieldNNN w) = w := by
  ext i hi; simp [packNNN, fieldC, fieldNNN]; interval_cases i <;> simp

/-- Storing a word as bytes and joining them gives it back. -/
@[simp] theorem joinBytes_hiByte_loByte (w : Word) : joinBytes (hiByte w) (loByte w) = w := by
  ext i hi; simp [joinBytes, hiByte, loByte]; interval_cases i <;> simp
@[simp] theorem hiByte_joinBytes (hi lo : Byte) : hiByte (joinBytes hi lo) = hi := by
  ext i h; simp [joinBytes, hiByte]; interval_cases i <;> simp
@[simp] theorem loByte_joinBytes (hi lo : Byte) : loByte (joinBytes hi lo) = lo := by
  ext i h; simp [joinBytes, loByte]; interval_cases i <;> simp

/-- The decoder on the bytes of a word is the decoder on the word. -/
theorem decodeBytes_wordBytes (w : Word) (rest : List Byte) :
    decodeBytes (wordBytes w ++ rest) =
      match decode w with
      | some i => .ok (i, rest)
      | none => .error (.undefinedOpcode w) := by
  cases h : decode w <;> simp [wordBytes, decodeBytes, h]

/-- The host's view of the decoder is the decoder on the row's word. -/
theorem decodeTableWord_eq (nbits w : Nat) : decodeTableWord nbits w = decode (tableWord nbits w) := by
  unfold decodeTableWord
  have h := decodeBytes_wordBytes (tableWord nbits w) []
  rw [List.append_nil] at h
  rw [h]
  cases decode (tableWord nbits w) <;> simp

end Sys2Proof
end

