-- ==== Sys2Proof/Laws/State.lean ====
section
/-! SUPPORT. What each named update does to each field of State, so that no later proof unfolds a record update. The
few field values a display primitive, a key event or a host operation computes have their lemmas in Laws/Display.lean and
Laws/Ops.lean. -/

namespace Sys2Proof.Machine

/-! ### State.raise -/

@[simp] theorem State.raise_cfg (s : State) (f : FatalFault) : (s.raise f).cfg = s.cfg := rfl
@[simp] theorem State.raise_v (s : State) (f : FatalFault) : (s.raise f).v = s.v := rfl
@[simp] theorem State.raise_pc (s : State) (f : FatalFault) : (s.raise f).pc = s.pc := rfl
@[simp] theorem State.raise_i (s : State) (f : FatalFault) : (s.raise f).i = s.i := rfl
@[simp] theorem State.raise_ir (s : State) (f : FatalFault) : (s.raise f).ir = s.ir := rfl
@[simp] theorem State.raise_dt (s : State) (f : FatalFault) : (s.raise f).dt = s.dt := rfl
@[simp] theorem State.raise_st (s : State) (f : FatalFault) : (s.raise f).st = s.st := rfl
@[simp] theorem State.raise_rpl (s : State) (f : FatalFault) : (s.raise f).rpl = s.rpl := rfl
@[simp] theorem State.raise_stack (s : State) (f : FatalFault) : (s.raise f).stack = s.stack := rfl
@[simp] theorem State.raise_qcr (s : State) (f : FatalFault) : (s.raise f).qcr = s.qcr := rfl
@[simp] theorem State.raise_runState (s : State) (f : FatalFault) : (s.raise f).runState = s.runState := rfl
@[simp] theorem State.raise_redraw (s : State) (f : FatalFault) : (s.raise f).redraw = s.redraw := rfl
@[simp] theorem State.raise_fault (s : State) (f : FatalFault) : (s.raise f).fault = some f := rfl
@[simp] theorem State.raise_res (s : State) (f : FatalFault) : (s.raise f).res = s.res := rfl
@[simp] theorem State.raise_pix (s : State) (f : FatalFault) : (s.raise f).pix = s.pix := rfl
@[simp] theorem State.raise_held (s : State) (f : FatalFault) : (s.raise f).held = s.held := rfl
@[simp] theorem State.raise_pending (s : State) (f : FatalFault) : (s.raise f).pending = s.pending := rfl
@[simp] theorem State.raise_mem (s : State) (f : FatalFault) : (s.raise f).mem = s.mem := rfl
@[simp] theorem State.raise_sched (s : State) (f : FatalFault) : (s.raise f).sched = s.sched := rfl
@[simp] theorem State.raise_randIn (s : State) (f : FatalFault) : (s.raise f).randIn = s.randIn := rfl
@[simp] theorem State.raise_draws (s : State) (f : FatalFault) : (s.raise f).draws = s.draws := rfl
@[simp] theorem State.raise_keysIn (s : State) (f : FatalFault) : (s.raise f).keysIn = s.keysIn := rfl
@[simp] theorem State.raise_samples (s : State) (f : FatalFault) : (s.raise f).samples = s.samples := rfl
@[simp] theorem State.raise_out (s : State) (f : FatalFault) : (s.raise f).out = s.out := rfl

/-! ### State.setV -/

@[simp] theorem State.setV_cfg (s : State) (r : RegIdx) (b : Byte) : (s.setV r b).cfg = s.cfg := rfl
@[simp] theorem State.setV_v (s : State) (r : RegIdx) (b : Byte) : (s.setV r b).v = s.v.set r b := rfl
@[simp] theorem State.setV_pc (s : State) (r : RegIdx) (b : Byte) : (s.setV r b).pc = s.pc := rfl
@[simp] theorem State.setV_i (s : State) (r : RegIdx) (b : Byte) : (s.setV r b).i = s.i := rfl
@[simp] theorem State.setV_ir (s : State) (r : RegIdx) (b : Byte) : (s.setV r b).ir = s.ir := rfl
@[simp] theorem State.setV_dt (s : State) (r : RegIdx) (b : Byte) : (s.setV r b).dt = s.dt := rfl
@[simp] theorem State.setV_st (s : State) (r : RegIdx) (b : Byte) : (s.setV r b).st = s.st := rfl
@[simp] theorem State.setV_rpl (s : State) (r : RegIdx) (b : Byte) : (s.setV r b).rpl = s.rpl := rfl
@[simp] theorem State.setV_stack (s : State) (r : RegIdx) (b : Byte) : (s.setV r b).stack = s.stack := rfl
@[simp] theorem State.setV_qcr (s : State) (r : RegIdx) (b : Byte) : (s.setV r b).qcr = s.qcr := rfl
@[simp] theorem State.setV_runState (s : State) (r : RegIdx) (b : Byte) :
    (s.setV r b).runState = s.runState := rfl
@[simp] theorem State.setV_redraw (s : State) (r : RegIdx) (b : Byte) : (s.setV r b).redraw = s.redraw := rfl
@[simp] theorem State.setV_fault (s : State) (r : RegIdx) (b : Byte) : (s.setV r b).fault = s.fault := rfl
@[simp] theorem State.setV_res (s : State) (r : RegIdx) (b : Byte) : (s.setV r b).res = s.res := rfl
@[simp] theorem State.setV_pix (s : State) (r : RegIdx) (b : Byte) : (s.setV r b).pix = s.pix := rfl
@[simp] theorem State.setV_held (s : State) (r : RegIdx) (b : Byte) : (s.setV r b).held = s.held := rfl
@[simp] theorem State.setV_pending (s : State) (r : RegIdx) (b : Byte) :
    (s.setV r b).pending = s.pending := rfl
@[simp] theorem State.setV_mem (s : State) (r : RegIdx) (b : Byte) : (s.setV r b).mem = s.mem := rfl
@[simp] theorem State.setV_sched (s : State) (r : RegIdx) (b : Byte) : (s.setV r b).sched = s.sched := rfl
@[simp] theorem State.setV_randIn (s : State) (r : RegIdx) (b : Byte) : (s.setV r b).randIn = s.randIn := rfl
@[simp] theorem State.setV_draws (s : State) (r : RegIdx) (b : Byte) : (s.setV r b).draws = s.draws := rfl
@[simp] theorem State.setV_keysIn (s : State) (r : RegIdx) (b : Byte) : (s.setV r b).keysIn = s.keysIn := rfl
@[simp] theorem State.setV_samples (s : State) (r : RegIdx) (b : Byte) :
    (s.setV r b).samples = s.samples := rfl
@[simp] theorem State.setV_out (s : State) (r : RegIdx) (b : Byte) : (s.setV r b).out = s.out := rfl

/-! ### State.setResultFlag -/

@[simp] theorem State.setResultFlag_cfg (s : State) (r : RegIdx) (a b : Byte) :
    (s.setResultFlag r a b).cfg = s.cfg := rfl
@[simp] theorem State.setResultFlag_v (s : State) (r : RegIdx) (a b : Byte) :
    (s.setResultFlag r a b).v = (s.v.set r a).set vf b := rfl
@[simp] theorem State.setResultFlag_pc (s : State) (r : RegIdx) (a b : Byte) :
    (s.setResultFlag r a b).pc = s.pc := rfl
@[simp] theorem State.setResultFlag_i (s : State) (r : RegIdx) (a b : Byte) :
    (s.setResultFlag r a b).i = s.i := rfl
@[simp] theorem State.setResultFlag_ir (s : State) (r : RegIdx) (a b : Byte) :
    (s.setResultFlag r a b).ir = s.ir := rfl
@[simp] theorem State.setResultFlag_dt (s : State) (r : RegIdx) (a b : Byte) :
    (s.setResultFlag r a b).dt = s.dt := rfl
@[simp] theorem State.setResultFlag_st (s : State) (r : RegIdx) (a b : Byte) :
    (s.setResultFlag r a b).st = s.st := rfl
@[simp] theorem State.setResultFlag_rpl (s : State) (r : RegIdx) (a b : Byte) :
    (s.setResultFlag r a b).rpl = s.rpl := rfl
@[simp] theorem State.setResultFlag_stack (s : State) (r : RegIdx) (a b : Byte) :
    (s.setResultFlag r a b).stack = s.stack := rfl
@[simp] theorem State.setResultFlag_qcr (s : State) (r : RegIdx) (a b : Byte) :
    (s.setResultFlag r a b).qcr = s.qcr := rfl
@[simp] theorem State.setResultFlag_runState (s : State) (r : RegIdx) (a b : Byte) :
    (s.setResultFlag r a b).runState = s.runState := rfl
@[simp] theorem State.setResultFlag_redraw (s : State) (r : RegIdx) (a b : Byte) :
    (s.setResultFlag r a b).redraw = s.redraw := rfl
@[simp] theorem State.setResultFlag_fault (s : State) (r : RegIdx) (a b : Byte) :
    (s.setResultFlag r a b).fault = s.fault := rfl
@[simp] theorem State.setResultFlag_res (s : State) (r : RegIdx) (a b : Byte) :
    (s.setResultFlag r a b).res = s.res := rfl
@[simp] theorem State.setResultFlag_pix (s : State) (r : RegIdx) (a b : Byte) :
    (s.setResultFlag r a b).pix = s.pix := rfl
@[simp] theorem State.setResultFlag_held (s : State) (r : RegIdx) (a b : Byte) :
    (s.setResultFlag r a b).held = s.held := rfl
@[simp] theorem State.setResultFlag_pending (s : State) (r : RegIdx) (a b : Byte) :
    (s.setResultFlag r a b).pending = s.pending := rfl
@[simp] theorem State.setResultFlag_mem (s : State) (r : RegIdx) (a b : Byte) :
    (s.setResultFlag r a b).mem = s.mem := rfl
@[simp] theorem State.setResultFlag_sched (s : State) (r : RegIdx) (a b : Byte) :
    (s.setResultFlag r a b).sched = s.sched := rfl
@[simp] theorem State.setResultFlag_randIn (s : State) (r : RegIdx) (a b : Byte) :
    (s.setResultFlag r a b).randIn = s.randIn := rfl
@[simp] theorem State.setResultFlag_draws (s : State) (r : RegIdx) (a b : Byte) :
    (s.setResultFlag r a b).draws = s.draws := rfl
@[simp] theorem State.setResultFlag_keysIn (s : State) (r : RegIdx) (a b : Byte) :
    (s.setResultFlag r a b).keysIn = s.keysIn := rfl
@[simp] theorem State.setResultFlag_samples (s : State) (r : RegIdx) (a b : Byte) :
    (s.setResultFlag r a b).samples = s.samples := rfl
@[simp] theorem State.setResultFlag_out (s : State) (r : RegIdx) (a b : Byte) :
    (s.setResultFlag r a b).out = s.out := rfl

/-! ### State.jump -/

@[simp] theorem State.jump_cfg (s : State) (a : Word) : (s.jump a).cfg = s.cfg := rfl
@[simp] theorem State.jump_v (s : State) (a : Word) : (s.jump a).v = s.v := rfl
@[simp] theorem State.jump_pc (s : State) (a : Word) : (s.jump a).pc = a := rfl
@[simp] theorem State.jump_i (s : State) (a : Word) : (s.jump a).i = s.i := rfl
@[simp] theorem State.jump_ir (s : State) (a : Word) : (s.jump a).ir = s.ir := rfl
@[simp] theorem State.jump_dt (s : State) (a : Word) : (s.jump a).dt = s.dt := rfl
@[simp] theorem State.jump_st (s : State) (a : Word) : (s.jump a).st = s.st := rfl
@[simp] theorem State.jump_rpl (s : State) (a : Word) : (s.jump a).rpl = s.rpl := rfl
@[simp] theorem State.jump_stack (s : State) (a : Word) : (s.jump a).stack = s.stack := rfl
@[simp] theorem State.jump_qcr (s : State) (a : Word) : (s.jump a).qcr = s.qcr := rfl
@[simp] theorem State.jump_runState (s : State) (a : Word) : (s.jump a).runState = s.runState := rfl
@[simp] theorem State.jump_redraw (s : State) (a : Word) : (s.jump a).redraw = s.redraw := rfl
@[simp] theorem State.jump_fault (s : State) (a : Word) : (s.jump a).fault = s.fault := rfl
@[simp] theorem State.jump_res (s : State) (a : Word) : (s.jump a).res = s.res := rfl
@[simp] theorem State.jump_pix (s : State) (a : Word) : (s.jump a).pix = s.pix := rfl
@[simp] theorem State.jump_held (s : State) (a : Word) : (s.jump a).held = s.held := rfl
@[simp] theorem State.jump_pending (s : State) (a : Word) : (s.jump a).pending = s.pending := rfl
@[simp] theorem State.jump_mem (s : State) (a : Word) : (s.jump a).mem = s.mem := rfl
@[simp] theorem State.jump_sched (s : State) (a : Word) : (s.jump a).sched = s.sched := rfl
@[simp] theorem State.jump_randIn (s : State) (a : Word) : (s.jump a).randIn = s.randIn := rfl
@[simp] theorem State.jump_draws (s : State) (a : Word) : (s.jump a).draws = s.draws := rfl
@[simp] theorem State.jump_keysIn (s : State) (a : Word) : (s.jump a).keysIn = s.keysIn := rfl
@[simp] theorem State.jump_samples (s : State) (a : Word) : (s.jump a).samples = s.samples := rfl
@[simp] theorem State.jump_out (s : State) (a : Word) : (s.jump a).out = s.out := rfl

/-! ### State.skipIf -/

@[simp] theorem State.skipIf_cfg (s : State) (c : Bool) :
    (s.skipIf c).cfg = s.cfg := by unfold State.skipIf; split <;> rfl
@[simp] theorem State.skipIf_v (s : State) (c : Bool) :
    (s.skipIf c).v = s.v := by unfold State.skipIf; split <;> rfl
@[simp] theorem State.skipIf_pc (s : State) (c : Bool) :
    (s.skipIf c).pc = if c then s.pc + 2#16 else s.pc := by unfold State.skipIf; split <;> rfl
@[simp] theorem State.skipIf_i (s : State) (c : Bool) :
    (s.skipIf c).i = s.i := by unfold State.skipIf; split <;> rfl
@[simp] theorem State.skipIf_ir (s : State) (c : Bool) :
    (s.skipIf c).ir = s.ir := by unfold State.skipIf; split <;> rfl
@[simp] theorem State.skipIf_dt (s : State) (c : Bool) :
    (s.skipIf c).dt = s.dt := by unfold State.skipIf; split <;> rfl
@[simp] theorem State.skipIf_st (s : State) (c : Bool) :
    (s.skipIf c).st = s.st := by unfold State.skipIf; split <;> rfl
@[simp] theorem State.skipIf_rpl (s : State) (c : Bool) :
    (s.skipIf c).rpl = s.rpl := by unfold State.skipIf; split <;> rfl
@[simp] theorem State.skipIf_stack (s : State) (c : Bool) :
    (s.skipIf c).stack = s.stack := by unfold State.skipIf; split <;> rfl
@[simp] theorem State.skipIf_qcr (s : State) (c : Bool) :
    (s.skipIf c).qcr = s.qcr := by unfold State.skipIf; split <;> rfl
@[simp] theorem State.skipIf_runState (s : State) (c : Bool) :
    (s.skipIf c).runState = s.runState := by unfold State.skipIf; split <;> rfl
@[simp] theorem State.skipIf_redraw (s : State) (c : Bool) :
    (s.skipIf c).redraw = s.redraw := by unfold State.skipIf; split <;> rfl
@[simp] theorem State.skipIf_fault (s : State) (c : Bool) :
    (s.skipIf c).fault = s.fault := by unfold State.skipIf; split <;> rfl
@[simp] theorem State.skipIf_res (s : State) (c : Bool) :
    (s.skipIf c).res = s.res := by unfold State.skipIf; split <;> rfl
@[simp] theorem State.skipIf_pix (s : State) (c : Bool) :
    (s.skipIf c).pix = s.pix := by unfold State.skipIf; split <;> rfl
@[simp] theorem State.skipIf_held (s : State) (c : Bool) :
    (s.skipIf c).held = s.held := by unfold State.skipIf; split <;> rfl
@[simp] theorem State.skipIf_pending (s : State) (c : Bool) :
    (s.skipIf c).pending = s.pending := by unfold State.skipIf; split <;> rfl
@[simp] theorem State.skipIf_mem (s : State) (c : Bool) :
    (s.skipIf c).mem = s.mem := by unfold State.skipIf; split <;> rfl
@[simp] theorem State.skipIf_sched (s : State) (c : Bool) :
    (s.skipIf c).sched = s.sched := by unfold State.skipIf; split <;> rfl
@[simp] theorem State.skipIf_randIn (s : State) (c : Bool) :
    (s.skipIf c).randIn = s.randIn := by unfold State.skipIf; split <;> rfl
@[simp] theorem State.skipIf_draws (s : State) (c : Bool) :
    (s.skipIf c).draws = s.draws := by unfold State.skipIf; split <;> rfl
@[simp] theorem State.skipIf_keysIn (s : State) (c : Bool) :
    (s.skipIf c).keysIn = s.keysIn := by unfold State.skipIf; split <;> rfl
@[simp] theorem State.skipIf_samples (s : State) (c : Bool) :
    (s.skipIf c).samples = s.samples := by unfold State.skipIf; split <;> rfl
@[simp] theorem State.skipIf_out (s : State) (c : Bool) :
    (s.skipIf c).out = s.out := by unfold State.skipIf; split <;> rfl

/-! ### State.rewind -/

@[simp] theorem State.rewind_cfg (s : State) : (s.rewind).cfg = s.cfg := rfl
@[simp] theorem State.rewind_v (s : State) : (s.rewind).v = s.v := rfl
@[simp] theorem State.rewind_pc (s : State) : (s.rewind).pc = s.pc - 2#16 := rfl
@[simp] theorem State.rewind_i (s : State) : (s.rewind).i = s.i := rfl
@[simp] theorem State.rewind_ir (s : State) : (s.rewind).ir = s.ir := rfl
@[simp] theorem State.rewind_dt (s : State) : (s.rewind).dt = s.dt := rfl
@[simp] theorem State.rewind_st (s : State) : (s.rewind).st = s.st := rfl
@[simp] theorem State.rewind_rpl (s : State) : (s.rewind).rpl = s.rpl := rfl
@[simp] theorem State.rewind_stack (s : State) : (s.rewind).stack = s.stack := rfl
@[simp] theorem State.rewind_qcr (s : State) : (s.rewind).qcr = s.qcr := rfl
@[simp] theorem State.rewind_runState (s : State) : (s.rewind).runState = s.runState := rfl
@[simp] theorem State.rewind_redraw (s : State) : (s.rewind).redraw = s.redraw := rfl
@[simp] theorem State.rewind_fault (s : State) : (s.rewind).fault = s.fault := rfl
@[simp] theorem State.rewind_res (s : State) : (s.rewind).res = s.res := rfl
@[simp] theorem State.rewind_pix (s : State) : (s.rewind).pix = s.pix := rfl
@[simp] theorem State.rewind_held (s : State) : (s.rewind).held = s.held := rfl
@[simp] theorem State.rewind_pending (s : State) : (s.rewind).pending = s.pending := rfl
@[simp] theorem State.rewind_mem (s : State) : (s.rewind).mem = s.mem := rfl
@[simp] theorem State.rewind_sched (s : State) : (s.rewind).sched = s.sched := rfl
@[simp] theorem State.rewind_randIn (s : State) : (s.rewind).randIn = s.randIn := rfl
@[simp] theorem State.rewind_draws (s : State) : (s.rewind).draws = s.draws := rfl
@[simp] theorem State.rewind_keysIn (s : State) : (s.rewind).keysIn = s.keysIn := rfl
@[simp] theorem State.rewind_samples (s : State) : (s.rewind).samples = s.samples := rfl
@[simp] theorem State.rewind_out (s : State) : (s.rewind).out = s.out := rfl

/-! ### State.setI -/

@[simp] theorem State.setI_cfg (s : State) (a : Word) : (s.setI a).cfg = s.cfg := rfl
@[simp] theorem State.setI_v (s : State) (a : Word) : (s.setI a).v = s.v := rfl
@[simp] theorem State.setI_pc (s : State) (a : Word) : (s.setI a).pc = s.pc := rfl
@[simp] theorem State.setI_i (s : State) (a : Word) : (s.setI a).i = a := rfl
@[simp] theorem State.setI_ir (s : State) (a : Word) : (s.setI a).ir = s.ir := rfl
@[simp] theorem State.setI_dt (s : State) (a : Word) : (s.setI a).dt = s.dt := rfl
@[simp] theorem State.setI_st (s : State) (a : Word) : (s.setI a).st = s.st := rfl
@[simp] theorem State.setI_rpl (s : State) (a : Word) : (s.setI a).rpl = s.rpl := rfl
@[simp] theorem State.setI_stack (s : State) (a : Word) : (s.setI a).stack = s.stack := rfl
@[simp] theorem State.setI_qcr (s : State) (a : Word) : (s.setI a).qcr = s.qcr := rfl
@[simp] theorem State.setI_runState (s : State) (a : Word) : (s.setI a).runState = s.runState := rfl
@[simp] theorem State.setI_redraw (s : State) (a : Word) : (s.setI a).redraw = s.redraw := rfl
@[simp] theorem State.setI_fault (s : State) (a : Word) : (s.setI a).fault = s.fault := rfl
@[simp] theorem State.setI_res (s : State) (a : Word) : (s.setI a).res = s.res := rfl
@[simp] theorem State.setI_pix (s : State) (a : Word) : (s.setI a).pix = s.pix := rfl
@[simp] theorem State.setI_held (s : State) (a : Word) : (s.setI a).held = s.held := rfl
@[simp] theorem State.setI_pending (s : State) (a : Word) : (s.setI a).pending = s.pending := rfl
@[simp] theorem State.setI_mem (s : State) (a : Word) : (s.setI a).mem = s.mem := rfl
@[simp] theorem State.setI_sched (s : State) (a : Word) : (s.setI a).sched = s.sched := rfl
@[simp] theorem State.setI_randIn (s : State) (a : Word) : (s.setI a).randIn = s.randIn := rfl
@[simp] theorem State.setI_draws (s : State) (a : Word) : (s.setI a).draws = s.draws := rfl
@[simp] theorem State.setI_keysIn (s : State) (a : Word) : (s.setI a).keysIn = s.keysIn := rfl
@[simp] theorem State.setI_samples (s : State) (a : Word) : (s.setI a).samples = s.samples := rfl
@[simp] theorem State.setI_out (s : State) (a : Word) : (s.setI a).out = s.out := rfl

/-! ### State.advanceI -/

@[simp] theorem State.advanceI_cfg (s : State) (x : RegIdx) :
    (s.advanceI x).cfg = s.cfg := by unfold State.advanceI; split <;> rfl
@[simp] theorem State.advanceI_v (s : State) (x : RegIdx) :
    (s.advanceI x).v = s.v := by unfold State.advanceI; split <;> rfl
@[simp] theorem State.advanceI_pc (s : State) (x : RegIdx) :
    (s.advanceI x).pc = s.pc := by unfold State.advanceI; split <;> rfl
@[simp] theorem State.advanceI_i (s : State) (x : RegIdx) :
    (s.advanceI x).i = if s.qcr.memory then s.i + BitVec.ofNat 16 (x.val + 1) else s.i := by unfold State.advanceI; split <;> rfl
@[simp] theorem State.advanceI_ir (s : State) (x : RegIdx) :
    (s.advanceI x).ir = s.ir := by unfold State.advanceI; split <;> rfl
@[simp] theorem State.advanceI_dt (s : State) (x : RegIdx) :
    (s.advanceI x).dt = s.dt := by unfold State.advanceI; split <;> rfl
@[simp] theorem State.advanceI_st (s : State) (x : RegIdx) :
    (s.advanceI x).st = s.st := by unfold State.advanceI; split <;> rfl
@[simp] theorem State.advanceI_rpl (s : State) (x : RegIdx) :
    (s.advanceI x).rpl = s.rpl := by unfold State.advanceI; split <;> rfl
@[simp] theorem State.advanceI_stack (s : State) (x : RegIdx) :
    (s.advanceI x).stack = s.stack := by unfold State.advanceI; split <;> rfl
@[simp] theorem State.advanceI_qcr (s : State) (x : RegIdx) :
    (s.advanceI x).qcr = s.qcr := by unfold State.advanceI; split <;> rfl
@[simp] theorem State.advanceI_runState (s : State) (x : RegIdx) :
    (s.advanceI x).runState = s.runState := by unfold State.advanceI; split <;> rfl
@[simp] theorem State.advanceI_redraw (s : State) (x : RegIdx) :
    (s.advanceI x).redraw = s.redraw := by unfold State.advanceI; split <;> rfl
@[simp] theorem State.advanceI_fault (s : State) (x : RegIdx) :
    (s.advanceI x).fault = s.fault := by unfold State.advanceI; split <;> rfl
@[simp] theorem State.advanceI_res (s : State) (x : RegIdx) :
    (s.advanceI x).res = s.res := by unfold State.advanceI; split <;> rfl
@[simp] theorem State.advanceI_pix (s : State) (x : RegIdx) :
    (s.advanceI x).pix = s.pix := by unfold State.advanceI; split <;> rfl
@[simp] theorem State.advanceI_held (s : State) (x : RegIdx) :
    (s.advanceI x).held = s.held := by unfold State.advanceI; split <;> rfl
@[simp] theorem State.advanceI_pending (s : State) (x : RegIdx) :
    (s.advanceI x).pending = s.pending := by unfold State.advanceI; split <;> rfl
@[simp] theorem State.advanceI_mem (s : State) (x : RegIdx) :
    (s.advanceI x).mem = s.mem := by unfold State.advanceI; split <;> rfl
@[simp] theorem State.advanceI_sched (s : State) (x : RegIdx) :
    (s.advanceI x).sched = s.sched := by unfold State.advanceI; split <;> rfl
@[simp] theorem State.advanceI_randIn (s : State) (x : RegIdx) :
    (s.advanceI x).randIn = s.randIn := by unfold State.advanceI; split <;> rfl
@[simp] theorem State.advanceI_draws (s : State) (x : RegIdx) :
    (s.advanceI x).draws = s.draws := by unfold State.advanceI; split <;> rfl
@[simp] theorem State.advanceI_keysIn (s : State) (x : RegIdx) :
    (s.advanceI x).keysIn = s.keysIn := by unfold State.advanceI; split <;> rfl
@[simp] theorem State.advanceI_samples (s : State) (x : RegIdx) :
    (s.advanceI x).samples = s.samples := by unfold State.advanceI; split <;> rfl
@[simp] theorem State.advanceI_out (s : State) (x : RegIdx) :
    (s.advanceI x).out = s.out := by unfold State.advanceI; split <;> rfl

/-! ### State.fetched -/

@[simp] theorem State.fetched_cfg (s : State) (w : Word) : (s.fetched w).cfg = s.cfg := rfl
@[simp] theorem State.fetched_v (s : State) (w : Word) : (s.fetched w).v = s.v := rfl
@[simp] theorem State.fetched_pc (s : State) (w : Word) : (s.fetched w).pc = s.pc + 2#16 := rfl
@[simp] theorem State.fetched_i (s : State) (w : Word) : (s.fetched w).i = s.i := rfl
@[simp] theorem State.fetched_ir (s : State) (w : Word) : (s.fetched w).ir = w := rfl
@[simp] theorem State.fetched_dt (s : State) (w : Word) : (s.fetched w).dt = s.dt := rfl
@[simp] theorem State.fetched_st (s : State) (w : Word) : (s.fetched w).st = s.st := rfl
@[simp] theorem State.fetched_rpl (s : State) (w : Word) : (s.fetched w).rpl = s.rpl := rfl
@[simp] theorem State.fetched_stack (s : State) (w : Word) : (s.fetched w).stack = s.stack := rfl
@[simp] theorem State.fetched_qcr (s : State) (w : Word) : (s.fetched w).qcr = s.qcr := rfl
@[simp] theorem State.fetched_runState (s : State) (w : Word) : (s.fetched w).runState = s.runState := rfl
@[simp] theorem State.fetched_redraw (s : State) (w : Word) : (s.fetched w).redraw = s.redraw := rfl
@[simp] theorem State.fetched_fault (s : State) (w : Word) : (s.fetched w).fault = s.fault := rfl
@[simp] theorem State.fetched_res (s : State) (w : Word) : (s.fetched w).res = s.res := rfl
@[simp] theorem State.fetched_pix (s : State) (w : Word) : (s.fetched w).pix = s.pix := rfl
@[simp] theorem State.fetched_held (s : State) (w : Word) : (s.fetched w).held = s.held := rfl
@[simp] theorem State.fetched_pending (s : State) (w : Word) : (s.fetched w).pending = s.pending := rfl
@[simp] theorem State.fetched_mem (s : State) (w : Word) : (s.fetched w).mem = s.mem := rfl
@[simp] theorem State.fetched_sched (s : State) (w : Word) : (s.fetched w).sched = s.sched := rfl
@[simp] theorem State.fetched_randIn (s : State) (w : Word) : (s.fetched w).randIn = s.randIn := rfl
@[simp] theorem State.fetched_draws (s : State) (w : Word) : (s.fetched w).draws = s.draws := rfl
@[simp] theorem State.fetched_keysIn (s : State) (w : Word) : (s.fetched w).keysIn = s.keysIn := rfl
@[simp] theorem State.fetched_samples (s : State) (w : Word) : (s.fetched w).samples = s.samples := rfl
@[simp] theorem State.fetched_out (s : State) (w : Word) : (s.fetched w).out = s.out := rfl

/-! ### State.undefinedOpcode -/

@[simp] theorem State.undefinedOpcode_cfg (s : State) : (s.undefinedOpcode).cfg = s.cfg := rfl
@[simp] theorem State.undefinedOpcode_v (s : State) : (s.undefinedOpcode).v = s.v := rfl
@[simp] theorem State.undefinedOpcode_pc (s : State) : (s.undefinedOpcode).pc = s.pc := rfl
@[simp] theorem State.undefinedOpcode_i (s : State) : (s.undefinedOpcode).i = s.i := rfl
@[simp] theorem State.undefinedOpcode_ir (s : State) : (s.undefinedOpcode).ir = s.ir := rfl
@[simp] theorem State.undefinedOpcode_dt (s : State) : (s.undefinedOpcode).dt = s.dt := rfl
@[simp] theorem State.undefinedOpcode_st (s : State) : (s.undefinedOpcode).st = s.st := rfl
@[simp] theorem State.undefinedOpcode_rpl (s : State) : (s.undefinedOpcode).rpl = s.rpl := rfl
@[simp] theorem State.undefinedOpcode_stack (s : State) : (s.undefinedOpcode).stack = s.stack := rfl
@[simp] theorem State.undefinedOpcode_qcr (s : State) : (s.undefinedOpcode).qcr = s.qcr := rfl
@[simp] theorem State.undefinedOpcode_runState (s : State) : (s.undefinedOpcode).runState = s.runState := rfl
@[simp] theorem State.undefinedOpcode_redraw (s : State) : (s.undefinedOpcode).redraw = s.redraw := rfl
@[simp] theorem State.undefinedOpcode_fault (s : State) : (s.undefinedOpcode).fault = s.fault := rfl
@[simp] theorem State.undefinedOpcode_res (s : State) : (s.undefinedOpcode).res = s.res := rfl
@[simp] theorem State.undefinedOpcode_pix (s : State) : (s.undefinedOpcode).pix = s.pix := rfl
@[simp] theorem State.undefinedOpcode_held (s : State) : (s.undefinedOpcode).held = s.held := rfl
@[simp] theorem State.undefinedOpcode_pending (s : State) : (s.undefinedOpcode).pending = s.pending := rfl
@[simp] theorem State.undefinedOpcode_mem (s : State) : (s.undefinedOpcode).mem = s.mem := rfl
@[simp] theorem State.undefinedOpcode_sched (s : State) : (s.undefinedOpcode).sched = s.sched := rfl
@[simp] theorem State.undefinedOpcode_randIn (s : State) : (s.undefinedOpcode).randIn = s.randIn := rfl
@[simp] theorem State.undefinedOpcode_draws (s : State) : (s.undefinedOpcode).draws = s.draws := rfl
@[simp] theorem State.undefinedOpcode_keysIn (s : State) : (s.undefinedOpcode).keysIn = s.keysIn := rfl
@[simp] theorem State.undefinedOpcode_samples (s : State) : (s.undefinedOpcode).samples = s.samples := rfl
@[simp] theorem State.undefinedOpcode_out (s : State) :
    (s.undefinedOpcode).out = s.out ++ [.undefinedOpcode s.instrAddr s.ir] := rfl

/-! ### State.afterDraw -/

@[simp] theorem State.afterDraw_cfg (s : State) :
    (s.afterDraw).cfg = s.cfg := by unfold State.afterDraw; split <;> rfl
@[simp] theorem State.afterDraw_v (s : State) :
    (s.afterDraw).v = s.v := by unfold State.afterDraw; split <;> rfl
@[simp] theorem State.afterDraw_pc (s : State) :
    (s.afterDraw).pc = s.pc := by unfold State.afterDraw; split <;> rfl
@[simp] theorem State.afterDraw_i (s : State) :
    (s.afterDraw).i = s.i := by unfold State.afterDraw; split <;> rfl
@[simp] theorem State.afterDraw_ir (s : State) :
    (s.afterDraw).ir = s.ir := by unfold State.afterDraw; split <;> rfl
@[simp] theorem State.afterDraw_dt (s : State) :
    (s.afterDraw).dt = s.dt := by unfold State.afterDraw; split <;> rfl
@[simp] theorem State.afterDraw_st (s : State) :
    (s.afterDraw).st = s.st := by unfold State.afterDraw; split <;> rfl
@[simp] theorem State.afterDraw_rpl (s : State) :
    (s.afterDraw).rpl = s.rpl := by unfold State.afterDraw; split <;> rfl
@[simp] theorem State.afterDraw_stack (s : State) :
    (s.afterDraw).stack = s.stack := by unfold State.afterDraw; split <;> rfl
@[simp] theorem State.afterDraw_qcr (s : State) :
    (s.afterDraw).qcr = s.qcr := by unfold State.afterDraw; split <;> rfl
@[simp] theorem State.afterDraw_runState (s : State) :
    (s.afterDraw).runState = s.runState := by unfold State.afterDraw; split <;> rfl
@[simp] theorem State.afterDraw_redraw (s : State) :
    (s.afterDraw).redraw = s.redraw := by unfold State.afterDraw; split <;> rfl
@[simp] theorem State.afterDraw_fault (s : State) :
    (s.afterDraw).fault = s.fault := by unfold State.afterDraw; split <;> rfl
@[simp] theorem State.afterDraw_res (s : State) :
    (s.afterDraw).res = s.res := by unfold State.afterDraw; split <;> rfl
@[simp] theorem State.afterDraw_pix (s : State) :
    (s.afterDraw).pix = s.pix := by unfold State.afterDraw; split <;> rfl
@[simp] theorem State.afterDraw_held (s : State) :
    (s.afterDraw).held = s.held := by unfold State.afterDraw; split <;> rfl
@[simp] theorem State.afterDraw_pending (s : State) :
    (s.afterDraw).pending = s.pending := by unfold State.afterDraw; split <;> rfl
@[simp] theorem State.afterDraw_mem (s : State) :
    (s.afterDraw).mem = s.mem := by unfold State.afterDraw; split <;> rfl
@[simp] theorem State.afterDraw_sched (s : State) :
    (s.afterDraw).sched = s.sched := by unfold State.afterDraw; split <;> rfl
@[simp] theorem State.afterDraw_randIn (s : State) :
    (s.afterDraw).randIn = s.randIn.tail := by unfold State.afterDraw; split <;> simp_all
@[simp] theorem State.afterDraw_draws (s : State) :
    (s.afterDraw).draws = if s.randIn = [] then s.draws + 1 else s.draws := by unfold State.afterDraw; split <;> simp_all
@[simp] theorem State.afterDraw_keysIn (s : State) :
    (s.afterDraw).keysIn = s.keysIn := by unfold State.afterDraw; split <;> rfl
@[simp] theorem State.afterDraw_samples (s : State) :
    (s.afterDraw).samples = s.samples := by unfold State.afterDraw; split <;> rfl
@[simp] theorem State.afterDraw_out (s : State) :
    (s.afterDraw).out = s.out := by unfold State.afterDraw; split <;> rfl

/-! ### State.afterSample -/

@[simp] theorem State.afterSample_cfg (s : State) :
    (s.afterSample).cfg = s.cfg := by unfold State.afterSample; split <;> rfl
@[simp] theorem State.afterSample_v (s : State) :
    (s.afterSample).v = s.v := by unfold State.afterSample; split <;> rfl
@[simp] theorem State.afterSample_pc (s : State) :
    (s.afterSample).pc = s.pc := by unfold State.afterSample; split <;> rfl
@[simp] theorem State.afterSample_i (s : State) :
    (s.afterSample).i = s.i := by unfold State.afterSample; split <;> rfl
@[simp] theorem State.afterSample_ir (s : State) :
    (s.afterSample).ir = s.ir := by unfold State.afterSample; split <;> rfl
@[simp] theorem State.afterSample_dt (s : State) :
    (s.afterSample).dt = s.dt := by unfold State.afterSample; split <;> rfl
@[simp] theorem State.afterSample_st (s : State) :
    (s.afterSample).st = s.st := by unfold State.afterSample; split <;> rfl
@[simp] theorem State.afterSample_rpl (s : State) :
    (s.afterSample).rpl = s.rpl := by unfold State.afterSample; split <;> rfl
@[simp] theorem State.afterSample_stack (s : State) :
    (s.afterSample).stack = s.stack := by unfold State.afterSample; split <;> rfl
@[simp] theorem State.afterSample_qcr (s : State) :
    (s.afterSample).qcr = s.qcr := by unfold State.afterSample; split <;> rfl
@[simp] theorem State.afterSample_runState (s : State) :
    (s.afterSample).runState = s.runState := by unfold State.afterSample; split <;> rfl
@[simp] theorem State.afterSample_redraw (s : State) :
    (s.afterSample).redraw = s.redraw := by unfold State.afterSample; split <;> rfl
@[simp] theorem State.afterSample_fault (s : State) :
    (s.afterSample).fault = s.fault := by unfold State.afterSample; split <;> rfl
@[simp] theorem State.afterSample_res (s : State) :
    (s.afterSample).res = s.res := by unfold State.afterSample; split <;> rfl
@[simp] theorem State.afterSample_pix (s : State) :
    (s.afterSample).pix = s.pix := by unfold State.afterSample; split <;> rfl
@[simp] theorem State.afterSample_held (s : State) :
    (s.afterSample).held = s.held := by unfold State.afterSample; split <;> rfl
@[simp] theorem State.afterSample_pending (s : State) :
    (s.afterSample).pending = s.pending := by unfold State.afterSample; split <;> rfl
@[simp] theorem State.afterSample_mem (s : State) :
    (s.afterSample).mem = s.mem := by unfold State.afterSample; split <;> rfl
@[simp] theorem State.afterSample_sched (s : State) :
    (s.afterSample).sched = s.sched := by unfold State.afterSample; split <;> rfl
@[simp] theorem State.afterSample_randIn (s : State) :
    (s.afterSample).randIn = s.randIn := by unfold State.afterSample; split <;> rfl
@[simp] theorem State.afterSample_draws (s : State) :
    (s.afterSample).draws = s.draws := by unfold State.afterSample; split <;> rfl
@[simp] theorem State.afterSample_keysIn (s : State) :
    (s.afterSample).keysIn = s.keysIn.tail := by unfold State.afterSample; split <;> simp_all
@[simp] theorem State.afterSample_samples (s : State) :
    (s.afterSample).samples = if s.keysIn = [] then s.samples + 1 else s.samples := by unfold State.afterSample; split <;> simp_all
@[simp] theorem State.afterSample_out (s : State) :
    (s.afterSample).out = s.out := by unfold State.afterSample; split <;> rfl

/-! ### State.logicFlag -/

@[simp] theorem State.logicFlag_cfg (s : State) :
    (s.logicFlag).cfg = s.cfg := by unfold State.logicFlag; split <;> rfl
@[simp] theorem State.logicFlag_v (s : State) :
    (s.logicFlag).v = if s.qcr.vfReset then s.v.set vf 0x00#8 else s.v := by unfold State.logicFlag; split <;> rfl
@[simp] theorem State.logicFlag_pc (s : State) :
    (s.logicFlag).pc = s.pc := by unfold State.logicFlag; split <;> rfl
@[simp] theorem State.logicFlag_i (s : State) :
    (s.logicFlag).i = s.i := by unfold State.logicFlag; split <;> rfl
@[simp] theorem State.logicFlag_ir (s : State) :
    (s.logicFlag).ir = s.ir := by unfold State.logicFlag; split <;> rfl
@[simp] theorem State.logicFlag_dt (s : State) :
    (s.logicFlag).dt = s.dt := by unfold State.logicFlag; split <;> rfl
@[simp] theorem State.logicFlag_st (s : State) :
    (s.logicFlag).st = s.st := by unfold State.logicFlag; split <;> rfl
@[simp] theorem State.logicFlag_rpl (s : State) :
    (s.logicFlag).rpl = s.rpl := by unfold State.logicFlag; split <;> rfl
@[simp] theorem State.logicFlag_stack (s : State) :
    (s.logicFlag).stack = s.stack := by unfold State.logicFlag; split <;> rfl
@[simp] theorem State.logicFlag_qcr (s : State) :
    (s.logicFlag).qcr = s.qcr := by unfold State.logicFlag; split <;> rfl
@[simp] theorem State.logicFlag_runState (s : State) :
    (s.logicFlag).runState = s.runState := by unfold State.logicFlag; split <;> rfl
@[simp] theorem State.logicFlag_redraw (s : State) :
    (s.logicFlag).redraw = s.redraw := by unfold State.logicFlag; split <;> rfl
@[simp] theorem State.logicFlag_fault (s : State) :
    (s.logicFlag).fault = s.fault := by unfold State.logicFlag; split <;> rfl
@[simp] theorem State.logicFlag_res (s : State) :
    (s.logicFlag).res = s.res := by unfold State.logicFlag; split <;> rfl
@[simp] theorem State.logicFlag_pix (s : State) :
    (s.logicFlag).pix = s.pix := by unfold State.logicFlag; split <;> rfl
@[simp] theorem State.logicFlag_held (s : State) :
    (s.logicFlag).held = s.held := by unfold State.logicFlag; split <;> rfl
@[simp] theorem State.logicFlag_pending (s : State) :
    (s.logicFlag).pending = s.pending := by unfold State.logicFlag; split <;> rfl
@[simp] theorem State.logicFlag_mem (s : State) :
    (s.logicFlag).mem = s.mem := by unfold State.logicFlag; split <;> rfl
@[simp] theorem State.logicFlag_sched (s : State) :
    (s.logicFlag).sched = s.sched := by unfold State.logicFlag; split <;> rfl
@[simp] theorem State.logicFlag_randIn (s : State) :
    (s.logicFlag).randIn = s.randIn := by unfold State.logicFlag; split <;> rfl
@[simp] theorem State.logicFlag_draws (s : State) :
    (s.logicFlag).draws = s.draws := by unfold State.logicFlag; split <;> rfl
@[simp] theorem State.logicFlag_keysIn (s : State) :
    (s.logicFlag).keysIn = s.keysIn := by unfold State.logicFlag; split <;> rfl
@[simp] theorem State.logicFlag_samples (s : State) :
    (s.logicFlag).samples = s.samples := by unfold State.logicFlag; split <;> rfl
@[simp] theorem State.logicFlag_out (s : State) :
    (s.logicFlag).out = s.out := by unfold State.logicFlag; split <;> rfl

/-! ### State.indexFlag -/

@[simp] theorem State.indexFlag_cfg (s : State) (b : Byte) :
    (s.indexFlag b).cfg = s.cfg := by unfold State.indexFlag; split <;> rfl
@[simp] theorem State.indexFlag_v (s : State) (b : Byte) :
    (s.indexFlag b).v = if s.qcr.ioverflow then s.v.set vf b else s.v := by unfold State.indexFlag; split <;> rfl
@[simp] theorem State.indexFlag_pc (s : State) (b : Byte) :
    (s.indexFlag b).pc = s.pc := by unfold State.indexFlag; split <;> rfl
@[simp] theorem State.indexFlag_i (s : State) (b : Byte) :
    (s.indexFlag b).i = s.i := by unfold State.indexFlag; split <;> rfl
@[simp] theorem State.indexFlag_ir (s : State) (b : Byte) :
    (s.indexFlag b).ir = s.ir := by unfold State.indexFlag; split <;> rfl
@[simp] theorem State.indexFlag_dt (s : State) (b : Byte) :
    (s.indexFlag b).dt = s.dt := by unfold State.indexFlag; split <;> rfl
@[simp] theorem State.indexFlag_st (s : State) (b : Byte) :
    (s.indexFlag b).st = s.st := by unfold State.indexFlag; split <;> rfl
@[simp] theorem State.indexFlag_rpl (s : State) (b : Byte) :
    (s.indexFlag b).rpl = s.rpl := by unfold State.indexFlag; split <;> rfl
@[simp] theorem State.indexFlag_stack (s : State) (b : Byte) :
    (s.indexFlag b).stack = s.stack := by unfold State.indexFlag; split <;> rfl
@[simp] theorem State.indexFlag_qcr (s : State) (b : Byte) :
    (s.indexFlag b).qcr = s.qcr := by unfold State.indexFlag; split <;> rfl
@[simp] theorem State.indexFlag_runState (s : State) (b : Byte) :
    (s.indexFlag b).runState = s.runState := by unfold State.indexFlag; split <;> rfl
@[simp] theorem State.indexFlag_redraw (s : State) (b : Byte) :
    (s.indexFlag b).redraw = s.redraw := by unfold State.indexFlag; split <;> rfl
@[simp] theorem State.indexFlag_fault (s : State) (b : Byte) :
    (s.indexFlag b).fault = s.fault := by unfold State.indexFlag; split <;> rfl
@[simp] theorem State.indexFlag_res (s : State) (b : Byte) :
    (s.indexFlag b).res = s.res := by unfold State.indexFlag; split <;> rfl
@[simp] theorem State.indexFlag_pix (s : State) (b : Byte) :
    (s.indexFlag b).pix = s.pix := by unfold State.indexFlag; split <;> rfl
@[simp] theorem State.indexFlag_held (s : State) (b : Byte) :
    (s.indexFlag b).held = s.held := by unfold State.indexFlag; split <;> rfl
@[simp] theorem State.indexFlag_pending (s : State) (b : Byte) :
    (s.indexFlag b).pending = s.pending := by unfold State.indexFlag; split <;> rfl
@[simp] theorem State.indexFlag_mem (s : State) (b : Byte) :
    (s.indexFlag b).mem = s.mem := by unfold State.indexFlag; split <;> rfl
@[simp] theorem State.indexFlag_sched (s : State) (b : Byte) :
    (s.indexFlag b).sched = s.sched := by unfold State.indexFlag; split <;> rfl
@[simp] theorem State.indexFlag_randIn (s : State) (b : Byte) :
    (s.indexFlag b).randIn = s.randIn := by unfold State.indexFlag; split <;> rfl
@[simp] theorem State.indexFlag_draws (s : State) (b : Byte) :
    (s.indexFlag b).draws = s.draws := by unfold State.indexFlag; split <;> rfl
@[simp] theorem State.indexFlag_keysIn (s : State) (b : Byte) :
    (s.indexFlag b).keysIn = s.keysIn := by unfold State.indexFlag; split <;> rfl
@[simp] theorem State.indexFlag_samples (s : State) (b : Byte) :
    (s.indexFlag b).samples = s.samples := by unfold State.indexFlag; split <;> rfl
@[simp] theorem State.indexFlag_out (s : State) (b : Byte) :
    (s.indexFlag b).out = s.out := by unfold State.indexFlag; split <;> rfl

/-! ### State.setRedraw -/

@[simp] theorem State.setRedraw_cfg (s : State) : (s.setRedraw).cfg = s.cfg := rfl
@[simp] theorem State.setRedraw_v (s : State) : (s.setRedraw).v = s.v := rfl
@[simp] theorem State.setRedraw_pc (s : State) : (s.setRedraw).pc = s.pc := rfl
@[simp] theorem State.setRedraw_i (s : State) : (s.setRedraw).i = s.i := rfl
@[simp] theorem State.setRedraw_ir (s : State) : (s.setRedraw).ir = s.ir := rfl
@[simp] theorem State.setRedraw_dt (s : State) : (s.setRedraw).dt = s.dt := rfl
@[simp] theorem State.setRedraw_st (s : State) : (s.setRedraw).st = s.st := rfl
@[simp] theorem State.setRedraw_rpl (s : State) : (s.setRedraw).rpl = s.rpl := rfl
@[simp] theorem State.setRedraw_stack (s : State) : (s.setRedraw).stack = s.stack := rfl
@[simp] theorem State.setRedraw_qcr (s : State) : (s.setRedraw).qcr = s.qcr := rfl
@[simp] theorem State.setRedraw_runState (s : State) : (s.setRedraw).runState = s.runState := rfl
@[simp] theorem State.setRedraw_redraw (s : State) : (s.setRedraw).redraw = true := rfl
@[simp] theorem State.setRedraw_fault (s : State) : (s.setRedraw).fault = s.fault := rfl
@[simp] theorem State.setRedraw_res (s : State) : (s.setRedraw).res = s.res := rfl
@[simp] theorem State.setRedraw_pix (s : State) : (s.setRedraw).pix = s.pix := rfl
@[simp] theorem State.setRedraw_held (s : State) : (s.setRedraw).held = s.held := rfl
@[simp] theorem State.setRedraw_pending (s : State) : (s.setRedraw).pending = s.pending := rfl
@[simp] theorem State.setRedraw_mem (s : State) : (s.setRedraw).mem = s.mem := rfl
@[simp] theorem State.setRedraw_sched (s : State) : (s.setRedraw).sched = s.sched := rfl
@[simp] theorem State.setRedraw_randIn (s : State) : (s.setRedraw).randIn = s.randIn := rfl
@[simp] theorem State.setRedraw_draws (s : State) : (s.setRedraw).draws = s.draws := rfl
@[simp] theorem State.setRedraw_keysIn (s : State) : (s.setRedraw).keysIn = s.keysIn := rfl
@[simp] theorem State.setRedraw_samples (s : State) : (s.setRedraw).samples = s.samples := rfl
@[simp] theorem State.setRedraw_out (s : State) : (s.setRedraw).out = s.out := rfl

/-! ### State.dispClear -/

@[simp] theorem State.dispClear_cfg (s : State) : (s.dispClear).cfg = s.cfg := rfl
@[simp] theorem State.dispClear_v (s : State) : (s.dispClear).v = s.v := rfl
@[simp] theorem State.dispClear_pc (s : State) : (s.dispClear).pc = s.pc := rfl
@[simp] theorem State.dispClear_i (s : State) : (s.dispClear).i = s.i := rfl
@[simp] theorem State.dispClear_ir (s : State) : (s.dispClear).ir = s.ir := rfl
@[simp] theorem State.dispClear_dt (s : State) : (s.dispClear).dt = s.dt := rfl
@[simp] theorem State.dispClear_st (s : State) : (s.dispClear).st = s.st := rfl
@[simp] theorem State.dispClear_rpl (s : State) : (s.dispClear).rpl = s.rpl := rfl
@[simp] theorem State.dispClear_stack (s : State) : (s.dispClear).stack = s.stack := rfl
@[simp] theorem State.dispClear_qcr (s : State) : (s.dispClear).qcr = s.qcr := rfl
@[simp] theorem State.dispClear_runState (s : State) : (s.dispClear).runState = s.runState := rfl
@[simp] theorem State.dispClear_redraw (s : State) : (s.dispClear).redraw = s.redraw := rfl
@[simp] theorem State.dispClear_fault (s : State) : (s.dispClear).fault = s.fault := rfl
@[simp] theorem State.dispClear_res (s : State) : (s.dispClear).res = s.res := rfl
@[simp] theorem State.dispClear_pix (s : State) : (s.dispClear).pix = Grid.blank s.width s.height := rfl
@[simp] theorem State.dispClear_held (s : State) : (s.dispClear).held = s.held := rfl
@[simp] theorem State.dispClear_pending (s : State) : (s.dispClear).pending = s.pending := rfl
@[simp] theorem State.dispClear_mem (s : State) : (s.dispClear).mem = s.mem := rfl
@[simp] theorem State.dispClear_sched (s : State) : (s.dispClear).sched = s.sched := rfl
@[simp] theorem State.dispClear_randIn (s : State) : (s.dispClear).randIn = s.randIn := rfl
@[simp] theorem State.dispClear_draws (s : State) : (s.dispClear).draws = s.draws := rfl
@[simp] theorem State.dispClear_keysIn (s : State) : (s.dispClear).keysIn = s.keysIn := rfl
@[simp] theorem State.dispClear_samples (s : State) : (s.dispClear).samples = s.samples := rfl
@[simp] theorem State.dispClear_out (s : State) : (s.dispClear).out = s.out := rfl

/-! ### State.dispSetResolution -/

@[simp] theorem State.dispSetResolution_cfg (s : State) (r : Resolution) :
    (s.dispSetResolution r).cfg = s.cfg := rfl
@[simp] theorem State.dispSetResolution_v (s : State) (r : Resolution) :
    (s.dispSetResolution r).v = s.v := rfl
@[simp] theorem State.dispSetResolution_pc (s : State) (r : Resolution) :
    (s.dispSetResolution r).pc = s.pc := rfl
@[simp] theorem State.dispSetResolution_i (s : State) (r : Resolution) :
    (s.dispSetResolution r).i = s.i := rfl
@[simp] theorem State.dispSetResolution_ir (s : State) (r : Resolution) :
    (s.dispSetResolution r).ir = s.ir := rfl
@[simp] theorem State.dispSetResolution_dt (s : State) (r : Resolution) :
    (s.dispSetResolution r).dt = s.dt := rfl
@[simp] theorem State.dispSetResolution_st (s : State) (r : Resolution) :
    (s.dispSetResolution r).st = s.st := rfl
@[simp] theorem State.dispSetResolution_rpl (s : State) (r : Resolution) :
    (s.dispSetResolution r).rpl = s.rpl := rfl
@[simp] theorem State.dispSetResolution_stack (s : State) (r : Resolution) :
    (s.dispSetResolution r).stack = s.stack := rfl
@[simp] theorem State.dispSetResolution_qcr (s : State) (r : Resolution) :
    (s.dispSetResolution r).qcr = s.qcr := rfl
@[simp] theorem State.dispSetResolution_runState (s : State) (r : Resolution) :
    (s.dispSetResolution r).runState = s.runState := rfl
@[simp] theorem State.dispSetResolution_redraw (s : State) (r : Resolution) :
    (s.dispSetResolution r).redraw = s.redraw := rfl
@[simp] theorem State.dispSetResolution_fault (s : State) (r : Resolution) :
    (s.dispSetResolution r).fault = s.fault := rfl
@[simp] theorem State.dispSetResolution_res (s : State) (r : Resolution) :
    (s.dispSetResolution r).res = r := rfl
@[simp] theorem State.dispSetResolution_held (s : State) (r : Resolution) :
    (s.dispSetResolution r).held = s.held := rfl
@[simp] theorem State.dispSetResolution_pending (s : State) (r : Resolution) :
    (s.dispSetResolution r).pending = s.pending := rfl
@[simp] theorem State.dispSetResolution_mem (s : State) (r : Resolution) :
    (s.dispSetResolution r).mem = s.mem := rfl
@[simp] theorem State.dispSetResolution_sched (s : State) (r : Resolution) :
    (s.dispSetResolution r).sched = s.sched := rfl
@[simp] theorem State.dispSetResolution_randIn (s : State) (r : Resolution) :
    (s.dispSetResolution r).randIn = s.randIn := rfl
@[simp] theorem State.dispSetResolution_draws (s : State) (r : Resolution) :
    (s.dispSetResolution r).draws = s.draws := rfl
@[simp] theorem State.dispSetResolution_keysIn (s : State) (r : Resolution) :
    (s.dispSetResolution r).keysIn = s.keysIn := rfl
@[simp] theorem State.dispSetResolution_samples (s : State) (r : Resolution) :
    (s.dispSetResolution r).samples = s.samples := rfl
@[simp] theorem State.dispSetResolution_out (s : State) (r : Resolution) :
    (s.dispSetResolution r).out = s.out := rfl

/-! ### State.dispScrollDown -/

@[simp] theorem State.dispScrollDown_cfg (s : State) (k : Nat) : (s.dispScrollDown k).cfg = s.cfg := rfl
@[simp] theorem State.dispScrollDown_v (s : State) (k : Nat) : (s.dispScrollDown k).v = s.v := rfl
@[simp] theorem State.dispScrollDown_pc (s : State) (k : Nat) : (s.dispScrollDown k).pc = s.pc := rfl
@[simp] theorem State.dispScrollDown_i (s : State) (k : Nat) : (s.dispScrollDown k).i = s.i := rfl
@[simp] theorem State.dispScrollDown_ir (s : State) (k : Nat) : (s.dispScrollDown k).ir = s.ir := rfl
@[simp] theorem State.dispScrollDown_dt (s : State) (k : Nat) : (s.dispScrollDown k).dt = s.dt := rfl
@[simp] theorem State.dispScrollDown_st (s : State) (k : Nat) : (s.dispScrollDown k).st = s.st := rfl
@[simp] theorem State.dispScrollDown_rpl (s : State) (k : Nat) : (s.dispScrollDown k).rpl = s.rpl := rfl
@[simp] theorem State.dispScrollDown_stack (s : State) (k : Nat) : (s.dispScrollDown k).stack = s.stack := rfl
@[simp] theorem State.dispScrollDown_qcr (s : State) (k : Nat) : (s.dispScrollDown k).qcr = s.qcr := rfl
@[simp] theorem State.dispScrollDown_runState (s : State) (k : Nat) :
    (s.dispScrollDown k).runState = s.runState := rfl
@[simp] theorem State.dispScrollDown_redraw (s : State) (k : Nat) :
    (s.dispScrollDown k).redraw = s.redraw := rfl
@[simp] theorem State.dispScrollDown_fault (s : State) (k : Nat) : (s.dispScrollDown k).fault = s.fault := rfl
@[simp] theorem State.dispScrollDown_res (s : State) (k : Nat) : (s.dispScrollDown k).res = s.res := rfl
@[simp] theorem State.dispScrollDown_held (s : State) (k : Nat) : (s.dispScrollDown k).held = s.held := rfl
@[simp] theorem State.dispScrollDown_pending (s : State) (k : Nat) :
    (s.dispScrollDown k).pending = s.pending := rfl
@[simp] theorem State.dispScrollDown_mem (s : State) (k : Nat) : (s.dispScrollDown k).mem = s.mem := rfl
@[simp] theorem State.dispScrollDown_sched (s : State) (k : Nat) : (s.dispScrollDown k).sched = s.sched := rfl
@[simp] theorem State.dispScrollDown_randIn (s : State) (k : Nat) :
    (s.dispScrollDown k).randIn = s.randIn := rfl
@[simp] theorem State.dispScrollDown_draws (s : State) (k : Nat) : (s.dispScrollDown k).draws = s.draws := rfl
@[simp] theorem State.dispScrollDown_keysIn (s : State) (k : Nat) :
    (s.dispScrollDown k).keysIn = s.keysIn := rfl
@[simp] theorem State.dispScrollDown_samples (s : State) (k : Nat) :
    (s.dispScrollDown k).samples = s.samples := rfl
@[simp] theorem State.dispScrollDown_out (s : State) (k : Nat) : (s.dispScrollDown k).out = s.out := rfl

/-! ### State.dispScrollRight -/

@[simp] theorem State.dispScrollRight_cfg (s : State) : (s.dispScrollRight).cfg = s.cfg := rfl
@[simp] theorem State.dispScrollRight_v (s : State) : (s.dispScrollRight).v = s.v := rfl
@[simp] theorem State.dispScrollRight_pc (s : State) : (s.dispScrollRight).pc = s.pc := rfl
@[simp] theorem State.dispScrollRight_i (s : State) : (s.dispScrollRight).i = s.i := rfl
@[simp] theorem State.dispScrollRight_ir (s : State) : (s.dispScrollRight).ir = s.ir := rfl
@[simp] theorem State.dispScrollRight_dt (s : State) : (s.dispScrollRight).dt = s.dt := rfl
@[simp] theorem State.dispScrollRight_st (s : State) : (s.dispScrollRight).st = s.st := rfl
@[simp] theorem State.dispScrollRight_rpl (s : State) : (s.dispScrollRight).rpl = s.rpl := rfl
@[simp] theorem State.dispScrollRight_stack (s : State) : (s.dispScrollRight).stack = s.stack := rfl
@[simp] theorem State.dispScrollRight_qcr (s : State) : (s.dispScrollRight).qcr = s.qcr := rfl
@[simp] theorem State.dispScrollRight_runState (s : State) : (s.dispScrollRight).runState = s.runState := rfl
@[simp] theorem State.dispScrollRight_redraw (s : State) : (s.dispScrollRight).redraw = s.redraw := rfl
@[simp] theorem State.dispScrollRight_fault (s : State) : (s.dispScrollRight).fault = s.fault := rfl
@[simp] theorem State.dispScrollRight_res (s : State) : (s.dispScrollRight).res = s.res := rfl
@[simp] theorem State.dispScrollRight_held (s : State) : (s.dispScrollRight).held = s.held := rfl
@[simp] theorem State.dispScrollRight_pending (s : State) : (s.dispScrollRight).pending = s.pending := rfl
@[simp] theorem State.dispScrollRight_mem (s : State) : (s.dispScrollRight).mem = s.mem := rfl
@[simp] theorem State.dispScrollRight_sched (s : State) : (s.dispScrollRight).sched = s.sched := rfl
@[simp] theorem State.dispScrollRight_randIn (s : State) : (s.dispScrollRight).randIn = s.randIn := rfl
@[simp] theorem State.dispScrollRight_draws (s : State) : (s.dispScrollRight).draws = s.draws := rfl
@[simp] theorem State.dispScrollRight_keysIn (s : State) : (s.dispScrollRight).keysIn = s.keysIn := rfl
@[simp] theorem State.dispScrollRight_samples (s : State) : (s.dispScrollRight).samples = s.samples := rfl
@[simp] theorem State.dispScrollRight_out (s : State) : (s.dispScrollRight).out = s.out := rfl

/-! ### State.dispScrollLeft -/

@[simp] theorem State.dispScrollLeft_cfg (s : State) : (s.dispScrollLeft).cfg = s.cfg := rfl
@[simp] theorem State.dispScrollLeft_v (s : State) : (s.dispScrollLeft).v = s.v := rfl
@[simp] theorem State.dispScrollLeft_pc (s : State) : (s.dispScrollLeft).pc = s.pc := rfl
@[simp] theorem State.dispScrollLeft_i (s : State) : (s.dispScrollLeft).i = s.i := rfl
@[simp] theorem State.dispScrollLeft_ir (s : State) : (s.dispScrollLeft).ir = s.ir := rfl
@[simp] theorem State.dispScrollLeft_dt (s : State) : (s.dispScrollLeft).dt = s.dt := rfl
@[simp] theorem State.dispScrollLeft_st (s : State) : (s.dispScrollLeft).st = s.st := rfl
@[simp] theorem State.dispScrollLeft_rpl (s : State) : (s.dispScrollLeft).rpl = s.rpl := rfl
@[simp] theorem State.dispScrollLeft_stack (s : State) : (s.dispScrollLeft).stack = s.stack := rfl
@[simp] theorem State.dispScrollLeft_qcr (s : State) : (s.dispScrollLeft).qcr = s.qcr := rfl
@[simp] theorem State.dispScrollLeft_runState (s : State) : (s.dispScrollLeft).runState = s.runState := rfl
@[simp] theorem State.dispScrollLeft_redraw (s : State) : (s.dispScrollLeft).redraw = s.redraw := rfl
@[simp] theorem State.dispScrollLeft_fault (s : State) : (s.dispScrollLeft).fault = s.fault := rfl
@[simp] theorem State.dispScrollLeft_res (s : State) : (s.dispScrollLeft).res = s.res := rfl
@[simp] theorem State.dispScrollLeft_held (s : State) : (s.dispScrollLeft).held = s.held := rfl
@[simp] theorem State.dispScrollLeft_pending (s : State) : (s.dispScrollLeft).pending = s.pending := rfl
@[simp] theorem State.dispScrollLeft_mem (s : State) : (s.dispScrollLeft).mem = s.mem := rfl
@[simp] theorem State.dispScrollLeft_sched (s : State) : (s.dispScrollLeft).sched = s.sched := rfl
@[simp] theorem State.dispScrollLeft_randIn (s : State) : (s.dispScrollLeft).randIn = s.randIn := rfl
@[simp] theorem State.dispScrollLeft_draws (s : State) : (s.dispScrollLeft).draws = s.draws := rfl
@[simp] theorem State.dispScrollLeft_keysIn (s : State) : (s.dispScrollLeft).keysIn = s.keysIn := rfl
@[simp] theorem State.dispScrollLeft_samples (s : State) : (s.dispScrollLeft).samples = s.samples := rfl
@[simp] theorem State.dispScrollLeft_out (s : State) : (s.dispScrollLeft).out = s.out := rfl

/-! ### State.drawSprite -/

@[simp] theorem State.drawSprite_cfg (s : State) (x y : RegIdx) (rows : List (List Bool)) :
    (s.drawSprite x y rows).cfg = s.cfg := rfl
@[simp] theorem State.drawSprite_pc (s : State) (x y : RegIdx) (rows : List (List Bool)) :
    (s.drawSprite x y rows).pc = s.pc := rfl
@[simp] theorem State.drawSprite_i (s : State) (x y : RegIdx) (rows : List (List Bool)) :
    (s.drawSprite x y rows).i = s.i := rfl
@[simp] theorem State.drawSprite_ir (s : State) (x y : RegIdx) (rows : List (List Bool)) :
    (s.drawSprite x y rows).ir = s.ir := rfl
@[simp] theorem State.drawSprite_dt (s : State) (x y : RegIdx) (rows : List (List Bool)) :
    (s.drawSprite x y rows).dt = s.dt := rfl
@[simp] theorem State.drawSprite_st (s : State) (x y : RegIdx) (rows : List (List Bool)) :
    (s.drawSprite x y rows).st = s.st := rfl
@[simp] theorem State.drawSprite_rpl (s : State) (x y : RegIdx) (rows : List (List Bool)) :
    (s.drawSprite x y rows).rpl = s.rpl := rfl
@[simp] theorem State.drawSprite_stack (s : State) (x y : RegIdx) (rows : List (List Bool)) :
    (s.drawSprite x y rows).stack = s.stack := rfl
@[simp] theorem State.drawSprite_qcr (s : State) (x y : RegIdx) (rows : List (List Bool)) :
    (s.drawSprite x y rows).qcr = s.qcr := rfl
@[simp] theorem State.drawSprite_runState (s : State) (x y : RegIdx) (rows : List (List Bool)) :
    (s.drawSprite x y rows).runState = s.runState := rfl
@[simp] theorem State.drawSprite_redraw (s : State) (x y : RegIdx) (rows : List (List Bool)) :
    (s.drawSprite x y rows).redraw = true := rfl
@[simp] theorem State.drawSprite_fault (s : State) (x y : RegIdx) (rows : List (List Bool)) :
    (s.drawSprite x y rows).fault = s.fault := rfl
@[simp] theorem State.drawSprite_res (s : State) (x y : RegIdx) (rows : List (List Bool)) :
    (s.drawSprite x y rows).res = s.res := rfl
@[simp] theorem State.drawSprite_held (s : State) (x y : RegIdx) (rows : List (List Bool)) :
    (s.drawSprite x y rows).held = s.held := rfl
@[simp] theorem State.drawSprite_pending (s : State) (x y : RegIdx) (rows : List (List Bool)) :
    (s.drawSprite x y rows).pending = s.pending := rfl
@[simp] theorem State.drawSprite_mem (s : State) (x y : RegIdx) (rows : List (List Bool)) :
    (s.drawSprite x y rows).mem = s.mem := rfl
@[simp] theorem State.drawSprite_sched (s : State) (x y : RegIdx) (rows : List (List Bool)) :
    (s.drawSprite x y rows).sched = s.sched := rfl
@[simp] theorem State.drawSprite_randIn (s : State) (x y : RegIdx) (rows : List (List Bool)) :
    (s.drawSprite x y rows).randIn = s.randIn := rfl
@[simp] theorem State.drawSprite_draws (s : State) (x y : RegIdx) (rows : List (List Bool)) :
    (s.drawSprite x y rows).draws = s.draws := rfl
@[simp] theorem State.drawSprite_keysIn (s : State) (x y : RegIdx) (rows : List (List Bool)) :
    (s.drawSprite x y rows).keysIn = s.keysIn := rfl
@[simp] theorem State.drawSprite_samples (s : State) (x y : RegIdx) (rows : List (List Bool)) :
    (s.drawSprite x y rows).samples = s.samples := rfl
@[simp] theorem State.drawSprite_out (s : State) (x y : RegIdx) (rows : List (List Bool)) :
    (s.drawSprite x y rows).out = s.out := rfl

/-! ### State.keyDown -/

@[simp] theorem State.keyDown_cfg (s : State) (k : Key) :
    (s.keyDown k).cfg = s.cfg := by unfold State.keyDown; split <;> rfl
@[simp] theorem State.keyDown_v (s : State) (k : Key) :
    (s.keyDown k).v = s.v := by unfold State.keyDown; split <;> rfl
@[simp] theorem State.keyDown_pc (s : State) (k : Key) :
    (s.keyDown k).pc = s.pc := by unfold State.keyDown; split <;> rfl
@[simp] theorem State.keyDown_i (s : State) (k : Key) :
    (s.keyDown k).i = s.i := by unfold State.keyDown; split <;> rfl
@[simp] theorem State.keyDown_ir (s : State) (k : Key) :
    (s.keyDown k).ir = s.ir := by unfold State.keyDown; split <;> rfl
@[simp] theorem State.keyDown_dt (s : State) (k : Key) :
    (s.keyDown k).dt = s.dt := by unfold State.keyDown; split <;> rfl
@[simp] theorem State.keyDown_st (s : State) (k : Key) :
    (s.keyDown k).st = s.st := by unfold State.keyDown; split <;> rfl
@[simp] theorem State.keyDown_rpl (s : State) (k : Key) :
    (s.keyDown k).rpl = s.rpl := by unfold State.keyDown; split <;> rfl
@[simp] theorem State.keyDown_stack (s : State) (k : Key) :
    (s.keyDown k).stack = s.stack := by unfold State.keyDown; split <;> rfl
@[simp] theorem State.keyDown_qcr (s : State) (k : Key) :
    (s.keyDown k).qcr = s.qcr := by unfold State.keyDown; split <;> rfl
@[simp] theorem State.keyDown_runState (s : State) (k : Key) :
    (s.keyDown k).runState = s.runState := by unfold State.keyDown; split <;> rfl
@[simp] theorem State.keyDown_redraw (s : State) (k : Key) :
    (s.keyDown k).redraw = s.redraw := by unfold State.keyDown; split <;> rfl
@[simp] theorem State.keyDown_fault (s : State) (k : Key) :
    (s.keyDown k).fault = s.fault := by unfold State.keyDown; split <;> rfl
@[simp] theorem State.keyDown_res (s : State) (k : Key) :
    (s.keyDown k).res = s.res := by unfold State.keyDown; split <;> rfl
@[simp] theorem State.keyDown_pix (s : State) (k : Key) :
    (s.keyDown k).pix = s.pix := by unfold State.keyDown; split <;> rfl
@[simp] theorem State.keyDown_pending (s : State) (k : Key) :
    (s.keyDown k).pending = s.pending := by unfold State.keyDown; split <;> rfl
@[simp] theorem State.keyDown_mem (s : State) (k : Key) :
    (s.keyDown k).mem = s.mem := by unfold State.keyDown; split <;> rfl
@[simp] theorem State.keyDown_sched (s : State) (k : Key) :
    (s.keyDown k).sched = s.sched := by unfold State.keyDown; split <;> rfl
@[simp] theorem State.keyDown_randIn (s : State) (k : Key) :
    (s.keyDown k).randIn = s.randIn := by unfold State.keyDown; split <;> rfl
@[simp] theorem State.keyDown_draws (s : State) (k : Key) :
    (s.keyDown k).draws = s.draws := by unfold State.keyDown; split <;> rfl
@[simp] theorem State.keyDown_keysIn (s : State) (k : Key) :
    (s.keyDown k).keysIn = s.keysIn := by unfold State.keyDown; split <;> rfl
@[simp] theorem State.keyDown_samples (s : State) (k : Key) :
    (s.keyDown k).samples = s.samples := by unfold State.keyDown; split <;> rfl
@[simp] theorem State.keyDown_out (s : State) (k : Key) :
    (s.keyDown k).out = s.out := by unfold State.keyDown; split <;> rfl

/-! ### State.keyUp -/

@[simp] theorem State.keyUp_cfg (s : State) (k : Key) :
    (s.keyUp k).cfg = s.cfg := by unfold State.keyUp; split <;> rfl
@[simp] theorem State.keyUp_v (s : State) (k : Key) :
    (s.keyUp k).v = s.v := by unfold State.keyUp; split <;> rfl
@[simp] theorem State.keyUp_pc (s : State) (k : Key) :
    (s.keyUp k).pc = s.pc := by unfold State.keyUp; split <;> rfl
@[simp] theorem State.keyUp_i (s : State) (k : Key) :
    (s.keyUp k).i = s.i := by unfold State.keyUp; split <;> rfl
@[simp] theorem State.keyUp_ir (s : State) (k : Key) :
    (s.keyUp k).ir = s.ir := by unfold State.keyUp; split <;> rfl
@[simp] theorem State.keyUp_dt (s : State) (k : Key) :
    (s.keyUp k).dt = s.dt := by unfold State.keyUp; split <;> rfl
@[simp] theorem State.keyUp_st (s : State) (k : Key) :
    (s.keyUp k).st = s.st := by unfold State.keyUp; split <;> rfl
@[simp] theorem State.keyUp_rpl (s : State) (k : Key) :
    (s.keyUp k).rpl = s.rpl := by unfold State.keyUp; split <;> rfl
@[simp] theorem State.keyUp_stack (s : State) (k : Key) :
    (s.keyUp k).stack = s.stack := by unfold State.keyUp; split <;> rfl
@[simp] theorem State.keyUp_qcr (s : State) (k : Key) :
    (s.keyUp k).qcr = s.qcr := by unfold State.keyUp; split <;> rfl
@[simp] theorem State.keyUp_runState (s : State) (k : Key) :
    (s.keyUp k).runState = s.runState := by unfold State.keyUp; split <;> rfl
@[simp] theorem State.keyUp_redraw (s : State) (k : Key) :
    (s.keyUp k).redraw = s.redraw := by unfold State.keyUp; split <;> rfl
@[simp] theorem State.keyUp_fault (s : State) (k : Key) :
    (s.keyUp k).fault = s.fault := by unfold State.keyUp; split <;> rfl
@[simp] theorem State.keyUp_res (s : State) (k : Key) :
    (s.keyUp k).res = s.res := by unfold State.keyUp; split <;> rfl
@[simp] theorem State.keyUp_pix (s : State) (k : Key) :
    (s.keyUp k).pix = s.pix := by unfold State.keyUp; split <;> rfl
@[simp] theorem State.keyUp_mem (s : State) (k : Key) :
    (s.keyUp k).mem = s.mem := by unfold State.keyUp; split <;> rfl
@[simp] theorem State.keyUp_sched (s : State) (k : Key) :
    (s.keyUp k).sched = s.sched := by unfold State.keyUp; split <;> rfl
@[simp] theorem State.keyUp_randIn (s : State) (k : Key) :
    (s.keyUp k).randIn = s.randIn := by unfold State.keyUp; split <;> rfl
@[simp] theorem State.keyUp_draws (s : State) (k : Key) :
    (s.keyUp k).draws = s.draws := by unfold State.keyUp; split <;> rfl
@[simp] theorem State.keyUp_keysIn (s : State) (k : Key) :
    (s.keyUp k).keysIn = s.keysIn := by unfold State.keyUp; split <;> rfl
@[simp] theorem State.keyUp_samples (s : State) (k : Key) :
    (s.keyUp k).samples = s.samples := by unfold State.keyUp; split <;> rfl
@[simp] theorem State.keyUp_out (s : State) (k : Key) :
    (s.keyUp k).out = s.out := by unfold State.keyUp; split <;> rfl

/-! ### State.keyboardReset -/

@[simp] theorem State.keyboardReset_cfg (s : State) : (s.keyboardReset).cfg = s.cfg := rfl
@[simp] theorem State.keyboardReset_v (s : State) : (s.keyboardReset).v = s.v := rfl
@[simp] theorem State.keyboardReset_pc (s : State) : (s.keyboardReset).pc = s.pc := rfl
@[simp] theorem State.keyboardReset_i (s : State) : (s.keyboardReset).i = s.i := rfl
@[simp] theorem State.keyboardReset_ir (s : State) : (s.keyboardReset).ir = s.ir := rfl
@[simp] theorem State.keyboardReset_dt (s : State) : (s.keyboardReset).dt = s.dt := rfl
@[simp] theorem State.keyboardReset_st (s : State) : (s.keyboardReset).st = s.st := rfl
@[simp] theorem State.keyboardReset_rpl (s : State) : (s.keyboardReset).rpl = s.rpl := rfl
@[simp] theorem State.keyboardReset_stack (s : State) : (s.keyboardReset).stack = s.stack := rfl
@[simp] theorem State.keyboardReset_qcr (s : State) : (s.keyboardReset).qcr = s.qcr := rfl
@[simp] theorem State.keyboardReset_runState (s : State) : (s.keyboardReset).runState = s.runState := rfl
@[simp] theorem State.keyboardReset_redraw (s : State) : (s.keyboardReset).redraw = s.redraw := rfl
@[simp] theorem State.keyboardReset_fault (s : State) : (s.keyboardReset).fault = s.fault := rfl
@[simp] theorem State.keyboardReset_res (s : State) : (s.keyboardReset).res = s.res := rfl
@[simp] theorem State.keyboardReset_pix (s : State) : (s.keyboardReset).pix = s.pix := rfl
@[simp] theorem State.keyboardReset_held (s : State) :
    (s.keyboardReset).held = Vector.replicate 16 false := rfl
@[simp] theorem State.keyboardReset_pending (s : State) : (s.keyboardReset).pending = none := rfl
@[simp] theorem State.keyboardReset_mem (s : State) : (s.keyboardReset).mem = s.mem := rfl
@[simp] theorem State.keyboardReset_sched (s : State) : (s.keyboardReset).sched = s.sched := rfl
@[simp] theorem State.keyboardReset_randIn (s : State) : (s.keyboardReset).randIn = s.randIn := rfl
@[simp] theorem State.keyboardReset_draws (s : State) : (s.keyboardReset).draws = s.draws := rfl
@[simp] theorem State.keyboardReset_keysIn (s : State) : (s.keyboardReset).keysIn = s.keysIn := rfl
@[simp] theorem State.keyboardReset_samples (s : State) : (s.keyboardReset).samples = s.samples := rfl
@[simp] theorem State.keyboardReset_out (s : State) : (s.keyboardReset).out = s.out := rfl

/-! ### State.emit -/

@[simp] theorem State.emit_cfg (s : State) (o : Output) : (s.emit o).cfg = s.cfg := rfl
@[simp] theorem State.emit_v (s : State) (o : Output) : (s.emit o).v = s.v := rfl
@[simp] theorem State.emit_pc (s : State) (o : Output) : (s.emit o).pc = s.pc := rfl
@[simp] theorem State.emit_i (s : State) (o : Output) : (s.emit o).i = s.i := rfl
@[simp] theorem State.emit_ir (s : State) (o : Output) : (s.emit o).ir = s.ir := rfl
@[simp] theorem State.emit_dt (s : State) (o : Output) : (s.emit o).dt = s.dt := rfl
@[simp] theorem State.emit_st (s : State) (o : Output) : (s.emit o).st = s.st := rfl
@[simp] theorem State.emit_rpl (s : State) (o : Output) : (s.emit o).rpl = s.rpl := rfl
@[simp] theorem State.emit_stack (s : State) (o : Output) : (s.emit o).stack = s.stack := rfl
@[simp] theorem State.emit_qcr (s : State) (o : Output) : (s.emit o).qcr = s.qcr := rfl
@[simp] theorem State.emit_runState (s : State) (o : Output) : (s.emit o).runState = s.runState := rfl
@[simp] theorem State.emit_redraw (s : State) (o : Output) : (s.emit o).redraw = s.redraw := rfl
@[simp] theorem State.emit_fault (s : State) (o : Output) : (s.emit o).fault = s.fault := rfl
@[simp] theorem State.emit_res (s : State) (o : Output) : (s.emit o).res = s.res := rfl
@[simp] theorem State.emit_pix (s : State) (o : Output) : (s.emit o).pix = s.pix := rfl
@[simp] theorem State.emit_held (s : State) (o : Output) : (s.emit o).held = s.held := rfl
@[simp] theorem State.emit_pending (s : State) (o : Output) : (s.emit o).pending = s.pending := rfl
@[simp] theorem State.emit_mem (s : State) (o : Output) : (s.emit o).mem = s.mem := rfl
@[simp] theorem State.emit_sched (s : State) (o : Output) : (s.emit o).sched = s.sched := rfl
@[simp] theorem State.emit_randIn (s : State) (o : Output) : (s.emit o).randIn = s.randIn := rfl
@[simp] theorem State.emit_draws (s : State) (o : Output) : (s.emit o).draws = s.draws := rfl
@[simp] theorem State.emit_keysIn (s : State) (o : Output) : (s.emit o).keysIn = s.keysIn := rfl
@[simp] theorem State.emit_samples (s : State) (o : Output) : (s.emit o).samples = s.samples := rfl
@[simp] theorem State.emit_out (s : State) (o : Output) : (s.emit o).out = s.out ++ [o] := rfl

/-! ### State.tick -/

@[simp] theorem State.tick_cfg (s : State) :
    (s.tick).cfg = s.cfg := by unfold State.tick State.dispFlush; dsimp only; split <;> rfl
@[simp] theorem State.tick_v (s : State) :
    (s.tick).v = s.v := by unfold State.tick State.dispFlush; dsimp only; split <;> rfl
@[simp] theorem State.tick_pc (s : State) :
    (s.tick).pc = s.pc := by unfold State.tick State.dispFlush; dsimp only; split <;> rfl
@[simp] theorem State.tick_i (s : State) :
    (s.tick).i = s.i := by unfold State.tick State.dispFlush; dsimp only; split <;> rfl
@[simp] theorem State.tick_ir (s : State) :
    (s.tick).ir = s.ir := by unfold State.tick State.dispFlush; dsimp only; split <;> rfl
@[simp] theorem State.tick_dt (s : State) :
    (s.tick).dt = timerDown s.dt := by unfold State.tick State.dispFlush; dsimp only; split <;> rfl
@[simp] theorem State.tick_st (s : State) :
    (s.tick).st = timerDown s.st := by unfold State.tick State.dispFlush; dsimp only; split <;> rfl
@[simp] theorem State.tick_rpl (s : State) :
    (s.tick).rpl = s.rpl := by unfold State.tick State.dispFlush; dsimp only; split <;> rfl
@[simp] theorem State.tick_stack (s : State) :
    (s.tick).stack = s.stack := by unfold State.tick State.dispFlush; dsimp only; split <;> rfl
@[simp] theorem State.tick_qcr (s : State) :
    (s.tick).qcr = s.qcr := by unfold State.tick State.dispFlush; dsimp only; split <;> rfl
@[simp] theorem State.tick_runState (s : State) :
    (s.tick).runState = s.runState := by unfold State.tick State.dispFlush; dsimp only; split <;> rfl
@[simp] theorem State.tick_redraw (s : State) :
    (s.tick).redraw = false := by unfold State.tick; dsimp only; split <;> simp_all
@[simp] theorem State.tick_fault (s : State) :
    (s.tick).fault = s.fault := by unfold State.tick State.dispFlush; dsimp only; split <;> rfl
@[simp] theorem State.tick_res (s : State) :
    (s.tick).res = s.res := by unfold State.tick State.dispFlush; dsimp only; split <;> rfl
@[simp] theorem State.tick_pix (s : State) :
    (s.tick).pix = s.pix := by unfold State.tick State.dispFlush; dsimp only; split <;> rfl
@[simp] theorem State.tick_held (s : State) :
    (s.tick).held = s.held := by unfold State.tick State.dispFlush; dsimp only; split <;> rfl
@[simp] theorem State.tick_pending (s : State) :
    (s.tick).pending = s.pending := by unfold State.tick State.dispFlush; dsimp only; split <;> rfl
@[simp] theorem State.tick_mem (s : State) :
    (s.tick).mem = s.mem := by unfold State.tick State.dispFlush; dsimp only; split <;> rfl
@[simp] theorem State.tick_sched (s : State) :
    (s.tick).sched = s.sched := by unfold State.tick State.dispFlush; dsimp only; split <;> rfl
@[simp] theorem State.tick_randIn (s : State) :
    (s.tick).randIn = s.randIn := by unfold State.tick State.dispFlush; dsimp only; split <;> rfl
@[simp] theorem State.tick_draws (s : State) :
    (s.tick).draws = s.draws := by unfold State.tick State.dispFlush; dsimp only; split <;> rfl
@[simp] theorem State.tick_keysIn (s : State) :
    (s.tick).keysIn = s.keysIn := by unfold State.tick State.dispFlush; dsimp only; split <;> rfl
@[simp] theorem State.tick_samples (s : State) :
    (s.tick).samples = s.samples := by unfold State.tick State.dispFlush; dsimp only; split <;> rfl

/-! ### State.interpreterReset -/

@[simp] theorem State.interpreterReset_cfg (s : State) : (s.interpreterReset).cfg = s.cfg := rfl
@[simp] theorem State.interpreterReset_v (s : State) :
    (s.interpreterReset).v = Vector.replicate 16 0x00#8 := rfl
@[simp] theorem State.interpreterReset_pc (s : State) : (s.interpreterReset).pc = 0x0200#16 := rfl
@[simp] theorem State.interpreterReset_i (s : State) : (s.interpreterReset).i = 0x0000#16 := rfl
@[simp] theorem State.interpreterReset_ir (s : State) : (s.interpreterReset).ir = 0x0000#16 := rfl
@[simp] theorem State.interpreterReset_dt (s : State) : (s.interpreterReset).dt = 0x00#8 := rfl
@[simp] theorem State.interpreterReset_st (s : State) : (s.interpreterReset).st = 0x00#8 := rfl
@[simp] theorem State.interpreterReset_rpl (s : State) :
    (s.interpreterReset).rpl = Vector.replicate 8 0x00#8 := rfl
@[simp] theorem State.interpreterReset_stack (s : State) : (s.interpreterReset).stack = [] := rfl
@[simp] theorem State.interpreterReset_qcr (s : State) : (s.interpreterReset).qcr = s.qcr := rfl
@[simp] theorem State.interpreterReset_runState (s : State) : (s.interpreterReset).runState = .running := rfl
@[simp] theorem State.interpreterReset_redraw (s : State) : (s.interpreterReset).redraw = false := rfl
@[simp] theorem State.interpreterReset_fault (s : State) : (s.interpreterReset).fault = s.fault := rfl
@[simp] theorem State.interpreterReset_res (s : State) : (s.interpreterReset).res = s.res := rfl
@[simp] theorem State.interpreterReset_pix (s : State) : (s.interpreterReset).pix = s.pix := rfl
@[simp] theorem State.interpreterReset_held (s : State) : (s.interpreterReset).held = s.held := rfl
@[simp] theorem State.interpreterReset_pending (s : State) : (s.interpreterReset).pending = s.pending := rfl
@[simp] theorem State.interpreterReset_mem (s : State) : (s.interpreterReset).mem = s.mem := rfl
@[simp] theorem State.interpreterReset_sched (s : State) : (s.interpreterReset).sched = s.sched := rfl
@[simp] theorem State.interpreterReset_randIn (s : State) : (s.interpreterReset).randIn = s.randIn := rfl
@[simp] theorem State.interpreterReset_draws (s : State) : (s.interpreterReset).draws = s.draws := rfl
@[simp] theorem State.interpreterReset_keysIn (s : State) : (s.interpreterReset).keysIn = s.keysIn := rfl
@[simp] theorem State.interpreterReset_samples (s : State) : (s.interpreterReset).samples = s.samples := rfl
@[simp] theorem State.interpreterReset_out (s : State) : (s.interpreterReset).out = s.out := rfl

/-! ### State.load -/

@[simp] theorem State.load_cfg (s : State) (m : Option (List Byte)) :
    (s.load m).cfg = s.cfg := by unfold State.load; split <;> (try split) <;> rfl
@[simp] theorem State.load_v (s : State) (m : Option (List Byte)) :
    (s.load m).v = s.v := by unfold State.load; split <;> (try split) <;> rfl
@[simp] theorem State.load_pc (s : State) (m : Option (List Byte)) :
    (s.load m).pc = s.pc := by unfold State.load; split <;> (try split) <;> rfl
@[simp] theorem State.load_i (s : State) (m : Option (List Byte)) :
    (s.load m).i = s.i := by unfold State.load; split <;> (try split) <;> rfl
@[simp] theorem State.load_ir (s : State) (m : Option (List Byte)) :
    (s.load m).ir = s.ir := by unfold State.load; split <;> (try split) <;> rfl
@[simp] theorem State.load_dt (s : State) (m : Option (List Byte)) :
    (s.load m).dt = s.dt := by unfold State.load; split <;> (try split) <;> rfl
@[simp] theorem State.load_st (s : State) (m : Option (List Byte)) :
    (s.load m).st = s.st := by unfold State.load; split <;> (try split) <;> rfl
@[simp] theorem State.load_rpl (s : State) (m : Option (List Byte)) :
    (s.load m).rpl = s.rpl := by unfold State.load; split <;> (try split) <;> rfl
@[simp] theorem State.load_stack (s : State) (m : Option (List Byte)) :
    (s.load m).stack = s.stack := by unfold State.load; split <;> (try split) <;> rfl
@[simp] theorem State.load_qcr (s : State) (m : Option (List Byte)) :
    (s.load m).qcr = s.qcr := by unfold State.load; split <;> (try split) <;> rfl
@[simp] theorem State.load_runState (s : State) (m : Option (List Byte)) :
    (s.load m).runState = s.runState := by unfold State.load; split <;> (try split) <;> rfl
@[simp] theorem State.load_redraw (s : State) (m : Option (List Byte)) :
    (s.load m).redraw = s.redraw := by unfold State.load; split <;> (try split) <;> rfl
@[simp] theorem State.load_fault (s : State) (m : Option (List Byte)) :
    (s.load m).fault = s.fault := by unfold State.load; split <;> (try split) <;> rfl
@[simp] theorem State.load_res (s : State) (m : Option (List Byte)) :
    (s.load m).res = s.res := by unfold State.load; split <;> (try split) <;> rfl
@[simp] theorem State.load_pix (s : State) (m : Option (List Byte)) :
    (s.load m).pix = s.pix := by unfold State.load; split <;> (try split) <;> rfl
@[simp] theorem State.load_held (s : State) (m : Option (List Byte)) :
    (s.load m).held = s.held := by unfold State.load; split <;> (try split) <;> rfl
@[simp] theorem State.load_pending (s : State) (m : Option (List Byte)) :
    (s.load m).pending = s.pending := by unfold State.load; split <;> (try split) <;> rfl
@[simp] theorem State.load_sched (s : State) (m : Option (List Byte)) :
    (s.load m).sched = s.sched := by unfold State.load; split <;> (try split) <;> rfl
@[simp] theorem State.load_randIn (s : State) (m : Option (List Byte)) :
    (s.load m).randIn = s.randIn := by unfold State.load; split <;> (try split) <;> rfl
@[simp] theorem State.load_draws (s : State) (m : Option (List Byte)) :
    (s.load m).draws = s.draws := by unfold State.load; split <;> (try split) <;> rfl
@[simp] theorem State.load_keysIn (s : State) (m : Option (List Byte)) :
    (s.load m).keysIn = s.keysIn := by unfold State.load; split <;> (try split) <;> rfl
@[simp] theorem State.load_samples (s : State) (m : Option (List Byte)) :
    (s.load m).samples = s.samples := by unfold State.load; split <;> (try split) <;> rfl

/-! ### State.configWrite -/

@[simp] theorem State.configWrite_cfg (s : State) (n b : String) :
    (s.configWrite n b).cfg = s.cfg := by unfold State.configWrite; split <;> rfl
@[simp] theorem State.configWrite_v (s : State) (n b : String) :
    (s.configWrite n b).v = s.v := by unfold State.configWrite; split <;> rfl
@[simp] theorem State.configWrite_pc (s : State) (n b : String) :
    (s.configWrite n b).pc = s.pc := by unfold State.configWrite; split <;> rfl
@[simp] theorem State.configWrite_i (s : State) (n b : String) :
    (s.configWrite n b).i = s.i := by unfold State.configWrite; split <;> rfl
@[simp] theorem State.configWrite_ir (s : State) (n b : String) :
    (s.configWrite n b).ir = s.ir := by unfold State.configWrite; split <;> rfl
@[simp] theorem State.configWrite_dt (s : State) (n b : String) :
    (s.configWrite n b).dt = s.dt := by unfold State.configWrite; split <;> rfl
@[simp] theorem State.configWrite_st (s : State) (n b : String) :
    (s.configWrite n b).st = s.st := by unfold State.configWrite; split <;> rfl
@[simp] theorem State.configWrite_rpl (s : State) (n b : String) :
    (s.configWrite n b).rpl = s.rpl := by unfold State.configWrite; split <;> rfl
@[simp] theorem State.configWrite_stack (s : State) (n b : String) :
    (s.configWrite n b).stack = s.stack := by unfold State.configWrite; split <;> rfl
@[simp] theorem State.configWrite_runState (s : State) (n b : String) :
    (s.configWrite n b).runState = s.runState := by unfold State.configWrite; split <;> rfl
@[simp] theorem State.configWrite_redraw (s : State) (n b : String) :
    (s.configWrite n b).redraw = s.redraw := by unfold State.configWrite; split <;> rfl
@[simp] theorem State.configWrite_fault (s : State) (n b : String) :
    (s.configWrite n b).fault = s.fault := by unfold State.configWrite; split <;> rfl
@[simp] theorem State.configWrite_res (s : State) (n b : String) :
    (s.configWrite n b).res = s.res := by unfold State.configWrite; split <;> rfl
@[simp] theorem State.configWrite_pix (s : State) (n b : String) :
    (s.configWrite n b).pix = s.pix := by unfold State.configWrite; split <;> rfl
@[simp] theorem State.configWrite_held (s : State) (n b : String) :
    (s.configWrite n b).held = s.held := by unfold State.configWrite; split <;> rfl
@[simp] theorem State.configWrite_pending (s : State) (n b : String) :
    (s.configWrite n b).pending = s.pending := by unfold State.configWrite; split <;> rfl
@[simp] theorem State.configWrite_mem (s : State) (n b : String) :
    (s.configWrite n b).mem = s.mem := by unfold State.configWrite; split <;> rfl
@[simp] theorem State.configWrite_sched (s : State) (n b : String) :
    (s.configWrite n b).sched = s.sched := by unfold State.configWrite; split <;> rfl
@[simp] theorem State.configWrite_randIn (s : State) (n b : String) :
    (s.configWrite n b).randIn = s.randIn := by unfold State.configWrite; split <;> rfl
@[simp] theorem State.configWrite_draws (s : State) (n b : String) :
    (s.configWrite n b).draws = s.draws := by unfold State.configWrite; split <;> rfl
@[simp] theorem State.configWrite_keysIn (s : State) (n b : String) :
    (s.configWrite n b).keysIn = s.keysIn := by unfold State.configWrite; split <;> rfl
@[simp] theorem State.configWrite_samples (s : State) (n b : String) :
    (s.configWrite n b).samples = s.samples := by unfold State.configWrite; split <;> rfl

/-! ### State.preset -/

@[simp] theorem State.preset_cfg (s : State) (n : String) :
    (s.preset n).cfg = s.cfg := by unfold State.preset; split <;> rfl
@[simp] theorem State.preset_v (s : State) (n : String) :
    (s.preset n).v = s.v := by unfold State.preset; split <;> rfl
@[simp] theorem State.preset_pc (s : State) (n : String) :
    (s.preset n).pc = s.pc := by unfold State.preset; split <;> rfl
@[simp] theorem State.preset_i (s : State) (n : String) :
    (s.preset n).i = s.i := by unfold State.preset; split <;> rfl
@[simp] theorem State.preset_ir (s : State) (n : String) :
    (s.preset n).ir = s.ir := by unfold State.preset; split <;> rfl
@[simp] theorem State.preset_dt (s : State) (n : String) :
    (s.preset n).dt = s.dt := by unfold State.preset; split <;> rfl
@[simp] theorem State.preset_st (s : State) (n : String) :
    (s.preset n).st = s.st := by unfold State.preset; split <;> rfl
@[simp] theorem State.preset_rpl (s : State) (n : String) :
    (s.preset n).rpl = s.rpl := by unfold State.preset; split <;> rfl
@[simp] theorem State.preset_stack (s : State) (n : String) :
    (s.preset n).stack = s.stack := by unfold State.preset; split <;> rfl
@[simp] theorem State.preset_runState (s : State) (n : String) :
    (s.preset n).runState = s.runState := by unfold State.preset; split <;> rfl
@[simp] theorem State.preset_redraw (s : State) (n : String) :
    (s.preset n).redraw = s.redraw := by unfold State.preset; split <;> rfl
@[simp] theorem State.preset_fault (s : State) (n : String) :
    (s.preset n).fault = s.fault := by unfold State.preset; split <;> rfl
@[simp] theorem State.preset_res (s : State) (n : String) :
    (s.preset n).res = s.res := by unfold State.preset; split <;> rfl
@[simp] theorem State.preset_pix (s : State) (n : String) :
    (s.preset n).pix = s.pix := by unfold State.preset; split <;> rfl
@[simp] theorem State.preset_held (s : State) (n : String) :
    (s.preset n).held = s.held := by unfold State.preset; split <;> rfl
@[simp] theorem State.preset_pending (s : State) (n : String) :
    (s.preset n).pending = s.pending := by unfold State.preset; split <;> rfl
@[simp] theorem State.preset_mem (s : State) (n : String) :
    (s.preset n).mem = s.mem := by unfold State.preset; split <;> rfl
@[simp] theorem State.preset_sched (s : State) (n : String) :
    (s.preset n).sched = s.sched := by unfold State.preset; split <;> rfl
@[simp] theorem State.preset_randIn (s : State) (n : String) :
    (s.preset n).randIn = s.randIn := by unfold State.preset; split <;> rfl
@[simp] theorem State.preset_draws (s : State) (n : String) :
    (s.preset n).draws = s.draws := by unfold State.preset; split <;> rfl
@[simp] theorem State.preset_keysIn (s : State) (n : String) :
    (s.preset n).keysIn = s.keysIn := by unfold State.preset; split <;> rfl
@[simp] theorem State.preset_samples (s : State) (n : String) :
    (s.preset n).samples = s.samples := by unfold State.preset; split <;> rfl

/-! ### State.begin -/

@[simp] theorem State.begin_cfg (s : State) : (s.begin).cfg = s.cfg := rfl
@[simp] theorem State.begin_v (s : State) : (s.begin).v = s.v := rfl
@[simp] theorem State.begin_pc (s : State) : (s.begin).pc = s.pc := rfl
@[simp] theorem State.begin_i (s : State) : (s.begin).i = s.i := rfl
@[simp] theorem State.begin_ir (s : State) : (s.begin).ir = s.ir := rfl
@[simp] theorem State.begin_dt (s : State) : (s.begin).dt = s.dt := rfl
@[simp] theorem State.begin_st (s : State) : (s.begin).st = s.st := rfl
@[simp] theorem State.begin_rpl (s : State) : (s.begin).rpl = s.rpl := rfl
@[simp] theorem State.begin_stack (s : State) : (s.begin).stack = s.stack := rfl
@[simp] theorem State.begin_qcr (s : State) : (s.begin).qcr = s.qcr := rfl
@[simp] theorem State.begin_runState (s : State) : (s.begin).runState = s.runState := rfl
@[simp] theorem State.begin_redraw (s : State) : (s.begin).redraw = s.redraw := rfl
@[simp] theorem State.begin_fault (s : State) : (s.begin).fault = s.fault := rfl
@[simp] theorem State.begin_res (s : State) : (s.begin).res = s.res := rfl
@[simp] theorem State.begin_pix (s : State) : (s.begin).pix = s.pix := rfl
@[simp] theorem State.begin_held (s : State) : (s.begin).held = s.held := rfl
@[simp] theorem State.begin_pending (s : State) : (s.begin).pending = s.pending := rfl
@[simp] theorem State.begin_mem (s : State) : (s.begin).mem = s.mem := rfl
@[simp] theorem State.begin_sched (s : State) : (s.begin).sched = s.sched.tail := rfl
@[simp] theorem State.begin_randIn (s : State) : (s.begin).randIn = s.randIn := rfl
@[simp] theorem State.begin_draws (s : State) : (s.begin).draws = s.draws := rfl
@[simp] theorem State.begin_keysIn (s : State) : (s.begin).keysIn = s.keysIn := rfl
@[simp] theorem State.begin_samples (s : State) : (s.begin).samples = s.samples := rfl
@[simp] theorem State.begin_out (s : State) : (s.begin).out = [] := rfl

end Sys2Proof.Machine
end

