-- ==== Sys2Proof/Laws/Display.lean ====
section
/-! SUPPORT. The laws of the pixel grid: what a pixel is after each primitive, that each keeps the grid's shape, and
what a draw does to every pixel and to its hit flag. -/

namespace Sys2Proof.Machine

theorem Grid.get_eq (g : Grid) (x y : Nat) : g.get x y = ((g[y]?.getD [])[x]?).getD false := by
  simp [Grid.get, List.getD_eq_getElem?_getD]

theorem Grid.shaped_iff {w h : Nat} {g : Grid} :
    g.shaped w h = true ↔ g.length = h ∧ ∀ row ∈ g, row.length = w := by
  simp [Grid.shaped]

theorem Grid.row_length {w h : Nat} {g : Grid} (hg : g.shaped w h = true) {y : Nat} (hy : y < h) :
    ∃ row, g[y]? = some row ∧ row.length = w := by
  obtain ⟨hl, hr⟩ := Grid.shaped_iff.1 hg
  have hy' : y < g.length := by omega
  exact ⟨g[y], List.getElem?_eq_getElem hy', hr _ (List.getElem_mem hy')⟩

/-- Off the grid there is no set pixel. -/
theorem Grid.get_outside {w h : Nat} {g : Grid} (hg : g.shaped w h = true) {x y : Nat} (h' : ¬(x < w ∧ y < h)) :
    g.get x y = false := by
  rw [Grid.get_eq]
  obtain ⟨hl, hr⟩ := Grid.shaped_iff.1 hg
  by_cases hy : y < h
  · obtain ⟨row, e, hrow⟩ := Grid.row_length hg hy
    have hx : row.length ≤ x := by
      rw [hrow]; by_contra hx; exact h' ⟨by omega, hy⟩
    rw [e, Option.getD_some, List.getElem?_eq_none hx]
    rfl
  · have e : g[y]? = none := List.getElem?_eq_none (by omega)
    simp [e]

/-- A built grid holds what it was built from. -/
@[simp] theorem Grid.get_build (w h : Nat) (f : Nat → Nat → Bool) (x y : Nat) :
    (Grid.build w h f).get x y = (decide (x < w) && decide (y < h) && f x y) := by
  rw [Grid.get_eq]
  by_cases hy : y < h <;> by_cases hx : x < w <;>
    simp [Grid.build, hx, hy]

@[simp] theorem Grid.shaped_build (w h : Nat) (f : Nat → Nat → Bool) : (Grid.build w h f).shaped w h = true := by
  rw [Grid.shaped_iff]
  simp +contextual [Grid.build]

@[simp] theorem Grid.get_blank (w h x y : Nat) : (Grid.blank w h).get x y = false := by
  rw [Grid.get_eq]
  by_cases hy : y < h <;> by_cases hx : x < w <;> simp [Grid.blank, hx, hy]

@[simp] theorem Grid.shaped_blank (w h : Nat) : (Grid.blank w h).shaped w h = true := by
  rw [Grid.shaped_iff]
  simp +contextual [Grid.blank]

@[simp] theorem Grid.shaped_flip {w h : Nat} {g : Grid} (hg : g.shaped w h = true) (x y : Nat) :
    (g.flip x y).shaped w h = true := by
  obtain ⟨hl, hr⟩ := Grid.shaped_iff.1 hg
  refine Grid.shaped_iff.2 ⟨by simp [Grid.flip, hl], fun row hrow => ?_⟩
  obtain ⟨k, hk, rfl⟩ := List.getElem_of_mem hrow
  simp only [Grid.flip, List.length_modify] at hk
  simp only [Grid.flip, List.getElem_modify]
  split
  · simpa using hr _ (List.getElem_mem hk)
  · exact hr _ (List.getElem_mem hk)

/-- DispFlip toggles exactly the pixel it names. -/
theorem Grid.get_flip {w h : Nat} {g : Grid} (hg : g.shaped w h = true) {px py : Nat} (hx : px < w) (hy : py < h)
    (x y : Nat) : (g.flip px py).get x y = (g.get x y ^^ (decide (x = px) && decide (y = py))) := by
  obtain ⟨row, e, hrow⟩ := Grid.row_length hg hy
  rw [Grid.get_eq, Grid.get_eq]
  by_cases hyy : y = py
  · subst hyy
    by_cases hxx : x = px
    · subst hxx
      simp [Grid.flip, e, List.getElem?_eq_getElem (show x < row.length by omega)]
    · have hxx' : ¬px = x := fun h => hxx h.symm
      simp [Grid.flip, e, hxx, hxx']
  · have hyy' : ¬py = y := fun h => hyy h.symm
    simp [Grid.flip, hyy, hyy']

/-- Two grids of one shape with the same pixels are equal. -/
theorem Grid.ext_of_get {w h : Nat} {g k : Grid} (hg : g.shaped w h = true) (hk : k.shaped w h = true)
    (H : ∀ x y, x < w → y < h → g.get x y = k.get x y) : g = k := by
  obtain ⟨hgl, hgr⟩ := Grid.shaped_iff.1 hg
  obtain ⟨hkl, hkr⟩ := Grid.shaped_iff.1 hk
  refine List.ext_getElem (by omega) fun y h1 h2 => ?_
  have r1 := hgr _ (List.getElem_mem h1)
  have r2 := hkr _ (List.getElem_mem h2)
  refine List.ext_getElem (by omega) fun x h3 h4 => ?_
  have := H x y (by omega) (by omega)
  rw [Grid.get_eq, Grid.get_eq, List.getElem?_eq_getElem h1, List.getElem?_eq_getElem h2] at this
  simpa [List.getElem?_eq_getElem h3, List.getElem?_eq_getElem h4] using this

/-! ### Sprites -/

@[simp] theorem byteBits_length (b : Byte) : (byteBits b).length = 8 := by simp [byteBits]

/-- Column `c` of a small sprite row is bit 7 - c of its byte. -/
theorem byteBits_getD (b : Byte) (c : Nat) : (byteBits b).getD c false = (decide (c < 8) && b.getLsbD (7 - c)) := by
  by_cases hc : c < 8 <;> simp [List.getD_eq_getElem?_getD, hc, byteBits]

/-- Row `k` of a large sprite is its bytes 2k and 2k + 1, the first one left. -/
theorem largeRows_getD (bytes : List Byte) (m : Nat) (h : bytes.length = 2 * m) (k c : Nat) :
    ((largeRows bytes).getD k []).getD c false =
      (decide (k < m ∧ c < 16) && (bytes.getD (2 * k + c / 8) 0x00#8).getLsbD (7 - c % 8)) := by
  induction m generalizing bytes k with
  | zero =>
    obtain rfl : bytes = [] := List.length_eq_zero_iff.1 (by omega)
    simp [largeRows]
  | succ m ih =>
    match bytes, h with
    | l :: r :: rest, h =>
      cases k with
      | zero =>
        rw [largeRows, List.getD_cons_zero]
        by_cases h1 : c < 8
        · rw [List.getD_append _ _ _ _ (by simpa using h1), byteBits_getD]
          simp [h1, show c < 16 by omega, show c / 8 = 0 by omega, show c % 8 = c by omega]
        · rw [List.getD_append_right _ _ _ _ (by simp; omega), byteBits_length, byteBits_getD]
          by_cases h2 : c < 16
          · simp [h2, show c / 8 = 1 by omega, show c % 8 = c - 8 by omega, show c - 8 < 8 by omega]
          · simp [h2, show ¬c - 8 < 8 by omega]
      | succ k =>
        have := ih rest (by simp at h; omega) k
        rw [largeRows, List.getD_cons_succ, this, show 2 * (k + 1) + c / 8 = (2 * k + c / 8) + 1 + 1 by omega]
        simp

theorem drawRow_shaped (w h py px : Nat) (bits : List Bool) (c : Grid × Bool) (hc : c.1.shaped w h = true) :
    (drawRow w py px bits c).1.shaped w h = true := by
  induction bits generalizing px c with
  | nil => exact hc
  | cons bit bits ih =>
    obtain ⟨g, hit⟩ := c
    simp only [drawRow]
    refine ih _ _ ?_
    split
    · exact Grid.shaped_flip hc px py
    · exact hc

theorem drawRows_shaped (w h x0 py : Nat) (rows : List (List Bool)) (c : Grid × Bool) (hc : c.1.shaped w h = true) :
    (drawRows w h x0 py rows c).1.shaped w h = true := by
  induction rows generalizing py c with
  | nil => exact hc
  | cons row rows ih =>
    simp only [drawRows]
    refine ih _ _ ?_
    split
    · exact drawRow_shaped w h py x0 row c hc
    · exact hc

/-- Every pixel after one sprite row. -/
theorem drawRow_get {w h py : Nat} (hpy : py < h) (px : Nat) (bits : List Bool) (c : Grid × Bool)
    (hc : c.1.shaped w h = true) (x y : Nat) :
    (drawRow w py px bits c).1.get x y =
      (c.1.get x y ^^ (decide (y = py) && decide (x < w) && decide (px ≤ x) && bits.getD (x - px) false)) := by
  induction bits generalizing px c with
  | nil => simp [drawRow]
  | cons bit bits ih =>
    obtain ⟨g, hit⟩ := c
    simp only [drawRow]
    rcases Nat.lt_trichotomy x px with hlt | rfl | hgt
    · rw [ih]
      · split <;> rename_i hb
        · simp only [Bool.and_eq_true, decide_eq_true_eq] at hb
          rw [Grid.get_flip hc hb.2 hpy]
          simp [show ¬px + 1 ≤ x by omega, show ¬px ≤ x by omega, show ¬x = px by omega]
        · simp [show ¬px + 1 ≤ x by omega, show ¬px ≤ x by omega]
      · split
        · exact Grid.shaped_flip hc px py
        · exact hc
    · rw [ih]
      · split <;> rename_i hb
        · simp only [Bool.and_eq_true, decide_eq_true_eq] at hb
          rw [Grid.get_flip hc hb.2 hpy]
          simp [hb.1, hb.2]
        · by_cases hx : x < w
          · have : bit = false := by simpa [hx] using hb
            simp [this]
          · simp [hx]
      · split
        · exact Grid.shaped_flip hc x py
        · exact hc
    · obtain ⟨k, hk⟩ : ∃ k, x - px = k + 1 := ⟨x - px - 1, by omega⟩
      have hk' : x - (px + 1) = k := by omega
      rw [ih]
      · split <;> rename_i hb
        · simp only [Bool.and_eq_true, decide_eq_true_eq] at hb
          rw [Grid.get_flip hc hb.2 hpy]
          simp [show px + 1 ≤ x by omega, show px ≤ x by omega, show ¬x = px by omega, hk, hk']
        · simp [show px + 1 ≤ x by omega, show px ≤ x by omega, hk, hk']
      · split
        · exact Grid.shaped_flip hc px py
        · exact hc

/-- The hit flag after one sprite row: set before, or a set sprite pixel inside the right edge met a set pixel. -/
theorem drawRow_hit {w h py : Nat} (hpy : py < h) (px : Nat) (bits : List Bool) (c : Grid × Bool)
    (hc : c.1.shaped w h = true) :
    (drawRow w py px bits c).2 = true ↔
      c.2 = true ∨ ∃ x, x < w ∧ px ≤ x ∧ bits.getD (x - px) false = true ∧ c.1.get x py = true := by
  induction bits generalizing px c with
  | nil => simp [drawRow]
  | cons bit bits ih =>
    obtain ⟨g, hit⟩ := c
    simp only [drawRow]
    by_cases hb : (bit && decide (px < w)) = true
    · simp only [hb, if_true]
      rw [ih (px + 1) (g.flip px py, hit || g.get px py) (Grid.shaped_flip hc px py)]
      simp only [Bool.and_eq_true, decide_eq_true_eq] at hb
      constructor
      · rintro (h1 | ⟨x, hx, hpx, hbit, hget⟩)
        · rcases Bool.or_eq_true_iff.1 h1 with h1 | h1
          · exact .inl h1
          · exact .inr ⟨px, hb.2, le_rfl, by simp [hb.1], h1⟩
        · obtain ⟨k, hk⟩ : ∃ k, x - px = k + 1 := ⟨x - px - 1, by omega⟩
          refine .inr ⟨x, hx, by omega, ?_, ?_⟩
          · rw [hk, List.getD_cons_succ, ← show x - (px + 1) = k by omega]; exact hbit
          · rw [Grid.get_flip hc hb.2 hpy] at hget
            simpa [show ¬x = px by omega] using hget
      · rintro (h1 | ⟨x, hx, hpx, hbit, hget⟩)
        · exact .inl (by simp [show hit = true from h1])
        · by_cases hxp : x = px
          · subst hxp
            exact .inl (by simp [show g.get x py = true from hget])
          · obtain ⟨k, hk⟩ : ∃ k, x - px = k + 1 := ⟨x - px - 1, by omega⟩
            refine .inr ⟨x, hx, by omega, ?_, ?_⟩
            · rw [hk, List.getD_cons_succ] at hbit
              rw [show x - (px + 1) = k by omega]; exact hbit
            · rw [Grid.get_flip hc hb.2 hpy]
              simpa [hxp] using hget
    · simp only [if_neg hb]
      rw [ih (px + 1) (g, hit) hc]
      refine or_congr Iff.rfl ⟨?_, ?_⟩
      · rintro ⟨x, hx, hpx, hbit, hget⟩
        obtain ⟨k, hk⟩ : ∃ k, x - px = k + 1 := ⟨x - px - 1, by omega⟩
        refine ⟨x, hx, by omega, ?_, hget⟩
        rw [hk, List.getD_cons_succ, ← show x - (px + 1) = k by omega]; exact hbit
      · rintro ⟨x, hx, hpx, hbit, hget⟩
        by_cases hxp : x = px
        · subst hxp
          simp_all
        · obtain ⟨k, hk⟩ : ∃ k, x - px = k + 1 := ⟨x - px - 1, by omega⟩
          refine ⟨x, hx, by omega, ?_, hget⟩
          rw [hk, List.getD_cons_succ] at hbit
          rw [show x - (px + 1) = k by omega]; exact hbit

/-- Every pixel after a draw: flipped exactly where a set sprite pixel falls inside the grid. -/
theorem drawRows_get (w h x0 y0 : Nat) (rows : List (List Bool)) (c : Grid × Bool) (hc : c.1.shaped w h = true)
    (x y : Nat) :
    (drawRows w h x0 y0 rows c).1.get x y =
      (c.1.get x y ^^ (decide (x < w) && decide (y < h) && spriteBit rows x0 y0 x y)) := by
  induction rows generalizing y0 c with
  | nil => simp [drawRows, spriteBit]
  | cons row rows ih =>
    simp only [drawRows]
    have hs : (if y0 < h then drawRow w y0 x0 row c else c).1.shaped w h = true := by
      split
      · exact drawRow_shaped w h y0 x0 row c hc
      · exact hc
    rw [ih _ _ hs]
    have hrow : (if y0 < h then drawRow w y0 x0 row c else c).1.get x y =
        (c.1.get x y ^^ (decide (y0 < h) && (decide (y = y0) && decide (x < w) && decide (x0 ≤ x) &&
          row.getD (x - x0) false))) := by
      split <;> rename_i hy0
      · rw [drawRow_get hy0 x0 row c hc]; simp [hy0]
      · simp [hy0]
    rw [hrow]
    unfold spriteBit
    rcases Nat.lt_trichotomy y y0 with hlt | rfl | hgt
    · simp [show ¬y0 + 1 ≤ y by omega, show ¬y0 ≤ y by omega, show ¬y = y0 by omega]
    · by_cases hy : y < h <;> by_cases hx : x < w <;> by_cases hx0 : x0 ≤ x <;> simp [hy, hx, hx0]
    · obtain ⟨k, hk⟩ : ∃ k, y - y0 = k + 1 := ⟨y - y0 - 1, by omega⟩
      simp [show y0 + 1 ≤ y by omega, show y0 ≤ y by omega, show ¬y = y0 by omega, hk,
        show y - (y0 + 1) = k by omega]

/-- The hit flag after a draw: some set sprite pixel inside the grid met a pixel that was set before the draw. -/
theorem drawRows_hit (w h x0 y0 : Nat) (rows : List (List Bool)) (c : Grid × Bool) (hc : c.1.shaped w h = true) :
    (drawRows w h x0 y0 rows c).2 = true ↔
      c.2 = true ∨ ∃ x y, x < w ∧ y < h ∧ spriteBit rows x0 y0 x y = true ∧ c.1.get x y = true := by
  induction rows generalizing y0 c with
  | nil => simp [drawRows, spriteBit]
  | cons row rows ih =>
    simp only [drawRows]
    have split_rows : ∀ x y, spriteBit (row :: rows) x0 y0 x y = true ↔
        (y = y0 ∧ x0 ≤ x ∧ row.getD (x - x0) false = true) ∨ spriteBit rows x0 (y0 + 1) x y = true := by
      intro x y
      unfold spriteBit
      rcases Nat.lt_trichotomy y y0 with hlt | rfl | hgt
      · simp [show ¬y0 + 1 ≤ y by omega, show ¬y0 ≤ y by omega, show ¬y = y0 by omega]
      · simp
      · obtain ⟨k, hk⟩ : ∃ k, y - y0 = k + 1 := ⟨y - y0 - 1, by omega⟩
        simp [show y0 + 1 ≤ y by omega, show y0 ≤ y by omega, show ¬y = y0 by omega, hk,
          show y - (y0 + 1) = k by omega]
    have below : ∀ {x y}, spriteBit rows x0 (y0 + 1) x y = true → y ≠ y0 := by
      intro x y hb
      simp only [spriteBit, Bool.and_eq_true, decide_eq_true_eq] at hb
      omega
    by_cases hy0 : y0 < h
    · simp only [hy0, if_true]
      rw [ih _ _ (drawRow_shaped w h y0 x0 row c hc), drawRow_hit hy0 x0 row c hc]
      constructor
      · rintro ((h1 | ⟨x, hx, hx0, hb, hg⟩) | ⟨x, y, hx, hy, hb, hg⟩)
        · exact .inl h1
        · exact .inr ⟨x, y0, hx, hy0, (split_rows x y0).2 (.inl ⟨rfl, hx0, hb⟩), hg⟩
        · refine .inr ⟨x, y, hx, hy, (split_rows x y).2 (.inr hb), ?_⟩
          rw [drawRow_get hy0 x0 row c hc] at hg
          simpa [below hb] using hg
      · rintro (h1 | ⟨x, y, hx, hy, hb, hg⟩)
        · exact .inl (.inl h1)
        · rcases (split_rows x y).1 hb with ⟨rfl, hx0, hr⟩ | hb
          · exact .inl (.inr ⟨x, hx, hx0, hr, hg⟩)
          · refine .inr ⟨x, y, hx, hy, hb, ?_⟩
            rw [drawRow_get hy0 x0 row c hc]
            simpa [below hb] using hg
    · simp only [hy0, if_false]
      rw [ih _ _ hc]
      refine or_congr Iff.rfl ⟨?_, ?_⟩
      · rintro ⟨x, y, hx, hy, hb, hg⟩
        exact ⟨x, y, hx, hy, (split_rows x y).2 (.inr hb), hg⟩
      · rintro ⟨x, y, hx, hy, hb, hg⟩
        rcases (split_rows x y).1 hb with ⟨rfl, -, -⟩ | hb
        · omega
        · exact ⟨x, y, hx, hy, hb, hg⟩

/-! ### The primitives on a state -/

@[simp] theorem State.pixel_dispClear (s : State) (x y : Nat) : s.dispClear.pixel x y = false := by
  simp [State.pixel, State.dispClear]

@[simp] theorem State.pixel_dispSetResolution (s : State) (r : Resolution) (x y : Nat) :
    (s.dispSetResolution r).pixel x y = false := by
  simp [State.dispSetResolution]

theorem State.pixel_dispScrollDown (s : State) (k x y : Nat) :
    (s.dispScrollDown k).pixel x y =
      (decide (x < s.width) && decide (y < s.height) && (if y ≥ k then s.pixel x (y - k) else false)) := by
  simp only [State.pixel, State.dispScrollDown, Grid.get_build]

theorem State.pixel_dispScrollRight (s : State) (x y : Nat) :
    s.dispScrollRight.pixel x y =
      (decide (x < s.width) && decide (y < s.height) && (if x ≥ 4 then s.pixel (x - 4) y else false)) := by
  simp only [State.pixel, State.dispScrollRight, Grid.get_build]

theorem State.pixel_dispScrollLeft (s : State) (x y : Nat) :
    s.dispScrollLeft.pixel x y =
      (decide (x < s.width) && decide (y < s.height) && (if x + 4 < s.width then s.pixel (x + 4) y else false)) := by
  simp only [State.pixel, State.dispScrollLeft, Grid.get_build]

/-- Every pixel after a draw. -/
theorem State.pixel_drawSprite (s : State) (x y : RegIdx) (rows : List (List Bool))
    (hs : s.pix.shaped s.width s.height = true) (px py : Nat) :
    (s.drawSprite x y rows).pixel px py =
      (s.pixel px py ^^
        (decide (px < s.width) && decide (py < s.height) && spriteBit rows (s.drawX x) (s.drawY y) px py)) :=
  drawRows_get s.width s.height (s.drawX x) (s.drawY y) rows (s.pix, false) hs px py

/-- VF after a draw is the collision flag; no other register changes. -/
theorem State.getV_drawSprite (s : State) (x y q : RegIdx) (rows : List (List Bool)) :
    (s.drawSprite x y rows).getV q =
      if q = vf then
        collisionFlag (drawRows s.width s.height (s.drawX x) (s.drawY y) rows (s.pix, false)).2
      else s.getV q := by
  simp only [State.drawSprite, State.getV, State.setRedraw, State.setV, Fin.getElem_fin, Vector.getElem_set,
    Fin.ext_iff, eq_comm]

end Sys2Proof.Machine
end

