-- ==== Sys2Proof/Laws/Memory.lean ====
section
/-! SUPPORT. The laws of byte memory: a read after a write, the canonical form, the address range. -/

namespace Sys2Proof.Machine

@[simp] theorem Memory.read_nil (a : Nat) : Memory.read [] a = Memory.unlisted := rfl

theorem Memory.read_cons (k : Nat) (b : Byte) (rest : Memory) (a : Nat) :
    Memory.read ((k, b) :: rest) a = if k = a then b else Memory.read rest a := rfl

theorem Memory.wf_cons (k : Nat) (b : Byte) (rest : Memory) :
    Memory.wf ((k, b) :: rest) = true ↔
      b ≠ Memory.unlisted ∧ (∀ c ∈ rest, k < c.1) ∧ Memory.wf rest = true := by
  simp [Memory.wf, and_assoc]

/-- An address below every listed one reads as unlisted. -/
theorem Memory.read_below {m : Memory} {a : Nat} (h : ∀ c ∈ m, a < c.1) : m.read a = Memory.unlisted := by
  induction m with
  | nil => rfl
  | cons c rest ih =>
    obtain ⟨k, b⟩ := c
    have hk : a < k := h (k, b) (by simp)
    rw [Memory.read_cons, if_neg (by omega)]
    exact ih fun c hc => h c (by simp [hc])

/-- A write leaves every other address alone. -/
theorem Memory.read_write_other (m : Memory) {a b : Nat} (v : Byte) (h : b ≠ a) : (m.write a v).read b = m.read b := by
  induction m with
  | nil =>
    simp only [Memory.write]
    split
    · rfl
    · rw [Memory.read_cons, if_neg (by omega)]
  | cons c rest ih =>
    obtain ⟨k, w⟩ := c
    simp only [Memory.write]
    split
    · split
      · rfl
      · rw [Memory.read_cons, if_neg (by omega)]
    · split
      · subst a
        split
        · rw [Memory.read_cons, if_neg (by omega)]
        · rw [Memory.read_cons, Memory.read_cons, if_neg (by omega), if_neg (by omega)]
      · rw [Memory.read_cons, Memory.read_cons, ih]

/-- A read after a write to the same address gives the value written. -/
theorem Memory.read_write_same {m : Memory} (hm : m.wf = true) (a : Nat) (v : Byte) : (m.write a v).read a = v := by
  induction m with
  | nil =>
    simp only [Memory.write]
    split
    · simp_all
    · rw [Memory.read_cons, if_pos rfl]
  | cons c rest ih =>
    obtain ⟨k, w⟩ := c
    obtain ⟨hw, hlt, hr⟩ := (Memory.wf_cons k w rest).1 hm
    simp only [Memory.write]
    split
    · rename_i hak
      split
      · rename_i hv
        rw [hv]
        refine Memory.read_below fun c hc => ?_
        rcases List.mem_cons.1 hc with rfl | hc
        · exact hak
        · exact lt_trans hak (hlt c hc)
      · rw [Memory.read_cons, if_pos rfl]
    · split
      · subst a
        split
        · rename_i hv
          rw [hv]
          exact Memory.read_below hlt
        · rw [Memory.read_cons, if_pos rfl]
      · rw [Memory.read_cons, if_neg (by omega), ih hr]

theorem Memory.read_write {m : Memory} (hm : m.wf = true) (a b : Nat) (v : Byte) :
    (m.write a v).read b = if b = a then v else m.read b := by
  split
  · subst b; exact Memory.read_write_same hm a v
  · exact Memory.read_write_other m v ‹_›

/-- What a listed address of a written memory can be. -/
theorem Memory.mem_write {m : Memory} {a : Nat} {v : Byte} {c : Host.Cell} (h : c ∈ m.write a v) :
    c = (a, v) ∨ c ∈ m := by
  induction m with
  | nil =>
    simp only [Memory.write] at h
    split at h <;> simp_all
  | cons d rest ih =>
    obtain ⟨k, w⟩ := d
    simp only [Memory.write] at h
    split at h
    · split at h
      · exact .inr h
      · exact List.mem_cons.1 h
    · split at h
      · subst a
        split at h
        · exact .inr (List.mem_cons_of_mem _ h)
        · rcases List.mem_cons.1 h with h | h
          · exact .inl h
          · exact .inr (List.mem_cons_of_mem _ h)
      · rcases List.mem_cons.1 h with h | h
        · exact .inr (by simp [h])
        · exact (ih h).imp id fun h => List.mem_cons_of_mem _ h

/-- A write keeps the canonical form. -/
theorem Memory.wf_write {m : Memory} (hm : m.wf = true) (a : Nat) (v : Byte) : (m.write a v).wf = true := by
  induction m with
  | nil =>
    simp only [Memory.write]
    split
    · rfl
    · exact (Memory.wf_cons a v []).2 ⟨‹_›, by simp, rfl⟩
  | cons c rest ih =>
    obtain ⟨k, w⟩ := c
    obtain ⟨hw, hlt, hr⟩ := (Memory.wf_cons k w rest).1 hm
    simp only [Memory.write]
    split
    · rename_i hak
      split
      · exact hm
      · refine (Memory.wf_cons a v _).2 ⟨‹_›, fun c hc => ?_, hm⟩
        rcases List.mem_cons.1 hc with rfl | hc
        · exact hak
        · exact lt_trans hak (hlt c hc)
    · split
      · split
        · exact hr
        · subst a
          exact (Memory.wf_cons k v rest).2 ⟨‹_›, hlt, hr⟩
      · refine (Memory.wf_cons k w _).2 ⟨hw, fun c hc => ?_, ih hr⟩
        rcases Memory.mem_write hc with rfl | hc
        · simp only; omega
        · exact hlt c hc

theorem Memory.within_iff {n : Nat} {m : Memory} : m.within n = true ↔ ∀ c ∈ m, c.1 < n := by
  simp [Memory.within]

/-- A write inside the address space keeps every listed address inside it. -/
theorem Memory.within_write {n : Nat} {m : Memory} (hm : m.within n = true) {a : Nat} (ha : a < n) (v : Byte) :
    (m.write a v).within n = true := by
  rw [Memory.within_iff] at *
  intro c hc
  rcases Memory.mem_write hc with rfl | hc
  · exact ha
  · exact hm c hc

/-! ### Writes of several bytes -/

@[simp] theorem Memory.writeAll_nil (m : Memory) (a : Nat) : m.writeAll a [] = m := by
  unfold Memory.writeAll; rfl

theorem Memory.writeAll_cons (m : Memory) (a : Nat) (b : Byte) (bs : List Byte) :
    m.writeAll a (b :: bs) = (m.write a b).writeAll (a + 1) bs := rfl

theorem Memory.wf_writeAll {m : Memory} (hm : m.wf = true) (a : Nat) (bs : List Byte) : (m.writeAll a bs).wf = true := by
  induction bs generalizing m a with
  | nil => simpa using hm
  | cons b bs ih => exact ih (Memory.wf_write hm a b) (a + 1)

theorem Memory.within_writeAll {n : Nat} {m : Memory} (hm : m.within n = true) {a : Nat} {bs : List Byte}
    (h : a + bs.length ≤ n) : (m.writeAll a bs).within n = true := by
  induction bs generalizing m a with
  | nil => simpa using hm
  | cons b bs ih =>
    simp only [List.length_cons] at h
    exact ih (Memory.within_write hm (by omega) b) (by omega)

/-- A byte outside the range written reads as before. -/
theorem Memory.read_writeAll_other (m : Memory) (a : Nat) (bs : List Byte) {b : Nat} (h : b < a ∨ a + bs.length ≤ b) :
    (m.writeAll a bs).read b = m.read b := by
  induction bs generalizing m a with
  | nil => simp
  | cons x bs ih =>
    simp only [List.length_cons] at h
    rw [Memory.writeAll_cons, ih _ _ (by omega), Memory.read_write_other _ _ (by omega)]

/-- A byte inside the range written reads as the byte written there. -/
theorem Memory.read_writeAll_inside {m : Memory} (hm : m.wf = true) (a : Nat) (bs : List Byte) {k : Nat}
    (h : k < bs.length) : (m.writeAll a bs).read (a + k) = bs[k] := by
  induction bs generalizing m a k with
  | nil => simp at h
  | cons x bs ih =>
    rw [Memory.writeAll_cons]
    cases k with
    | zero =>
      rw [Memory.read_writeAll_other _ _ _ (by omega)]
      simpa using Memory.read_write_same hm a x
    | succ k =>
      have hk : k < bs.length := by simpa using h
      have := ih (Memory.wf_write hm a x) (a + 1) hk
      simpa [Nat.add_assoc, Nat.add_comm 1 k] using this

/-- The memory an accepted LOAD leaves is in canonical form. -/
theorem loadedMemory_wf (c : Config) (image : List Byte) : (loadedMemory c image).wf = true :=
  Memory.wf_writeAll (Memory.wf_writeAll (Memory.wf_writeAll rfl _ _) _ _) _ _

/-- With legal parameters and an image that fits, it lies inside the address space. -/
theorem loadedMemory_within {c : Config} (hc : c.Legal) {image : List Byte}
    (h : image.length ≤ c.memSize - Config.progBase) : (loadedMemory c image).within c.memSize = true := by
  obtain ⟨h1, h2, h3, h4, h5, h6, h7⟩ := hc
  simp only [Config.progBase] at *
  refine Memory.within_writeAll (Memory.within_writeAll (Memory.within_writeAll rfl ?_) ?_) ?_
  · omega
  · omega
  · simp only [Config.progBase]; omega

end Sys2Proof.Machine
end

