-- ==== Sys2Proof/Laws/Ops.lean ====
section
/-! SUPPORT. One lemma for each shared operation that says everything it can do; proofs cite these and unfold nothing. -/

namespace Sys2Proof.Machine

@[simp] theorem Flow.bind_go {α β : Type} (a : α) (k : α → Flow β) : (Flow.go a).bind k = k a := rfl
@[simp] theorem Flow.bind_stop {α β : Type} (s : State) (k : α → Flow β) : (Flow.stop s).bind k = .stop s := rfl
@[simp] theorem Flow.finish_go (s : State) : (Flow.go s).finish = .next s := rfl
@[simp] theorem Flow.finish_stop (s : State) : (Flow.stop s).finish = .next s := rfl

/-- An operation always ends in a next state. -/
theorem Flow.finish_next (m : Flow State) : ∃ t, m.finish = .next t := by cases m <;> exact ⟨_, rfl⟩

/-! ### Registers -/

theorem State.getV_eq (s : State) (r : RegIdx) : s.getV r = s.v[r] := rfl

/-- A register after a register write. -/
theorem State.getV_setV (s : State) (r q : RegIdx) (b : Byte) :
    (s.setV r b).getV q = if q = r then b else s.getV q := by
  simp only [State.getV, State.setV, Fin.getElem_fin, Vector.getElem_set, Fin.ext_iff, eq_comm]

/-- A register after a result and its flag are written: the flag wins in VF. -/
theorem State.getV_setResultFlag (s : State) (r q : RegIdx) (a b : Byte) :
    (s.setResultFlag r a b).getV q = if q = vf then b else if q = r then a else s.getV q := by
  unfold State.setResultFlag
  rw [State.getV_setV, State.getV_setV]

/-- A register after OR, AND or XOR's flag rule. -/
theorem State.getV_logicFlag (s : State) (q : RegIdx) :
    s.logicFlag.getV q = if s.qcr.vfReset = true ∧ q = vf then 0x00#8 else s.getV q := by
  unfold State.logicFlag
  split
  · rename_i h
    rw [State.getV_setV]
    simp [h]
  · simp_all

/-- A register after ADD I, Vx's flag rule. -/
theorem State.getV_indexFlag (s : State) (b : Byte) (q : RegIdx) :
    (s.indexFlag b).getV q = if s.qcr.ioverflow = true ∧ q = vf then b else s.getV q := by
  unfold State.indexFlag
  split
  · rename_i h
    rw [State.getV_setV]
    simp [h]
  · simp_all

theorem mem_regsUpTo (x r : RegIdx) : r ∈ regsUpTo x ↔ r ≤ x := by
  revert x r; decide

theorem regsUpTo_sorted (x : RegIdx) : (regsUpTo x).Pairwise (· < ·) := by
  revert x; decide

theorem regsUpTo_length (x : RegIdx) : (regsUpTo x).length = x.val + 1 := by
  revert x; decide

theorem regsUpTo_getElem (x : RegIdx) (k : Nat) (h : k < (regsUpTo x).length) : ((regsUpTo x)[k]).val = k := by
  have hx : k < x.val + 1 := by simpa [regsUpTo_length] using h
  have hk : k < 16 := by omega
  have key : ∀ (x k : Fin 16), k ≤ x → ((regsUpTo x)[k.val]?).map (·.val) = some k.val := by decide
  have := key x ⟨k, hk⟩ (by simp [Fin.le_def]; omega)
  simpa [List.getElem?_eq_getElem h] using this

/-! ### Memory accesses -/

/-- MemRead goes on with the byte, or stops in a MEM_BOUNDS fault with nothing else changed. -/
theorem State.memRead_cases (s : State) (kind : AccessKind) (pc : Word) (a : Nat) :
    (a < s.cfg.memSize ∧ s.memRead kind pc a = .go (s.mem.read a)) ∨
      (s.cfg.memSize ≤ a ∧ s.memRead kind pc a = .stop (s.raise (.memBounds pc a kind))) := by
  unfold State.memRead
  split
  · exact .inl ⟨‹_›, rfl⟩
  · exact .inr ⟨by omega, rfl⟩

theorem State.memRead_go (s : State) (kind : AccessKind) (pc : Word) {a : Nat} (h : a < s.cfg.memSize) :
    s.memRead kind pc a = .go (s.mem.read a) := if_pos h

theorem State.memRead_stop (s : State) (kind : AccessKind) (pc : Word) {a : Nat} (h : s.cfg.memSize ≤ a) :
    s.memRead kind pc a = .stop (s.raise (.memBounds pc a kind)) := if_neg (by omega)

theorem State.memWrite_go (s : State) (pc : Word) {a : Nat} (b : Byte) (h : a < s.cfg.memSize) :
    s.memWrite pc a b = .go { s with mem := s.mem.write a b } := if_pos h

theorem State.memWrite_stop (s : State) (pc : Word) {a : Nat} (b : Byte) (h : s.cfg.memSize ≤ a) :
    s.memWrite pc a b = .stop (s.raise (.memBounds pc a .write)) := if_neg (by omega)

/-- Reading bytes that all exist gives them in ascending order. -/
theorem State.readBytes_go (s : State) (pc : Word) (a n : Nat) (h : a + n ≤ s.cfg.memSize) :
    s.readBytes pc a n = .go ((List.range n).map fun k => s.mem.read (a + k)) := by
  induction n generalizing a with
  | zero => rfl
  | succ n ih =>
    rw [State.readBytes, State.memRead_go _ _ _ (by omega), Flow.bind_go, ih (a + 1) (by omega), Flow.bind_go,
      List.range_succ_eq_map, List.map_cons, List.map_map]
    simp [Function.comp_def, Nat.add_assoc, Nat.add_comm 1]

/-- Reading past the end faults at the first address that does not exist, with nothing else changed. -/
theorem State.readBytes_stop (s : State) (pc : Word) (a n : Nat) (hn : 0 < n) (h : s.cfg.memSize < a + n) :
    s.readBytes pc a n = .stop (s.raise (.memBounds pc (max a s.cfg.memSize) .read)) := by
  induction n generalizing a with
  | zero => omega
  | succ n ih =>
    rw [State.readBytes]
    rcases s.memRead_cases .read pc a with ⟨ha, e⟩ | ⟨ha, e⟩
    · rw [e, Flow.bind_go, ih (a + 1) (by omega) (by omega), Flow.bind_stop]
      congr 3; omega
    · rw [e, Flow.bind_stop, max_eq_left ha]

/-- Writing bytes to addresses that all exist. -/
theorem State.writeBytes_go (s : State) (pc : Word) (a : Nat) (bs : List Byte) (h : a + bs.length ≤ s.cfg.memSize) :
    s.writeBytes pc a bs = .go { s with mem := s.mem.writeAll a bs } := by
  induction bs generalizing s a with
  | nil => simp [State.writeBytes]
  | cons b bs ih =>
    simp only [List.length_cons] at h
    rw [State.writeBytes, State.memWrite_go _ _ _ (by omega), Flow.bind_go, ih _ _ (by simp only; omega)]
    rfl

/-- Writing past the end: the bytes before the first address that does not exist stay written (R273). -/
theorem State.writeBytes_stop (s : State) (pc : Word) (a : Nat) (bs : List Byte) (hn : bs ≠ [])
    (h : s.cfg.memSize < a + bs.length) :
    s.writeBytes pc a bs =
      .stop (State.raise (.memBounds pc (max a s.cfg.memSize) .write)
        { s with mem := s.mem.writeAll a (bs.take (s.cfg.memSize - a)) }) := by
  induction bs generalizing s a with
  | nil => exact absurd rfl hn
  | cons b bs ih =>
    simp only [List.length_cons] at h
    rw [State.writeBytes]
    by_cases ha : a < s.cfg.memSize
    · rw [State.memWrite_go _ _ _ ha, Flow.bind_go]
      have hbs : bs ≠ [] := by rintro rfl; simp at h; omega
      rw [ih { s with mem := s.mem.write a b } (a + 1) hbs (by simp only; omega)]
      obtain ⟨k, hk⟩ : ∃ k, s.cfg.memSize - a = k + 1 := ⟨s.cfg.memSize - a - 1, by omega⟩
      have hk' : s.cfg.memSize - (a + 1) = k := by omega
      have hmax : max (a + 1) s.cfg.memSize = max a s.cfg.memSize := by omega
      simp only [hk, hk', hmax, List.take_succ_cons, Memory.writeAll_cons]
    · have ha' : s.cfg.memSize ≤ a := by omega
      rw [State.memWrite_stop _ _ _ ha', Flow.bind_stop, max_eq_left ha', show s.cfg.memSize - a = 0 by omega]
      simp

/-- The bytes a store writes keep memory canonical and inside the address space, whether or not it faults. -/
theorem State.writeBytes_inv (s : State) (pc : Word) (a : Nat) (bs : List Byte) :
    ∃ m f, (∀ t, (s.writeBytes pc a bs = .go t ∨ s.writeBytes pc a bs = .stop t) → t = { s with mem := m, fault := f }) ∧
      (s.mem.wf = true → Memory.wf m = true) ∧
      (s.mem.within s.cfg.memSize = true → Memory.within s.cfg.memSize m = true) := by
  by_cases h : a + bs.length ≤ s.cfg.memSize
  · refine ⟨s.mem.writeAll a bs, s.fault, fun t ht => ?_, fun hw => Memory.wf_writeAll hw _ _,
      fun hw => Memory.within_writeAll hw h⟩
    rw [State.writeBytes_go _ _ _ _ h] at ht
    rcases ht with ht | ht <;> cases ht
    rfl
  · by_cases hn : bs = []
    · subst hn
      refine ⟨s.mem, s.fault, fun t ht => ?_, id, id⟩
      rw [State.writeBytes] at ht
      rcases ht with ht | ht <;> cases ht
      rfl
    · refine ⟨s.mem.writeAll a (bs.take (s.cfg.memSize - a)), some (.memBounds pc (max a s.cfg.memSize) .write),
        fun t ht => ?_, fun hw => Memory.wf_writeAll hw _ _, fun hw => ?_⟩
      · rw [State.writeBytes_stop _ _ _ _ hn (by omega)] at ht
        rcases ht with ht | ht <;> cases ht
        rfl
      · by_cases ha : a < s.cfg.memSize
        · exact Memory.within_writeAll hw (by rw [List.length_take]; omega)
        · rw [show s.cfg.memSize - a = 0 by omega]
          simpa using hw

/-! ### Register loads -/

/-- The register file after loading the registers `rs` whose byte exists. -/
def loadedV (s : State) (base : Nat) (rs : List RegIdx) : Vector Byte 16 :=
  Vector.ofFn fun r => if r ∈ rs ∧ base + r.val < s.cfg.memSize then s.mem.read (base + r.val) else s.getV r

/-- What a register holds after the registers `rs` have been loaded as far as their bytes exist. -/
theorem State.getV_loadedV (s t : State) (base : Nat) (rs : List RegIdx) (r : RegIdx) :
    ({ t with v := loadedV s base rs } : State).getV r =
      if r ∈ rs ∧ base + r.val < s.cfg.memSize then s.mem.read (base + r.val) else s.getV r := by
  simp [loadedV, State.getV]

/-- Two register files that agree on every register are equal. -/
theorem regs_ext (s : State) {u w : Vector Byte 16}
    (h : ∀ r : RegIdx, ({ s with v := u } : State).getV r = ({ s with v := w } : State).getV r) : u = w :=
  Vector.ext fun k hk => h ⟨k, hk⟩

theorem loadedV_nil (s : State) (base : Nat) : loadedV s base [] = s.v :=
  regs_ext s fun r => by rw [State.getV_loadedV, if_neg (by simp)]

theorem loadedV_cons (s : State) (base : Nat) (r : RegIdx) (rs : List RegIdx) (hr : r ∉ rs)
    (h : base + r.val < s.cfg.memSize) :
    loadedV s base (r :: rs) = loadedV (s.setV r (s.mem.read (base + r.val))) base rs := by
  refine regs_ext s fun q => ?_
  rw [State.getV_loadedV, State.getV_loadedV, State.getV_setV]
  by_cases hq : q = r
  · subst hq
    simp [hr, h]
  · simp [hq]

/-- Loading registers whose bytes all exist. -/
theorem State.loadV_go (s : State) (pc : Word) (base : Nat) (rs : List RegIdx) (hs : rs.Pairwise (· < ·))
    (h : ∀ r ∈ rs, base + r.val < s.cfg.memSize) :
    s.loadV pc base rs = .go { s with v := loadedV s base rs } := by
  induction rs generalizing s with
  | nil => rw [loadedV_nil]; rfl
  | cons r rs ih =>
    have hr : r ∉ rs := fun hm => absurd ((List.pairwise_cons.1 hs).1 r hm) (lt_irrefl r)
    have hb := h r (by simp)
    rw [State.loadV, State.memRead_go _ _ _ hb, Flow.bind_go, ih _ (List.pairwise_cons.1 hs).2
      (fun q hq => by simpa using h q (by simp [hq])), loadedV_cons _ _ _ _ hr hb]
    rfl

/-- Loading registers in ascending order past the end: the registers before the failing address are loaded (R273). -/
theorem State.loadV_stop (s : State) (pc : Word) (base : Nat) (rs : List RegIdx) (hs : rs.Pairwise (· < ·))
    (h : ∃ r ∈ rs, s.cfg.memSize ≤ base + r.val) :
    ∃ q ∈ rs, s.cfg.memSize ≤ base + q.val ∧ (∀ r ∈ rs, r < q → base + r.val < s.cfg.memSize) ∧
      s.loadV pc base rs =
        .stop (State.raise (.memBounds pc (base + q.val) .read) { s with v := loadedV s base rs }) := by
  induction rs generalizing s with
  | nil => obtain ⟨r, hr, -⟩ := h; simp at hr
  | cons r rs ih =>
    obtain ⟨hlt, hs'⟩ := List.pairwise_cons.1 hs
    have hr : r ∉ rs := fun hm => absurd (hlt r hm) (lt_irrefl r)
    by_cases hb : base + r.val < s.cfg.memSize
    · obtain ⟨q0, hq0, hq0'⟩ := h
      have hq0m : q0 ∈ rs := by
        rcases List.mem_cons.1 hq0 with rfl | hm
        · omega
        · exact hm
      obtain ⟨q, hq, hqb, hmin, e⟩ := ih (s.setV r (s.mem.read (base + r.val))) hs' ⟨q0, hq0m, by simpa using hq0'⟩
      refine ⟨q, by simp [hq], by simpa using hqb, fun p hp hpq => ?_, ?_⟩
      · rcases List.mem_cons.1 hp with rfl | hp
        · exact hb
        · simpa using hmin p hp hpq
      · rw [State.loadV, State.memRead_go _ _ _ hb, Flow.bind_go, e, loadedV_cons _ _ _ _ hr hb]
        rfl
    · refine ⟨r, by simp, by omega, fun p hp hpr => ?_, ?_⟩
      · rcases List.mem_cons.1 hp with rfl | hp
        · exact absurd hpr (lt_irrefl _)
        · exact absurd (lt_trans hpr (hlt p hp)) (lt_irrefl _)
      · have hv : loadedV s base (r :: rs) = s.v := by
          refine regs_ext s fun q => ?_
          rw [State.getV_loadedV]
          refine if_neg fun ⟨hm, hlt'⟩ => ?_
          have hge : r.val ≤ q.val := by
            rcases List.mem_cons.1 hm with he | hm
            · rw [he]
            · exact le_of_lt (hlt _ hm)
          omega
        rw [State.loadV, State.memRead_stop _ _ _ (by omega), Flow.bind_stop, hv]

/-- LD Vx, [I] with every byte in range. -/
theorem State.loadV_regsUpTo_go (s : State) (pc : Word) (base : Nat) (x : RegIdx)
    (h : base + x.val < s.cfg.memSize) :
    s.loadV pc base (regsUpTo x) = .go { s with v := loadedV s base (regsUpTo x) } :=
  s.loadV_go pc base _ (regsUpTo_sorted x) fun r hr => by
    have : r.val ≤ x.val := (mem_regsUpTo x r).1 hr
    omega

/-- LD Vx, [I] past the end. -/
theorem State.loadV_regsUpTo_stop (s : State) (pc : Word) (base : Nat) (x : RegIdx)
    (h : s.cfg.memSize ≤ base + x.val) :
    s.loadV pc base (regsUpTo x) =
      .stop (State.raise (.memBounds pc (max base s.cfg.memSize) .read)
        { s with v := loadedV s base (regsUpTo x) }) := by
  obtain ⟨q, hq, hqb, hmin, e⟩ := s.loadV_stop pc base _ (regsUpTo_sorted x) ⟨x, (mem_regsUpTo x x).2 le_rfl, h⟩
  rw [e]
  congr 3
  by_cases hq0 : q.val = 0
  · omega
  · have hqx : q.val ≤ x.val := (mem_regsUpTo x q).1 hq
    have hp := hmin ⟨q.val - 1, by omega⟩ ((mem_regsUpTo x _).2 (Fin.le_def.2 (by simp only; omega)))
      (Fin.lt_def.2 (by simp only; omega))
    simp only at hp
    omega

/-- What a register holds after LD Vx, [I] has loaded what exists. -/
theorem State.getV_loadedV_regsUpTo (s t : State) (base : Nat) (x r : RegIdx) :
    ({ t with v := loadedV s base (regsUpTo x) } : State).getV r =
      if r ≤ x ∧ base + r.val < s.cfg.memSize then s.mem.read (base + r.val) else s.getV r := by
  simp only [State.getV_loadedV, mem_regsUpTo]

/-! ### Stack, fetch -/

/-- Push goes on with the entry on top, or stops in STACK_OVERFLOW with the stack unchanged. -/
theorem State.push_cases (s : State) (w : Word) :
    (s.stack.length < s.cfg.stackDepth ∧ s.push w = .go { s with stack := w :: s.stack }) ∨
      (s.cfg.stackDepth ≤ s.stack.length ∧ s.push w = .stop (s.raise (.stackOverflow s.instrAddr))) := by
  unfold State.push
  split
  · exact .inl ⟨‹_›, rfl⟩
  · exact .inr ⟨by omega, rfl⟩

/-- Pop goes on with the entry pushed last in PC, or stops in STACK_UNDERFLOW. -/
theorem State.popPc_cases (s : State) :
    (∃ w rest, s.stack = w :: rest ∧ s.popPc = .go { s with stack := rest, pc := w }) ∨
      (s.stack = [] ∧ s.popPc = .stop (s.raise (.stackUnderflow s.instrAddr))) := by
  unfold State.popPc
  split
  · exact .inr ⟨‹_›, rfl⟩
  · exact .inl ⟨_, _, ‹_›, rfl⟩

/-- The fetch reads the word at PC and steps past it, or faults at the first byte that does not exist. -/
theorem State.fetch_cases (s : State) :
    (s.pc.toNat + 1 < s.cfg.memSize ∧ s.fetch = .go (s.fetched s.wordAtPc)) ∨
      (s.cfg.memSize ≤ s.pc.toNat + 1 ∧
        s.fetch = .stop (s.raise (.memBounds s.pc (max s.pc.toNat s.cfg.memSize) .fetch))) := by
  unfold State.fetch
  rcases s.memRead_cases .fetch s.pc s.pc.toNat with ⟨h, e⟩ | ⟨h, e⟩
  · rw [e, Flow.bind_go]
    rcases s.memRead_cases .fetch s.pc (s.pc.toNat + 1) with ⟨h', e'⟩ | ⟨h', e'⟩
    · exact .inl ⟨h', by rw [e']; rfl⟩
    · refine .inr ⟨h', ?_⟩
      rw [e', Flow.bind_stop]
      congr 3; omega
  · refine .inr ⟨by omega, ?_⟩
    rw [e, Flow.bind_stop, max_eq_left h]

@[simp] theorem State.instrAddr_fetched (s : State) (w : Word) : (s.fetched w).instrAddr = s.pc := by
  simp [State.instrAddr]

theorem State.canFetch_iff (s : State) : s.canFetch = true ↔ s.pc.toNat + 1 < s.cfg.memSize := by
  simp [State.canFetch]

end Sys2Proof.Machine
end

