-- ==== Sys2Proof/Laws/Exec.lean ====
section
/-! SUPPORT. For each instruction that can end in more than one way, one lemma that says every way. The other
instructions' next states are their meanings' own terms (by rfl). -/

namespace Sys2Proof.Machine

/-- RET pops, or faults on an empty stack. -/
theorem exec_ret_cases (s : State) :
    (∃ w rest, s.stack = w :: rest ∧ exec .ret s = .next { s with stack := rest, pc := w }) ∨
      (s.stack = [] ∧ exec .ret s = .next (s.raise (.stackUnderflow s.instrAddr))) := by
  rcases s.popPc_cases with ⟨w, rest, h, e⟩ | ⟨h, e⟩
  · exact .inl ⟨w, rest, h, by simp only [exec, execRet, e, Flow.finish_go]⟩
  · exact .inr ⟨h, by simp only [exec, execRet, e, Flow.finish_stop]⟩

/-- CALL pushes and jumps, or faults on a full stack. -/
theorem exec_call_cases (nnn : Addr12) (s : State) :
    (s.stack.length < s.cfg.stackDepth ∧
        exec (.call nnn) s = .next { s with stack := s.pc :: s.stack, pc := addrOf nnn }) ∨
      (s.cfg.stackDepth ≤ s.stack.length ∧ exec (.call nnn) s = .next (s.raise (.stackOverflow s.instrAddr))) := by
  rcases s.push_cases s.pc with ⟨h, e⟩ | ⟨h, e⟩
  · exact .inl ⟨h, by simp only [exec, execCall, e, Flow.bind_go, Flow.finish_go]; rfl⟩
  · exact .inr ⟨h, by simp only [exec, execCall, e, Flow.bind_stop, Flow.finish_stop]⟩

/-- A draw of n rows draws them, or faults at the first sprite byte that does not exist. -/
theorem exec_drw_cases (x y : RegIdx) (n : Nibble) (s : State) :
    (exec (.drw x y n) s = .next (s.drawSprite x y
        (((List.range n.toNat).map fun k => s.mem.read (s.i.toNat + k)).map byteBits))) ∨
      (s.cfg.memSize < s.i.toNat + n.toNat ∧ exec (.drw x y n) s =
        .next (s.raise (.memBounds s.instrAddr (max s.i.toNat s.cfg.memSize) .read))) := by
  by_cases h : s.i.toNat + n.toNat ≤ s.cfg.memSize
  · exact .inl (by simp only [exec, execDrw, s.readBytes_go _ _ _ h, Flow.bind_go, Flow.finish_go])
  · by_cases h0 : n.toNat = 0
    · exact .inl (by simp only [exec, execDrw, h0, State.readBytes, Flow.bind_go, Flow.finish_go]; rfl)
    · have hs := s.readBytes_stop s.instrAddr s.i.toNat n.toNat (by omega) (by omega)
      exact .inr ⟨by omega, by simp only [exec, execDrw, hs, Flow.bind_stop, Flow.finish_stop]⟩

/-- A large draw draws its 16 rows, or faults at the first sprite byte that does not exist. -/
theorem exec_drwLarge_cases (x y : RegIdx) (s : State) :
    (s.i.toNat + 32 ≤ s.cfg.memSize ∧ exec (.drwLarge x y) s = .next (s.drawSprite x y
        (largeRows ((List.range 32).map fun k => s.mem.read (s.i.toNat + k))))) ∨
      (s.cfg.memSize < s.i.toNat + 32 ∧ exec (.drwLarge x y) s =
        .next (s.raise (.memBounds s.instrAddr (max s.i.toNat s.cfg.memSize) .read))) := by
  by_cases h : s.i.toNat + 32 ≤ s.cfg.memSize
  · exact .inl ⟨h, by simp only [exec, execDrwLarge, s.readBytes_go _ _ 32 h, Flow.bind_go, Flow.finish_go]⟩
  · have hs := s.readBytes_stop s.instrAddr s.i.toNat 32 (by omega) (by omega)
    exact .inr ⟨by omega, by simp only [exec, execDrwLarge, hs, Flow.bind_stop, Flow.finish_stop]⟩

/-- LD [I], Vx stores all its bytes, or faults with those before the failing address stored. -/
theorem exec_storeRegs_cases (x : RegIdx) (s : State) :
    (s.i.toNat + x.val < s.cfg.memSize ∧ exec (.storeRegs x) s =
        .next (State.advanceI { s with mem := s.mem.writeAll s.i.toNat (s.regBytes x) } x)) ∨
      (s.cfg.memSize ≤ s.i.toNat + x.val ∧ exec (.storeRegs x) s =
        .next (State.raise (.memBounds s.instrAddr (max s.i.toNat s.cfg.memSize) .write)
          { s with mem := s.mem.writeAll s.i.toNat ((s.regBytes x).take (s.cfg.memSize - s.i.toNat)) })) := by
  have hl : (s.regBytes x).length = x.val + 1 := by simp [State.regBytes, regsUpTo_length]
  by_cases h : s.i.toNat + x.val < s.cfg.memSize
  · have e := s.writeBytes_go s.instrAddr s.i.toNat (s.regBytes x) (by omega)
    exact .inl ⟨h, by simp only [exec, execStoreRegs, e, Flow.bind_go, Flow.finish_go]⟩
  · have hn : s.regBytes x ≠ [] := fun hn => by simp [hn] at hl
    have e := s.writeBytes_stop s.instrAddr s.i.toNat (s.regBytes x) hn (by omega)
    exact .inr ⟨by omega, by simp only [exec, execStoreRegs, e, Flow.bind_stop, Flow.finish_stop]⟩

/-- LD B, Vx stores its three digits, or faults with those before the failing address stored. -/
theorem exec_ldB_cases (x : RegIdx) (s : State) :
    (s.i.toNat + 2 < s.cfg.memSize ∧
        exec (.ldB x) s = .next { s with mem := s.mem.writeAll s.i.toNat (bcdDigits (s.getV x)) }) ∨
      (s.cfg.memSize ≤ s.i.toNat + 2 ∧ exec (.ldB x) s =
        .next (State.raise (.memBounds s.instrAddr (max s.i.toNat s.cfg.memSize) .write)
          { s with mem := s.mem.writeAll s.i.toNat ((bcdDigits (s.getV x)).take (s.cfg.memSize - s.i.toNat)) })) := by
  have hl : (bcdDigits (s.getV x)).length = 3 := rfl
  by_cases h : s.i.toNat + 2 < s.cfg.memSize
  · have e := s.writeBytes_go s.instrAddr s.i.toNat (bcdDigits (s.getV x)) (by omega)
    exact .inl ⟨h, by simp only [exec, execLdB, e, Flow.finish_go]⟩
  · have e := s.writeBytes_stop s.instrAddr s.i.toNat (bcdDigits (s.getV x)) (by simp [bcdDigits]) (by omega)
    exact .inr ⟨by omega, by simp only [exec, execLdB, e, Flow.finish_stop]⟩

/-- LD Vx, [I] loads all its registers, or faults with those before the failing address loaded. -/
theorem exec_loadRegs_cases (x : RegIdx) (s : State) :
    (s.i.toNat + x.val < s.cfg.memSize ∧ exec (.loadRegs x) s =
        .next (State.advanceI { s with v := loadedV s s.i.toNat (regsUpTo x) } x)) ∨
      (s.cfg.memSize ≤ s.i.toNat + x.val ∧ exec (.loadRegs x) s =
        .next (State.raise (.memBounds s.instrAddr (max s.i.toNat s.cfg.memSize) .read)
          { s with v := loadedV s s.i.toNat (regsUpTo x) })) := by
  by_cases h : s.i.toNat + x.val < s.cfg.memSize
  · have e := s.loadV_regsUpTo_go s.instrAddr s.i.toNat x h
    exact .inl ⟨h, by simp only [exec, execLoadRegs, e, Flow.bind_go, Flow.finish_go]⟩
  · have e := s.loadV_regsUpTo_stop s.instrAddr s.i.toNat x (by omega)
    exact .inr ⟨by omega, by simp only [exec, execLoadRegs, e, Flow.bind_stop, Flow.finish_stop]⟩

/-- LD Vx, K waits, or takes the pending key. -/
theorem exec_ldVxK_cases (x : RegIdx) (s : State) :
    (s.pending = none ∧ exec (.ldVxK x) s = .next { s with runState := .waiting, pc := s.pc - 2#16 }) ∨
      (∃ k, s.pending = some k ∧ exec (.ldVxK x) s =
        .next (State.setV { s with pending := none, runState := .running } x (BitVec.ofNat 8 k.val))) := by
  cases h : s.pending with
  | none => exact .inl ⟨rfl, by simp [exec, execLdVxK, h, State.rewind]⟩
  | some k => exact .inr ⟨k, rfl, by simp [exec, execLdVxK, h]⟩

/-- LD R, Vx copies, or faults for x ≥ 8. -/
theorem exec_saveFlags_cases (x : RegIdx) (s : State) :
    (x.val ≤ 7 ∧ exec (.saveFlags x) s = .next { s with rpl := s.savedFlags x }) ∨
      (7 < x.val ∧ exec (.saveFlags x) s = .next (s.raise (.flagIndex s.instrAddr x))) := by
  simp only [exec, execSaveFlags]
  split
  · exact .inr ⟨‹_›, rfl⟩
  · exact .inl ⟨by omega, rfl⟩

/-- LD Vx, R copies, or faults for x ≥ 8. -/
theorem exec_restoreFlags_cases (x : RegIdx) (s : State) :
    (x.val ≤ 7 ∧ exec (.restoreFlags x) s = .next { s with v := s.restoredFlags x }) ∨
      (7 < x.val ∧ exec (.restoreFlags x) s = .next (s.raise (.flagIndex s.instrAddr x))) := by
  simp only [exec, execRestoreFlags]
  split
  · exact .inr ⟨‹_›, rfl⟩
  · exact .inl ⟨by omega, rfl⟩

end Sys2Proof.Machine
end

