-- ==== Sys2Proof/Laws/PerInstr.lean ====
section
/-! SUPPORT. Laws stated for each instruction as syntax: the word the encoder writes for it is a word of its row of
spec/opcode_table.json. -/

namespace Sys2Proof.Laws.TableRow

/-- Masked with its row's mask, the encoding is its row's match. -/
def Statement (i : Instr) : Prop := encode i &&& (tableRow i).1 = (tableRow i).2

theorem packXYN_and (c x y n c' x' y' n' : Nibble) :
    packXYN c x y n &&& packXYN c' x' y' n' = packXYN (c &&& c') (x &&& x') (y &&& y') (n &&& n') := by
  ext i hi; simp [packXYN]; interval_cases i <;> simp

theorem packXYN_n (c x y n : Nibble) : packXYN c x y n &&& 0xF00F#16 = packXYN c 0#4 0#4 n := by
  have h := packXYN_and c x y n 0xF#4 0#4 0#4 0xF#4
  have e : ∀ b : Nibble, b &&& 0xF#4 = b := by decide
  rw [e, e, BitVec.and_zero, BitVec.and_zero] at h
  exact h

theorem packXYN_class (c x y n : Nibble) : packXYN c x y n &&& 0xF000#16 = packXYN c 0#4 0#4 0#4 := by
  have h := packXYN_and c x y n 0xF#4 0#4 0#4 0#4
  have e : ∀ b : Nibble, b &&& 0xF#4 = b := by decide
  rw [e, BitVec.and_zero, BitVec.and_zero, BitVec.and_zero] at h
  exact h

theorem pack_scd (n : Nibble) : packXYN 0x0#4 0x0#4 0xC#4 n &&& 0xF0F0#16 = 0x00C0#16 := by
  revert n; decide

theorem packXNN_nn (c x : Nibble) (nn : Byte) : packXNN c x nn &&& 0xF0FF#16 = packXNN c 0#4 nn := by
  ext i hi; simp [packXNN]; interval_cases i <;> simp

theorem packXNN_class (c x : Nibble) (nn : Byte) : packXNN c x nn &&& 0xF000#16 = packXNN c 0#4 0#8 := by
  ext i hi; simp [packXNN]; interval_cases i <;> simp

theorem packNNN_class (c : Nibble) (a : Addr12) : packNNN c a &&& 0xF000#16 = packNNN c 0#12 := by
  ext i hi; simp [packNNN]; interval_cases i <;> simp

theorem cls : Statement (.cls) := rfl
theorem ret : Statement (.ret) := rfl
theorem scd (n : Nibble) : Statement (.scd n) := pack_scd n
theorem scr : Statement (.scr) := rfl
theorem scl : Statement (.scl) := rfl
theorem exit : Statement (.exit) := rfl
theorem low : Statement (.low) := rfl
theorem high : Statement (.high) := rfl
theorem jp (nnn : Addr12) : Statement (.jp nnn) := packNNN_class _ nnn
theorem call (nnn : Addr12) : Statement (.call nnn) := packNNN_class _ nnn
theorem seImm (x : RegIdx) (nn : Byte) : Statement (.seImm x nn) := packXNN_class _ _ nn
theorem sneImm (x : RegIdx) (nn : Byte) : Statement (.sneImm x nn) := packXNN_class _ _ nn
theorem seReg (x : RegIdx) (y : RegIdx) : Statement (.seReg x y) := packXYN_class _ _ _ _
theorem ldImm (x : RegIdx) (nn : Byte) : Statement (.ldImm x nn) := packXNN_class _ _ nn
theorem addImm (x : RegIdx) (nn : Byte) : Statement (.addImm x nn) := packXNN_class _ _ nn
theorem ldReg (x : RegIdx) (y : RegIdx) : Statement (.ldReg x y) := packXYN_n _ _ _ _
theorem orReg (x : RegIdx) (y : RegIdx) : Statement (.orReg x y) := packXYN_n _ _ _ _
theorem andReg (x : RegIdx) (y : RegIdx) : Statement (.andReg x y) := packXYN_n _ _ _ _
theorem xorReg (x : RegIdx) (y : RegIdx) : Statement (.xorReg x y) := packXYN_n _ _ _ _
theorem addReg (x : RegIdx) (y : RegIdx) : Statement (.addReg x y) := packXYN_n _ _ _ _
theorem subReg (x : RegIdx) (y : RegIdx) : Statement (.subReg x y) := packXYN_n _ _ _ _
theorem shr (x : RegIdx) (y : RegIdx) : Statement (.shr x y) := packXYN_n _ _ _ _
theorem subn (x : RegIdx) (y : RegIdx) : Statement (.subn x y) := packXYN_n _ _ _ _
theorem shl (x : RegIdx) (y : RegIdx) : Statement (.shl x y) := packXYN_n _ _ _ _
theorem sneReg (x : RegIdx) (y : RegIdx) : Statement (.sneReg x y) := packXYN_class _ _ _ _
theorem ldI (nnn : Addr12) : Statement (.ldI nnn) := packNNN_class _ nnn
theorem jpV0 (nnn : Addr12) : Statement (.jpV0 nnn) := packNNN_class _ nnn
theorem rnd (x : RegIdx) (nn : Byte) : Statement (.rnd x nn) := packXNN_class _ _ nn
theorem drw (x : RegIdx) (y : RegIdx) (n : Nibble) : Statement (.drw x y n) := packXYN_class _ _ _ _
theorem drwLarge (x : RegIdx) (y : RegIdx) : Statement (.drwLarge x y) := packXYN_n _ _ _ _
theorem skp (x : RegIdx) : Statement (.skp x) := packXNN_nn _ _ _
theorem sknp (x : RegIdx) : Statement (.sknp x) := packXNN_nn _ _ _
theorem ldVxDt (x : RegIdx) : Statement (.ldVxDt x) := packXNN_nn _ _ _
theorem ldVxK (x : RegIdx) : Statement (.ldVxK x) := packXNN_nn _ _ _
theorem ldDtVx (x : RegIdx) : Statement (.ldDtVx x) := packXNN_nn _ _ _
theorem ldStVx (x : RegIdx) : Statement (.ldStVx x) := packXNN_nn _ _ _
theorem addI (x : RegIdx) : Statement (.addI x) := packXNN_nn _ _ _
theorem ldF (x : RegIdx) : Statement (.ldF x) := packXNN_nn _ _ _
theorem ldHf (x : RegIdx) : Statement (.ldHf x) := packXNN_nn _ _ _
theorem ldB (x : RegIdx) : Statement (.ldB x) := packXNN_nn _ _ _
theorem storeRegs (x : RegIdx) : Statement (.storeRegs x) := packXNN_nn _ _ _
theorem loadRegs (x : RegIdx) : Statement (.loadRegs x) := packXNN_nn _ _ _
theorem saveFlags (x : RegIdx) : Statement (.saveFlags x) := packXNN_nn _ _ _
theorem restoreFlags (x : RegIdx) : Statement (.restoreFlags x) := packXNN_nn _ _ _

end Sys2Proof.Laws.TableRow
end

