-- ==== Sys2Proof/Tests/Slice0.lean ====
section
/-! SUPPORT. The model's own tests. Words are written out from the encodings of 30_encoding.md section 4; expected
results are those of the vectors E<n> and V<n> of 95_test_vectors.md, named at each test. Last come the witnesses: for
each obligation with hypotheses, states and operands that meet them. -/

namespace Sys2Proof.Tests

open Sys2Proof Sys2Proof.Machine

/-! ### Well-formedness -/

theorem test_wellFormed_refuses_drw_with_no_rows : Instr.wellFormed (.drw 0 1 0x0#4) = false := by decide
theorem test_wellFormed_takes_drw_with_rows :
    Instr.wellFormed (.drw 0 1 0x1#4) = true ∧ Instr.wellFormed (.drw 15 15 0xF#4) = true := by decide

/-! ### Decoding -/

theorem test_decode_class0 :
    decode 0b0000000011100000#16 = some .cls ∧ decode 0b0000000011101110#16 = some .ret ∧
    decode 0b0000000011000101#16 = some (.scd 0x5#4) ∧ decode 0b0000000011111011#16 = some .scr ∧
    decode 0b0000000011111100#16 = some .scl ∧ decode 0b0000000011111101#16 = some .exit ∧
    decode 0b0000000011111110#16 = some .low ∧ decode 0b0000000011111111#16 = some .high := by decide
theorem test_decode_jumps :
    decode 0b0001001000110100#16 = some (.jp 0x234#12) ∧ decode 0b0010111111111110#16 = some (.call 0xFFE#12) ∧
    decode 0b1011000000100011#16 = some (.jpV0 0x023#12) := by decide
theorem test_decode_skips :
    decode 0b0011001101000010#16 = some (.seImm 3 0x42#8) ∧ decode 0b0100111010000001#16 = some (.sneImm 14 0x81#8) ∧
    decode 0b0101000100100000#16 = some (.seReg 1 2) ∧ decode 0b1001110000010000#16 = some (.sneReg 12 1) := by decide
theorem test_decode_immediates :
    decode 0b0110101000111100#16 = some (.ldImm 10 0x3C#8) ∧ decode 0b0111000100000010#16 = some (.addImm 1 0x02#8) ∧
    decode 0b1010111111111111#16 = some (.ldI 0xFFF#12) ∧ decode 0b1100001110000001#16 = some (.rnd 3 0x81#8) := by
  decide
theorem test_decode_class8 :
    decode 0b1000000100100000#16 = some (.ldReg 1 2) ∧ decode 0b1000000100100001#16 = some (.orReg 1 2) ∧
    decode 0b1000000100100010#16 = some (.andReg 1 2) ∧ decode 0b1000000100100011#16 = some (.xorReg 1 2) ∧
    decode 0b1000000100100100#16 = some (.addReg 1 2) ∧ decode 0b1000000100100101#16 = some (.subReg 1 2) ∧
    decode 0b1000000100100110#16 = some (.shr 1 2) ∧ decode 0b1000000100100111#16 = some (.subn 1 2) ∧
    decode 0b1000000100101110#16 = some (.shl 1 2) := by decide
theorem test_decode_draws :
    decode 0b1101000000010101#16 = some (.drw 0 1 0x5#4) ∧ decode 0b1101000000010000#16 = some (.drwLarge 0 1) := by
  decide
theorem test_decode_classE :
    decode 0b1110010010011110#16 = some (.skp 4) ∧ decode 0b1110010010100001#16 = some (.sknp 4) := by decide
theorem test_decode_classF :
    decode 0b1111000100000111#16 = some (.ldVxDt 1) ∧ decode 0b1111001100001010#16 = some (.ldVxK 3) ∧
    decode 0b1111000100010101#16 = some (.ldDtVx 1) ∧ decode 0b1111000100011000#16 = some (.ldStVx 1) ∧
    decode 0b1111001100011110#16 = some (.addI 3) ∧ decode 0b1111000000101001#16 = some (.ldF 0) ∧
    decode 0b1111000000110000#16 = some (.ldHf 0) ∧ decode 0b1111000000110011#16 = some (.ldB 0) ∧
    decode 0b1111001001010101#16 = some (.storeRegs 2) ∧ decode 0b1111001001100101#16 = some (.loadRegs 2) ∧
    decode 0b1111011101110101#16 = some (.saveFlags 7) ∧ decode 0b1111000110000101#16 = some (.restoreFlags 1) := by
  decide
/-- V2 to V6: undefined words, one for each class that has some. -/
theorem test_decode_undefined :
    decode 0x0000#16 = none ∧ decode 0x0123#16 = none ∧ decode 0x81F8#16 = none ∧ decode 0xE19F#16 = none ∧
    decode 0xF1FF#16 = none := by decide
/-- V7, V8, V33: the ignored bits. -/
theorem test_decode_aliases :
    decode 0x01E0#16 = some .cls ∧ decode 0x5125#16 = some (.seReg 1 2) ∧ decode 0x9125#16 = some (.sneReg 1 2) ∧
    decode 0xFAC7#16 = none ∧ decode 0x0FC7#16 = some (.scd 0x7#4) := by decide
theorem test_decodeTableWord :
    decodeTableWord 16 0x6A3C = some (.ldImm 10 0x3C#8) ∧ decodeTableWord 16 0x0000 = none := by decide
theorem test_decodeBytes :
    decodeBytes [0x6A#8, 0x3C#8, 0x12#8] = .ok (.ldImm 10 0x3C#8, [0x12#8]) ∧
    decodeBytes [0x6A#8] = .error .truncated ∧ decodeBytes [0xFF#8, 0xFF#8] = .error (.undefinedOpcode 0xFFFF#16) :=
  ⟨rfl, rfl, rfl⟩
theorem test_listing :
    listing 0x812E#16 = "SHL V1, V2" ∧ listing 0xF255#16 = "LD [I], V2" ∧ listing 0x0000#16 = "DW 0x0000" := by
  decide

/-! ### One step -/

/-- A field of the state after one CYCLE on the word `w`; none where the step has no next state. -/
def after {α : Type} (s : State) (w : Nat) (f : State → α) : Option α :=
  match step (s.withFetchWord 16 w) with
  | .next t => some (f t)
  | .fault _ => none
  | .refused _ => none

/-- A field of the state after one host operation. -/
def afterOp {α : Type} (s : State) (op : HostOp) (f : State → α) : Option α :=
  match step { s with sched := [op] } with
  | .next t => some (f t)
  | .fault _ => none
  | .refused _ => none

/-- The state of 95_test_vectors.md section 0, without a program. -/
def s0 : State := State.reset
/-- `s0` with V[a] and V[b] set. -/
def withV (a : RegIdx) (p : Byte) (b : RegIdx) (q : Byte) : State := (s0.setV a p).setV b q
/-- A state with other quirks. -/
def withQ (s : State) (q : Qcr) : State := { s with qcr := q }
/-- A state with I at `a` and bytes from there. -/
def withI (s : State) (a : Word) (bytes : List Byte) : State :=
  { s with i := a, mem := s.mem.writeAll a.toNat bytes }
/-- A state with one pixel flipped. -/
def withPixel (s : State) (x y : Nat) : State := { s with pix := s.pix.flip x y }
/-- A high-resolution state, clear. -/
def hi0 : State := s0.dispSetResolution .high

/-- V1. -/
theorem test_ldImm : after s0 0x6A3C (fun t => (t.getV 10, t.pc, t.ir)) = some (0x3C#8, 0x0202#16, 0x6A3C#16) := by
  decide
/-- E10. -/
theorem test_undefined_opcode :
    after s0 0xFFFF (fun t => (t.pc, t.ir, t.out)) =
      some (0x0202#16, 0xFFFF#16, [.undefinedOpcode 0x0200#16 0xFFFF#16]) := by decide
/-- V9: the word at 0xFFF needs the byte at 0x1000. -/
theorem test_fetch_fault :
    afterOp { s0 with pc := 0x0FFF#16, mem := s0.mem.write 0xFFF 0x1F#8 } .cycle (fun t => (t.pc, t.ir, t.fault)) =
      some (0x0FFF#16, 0x0000#16, some (.memBounds 0x0FFF#16 0x1000 .fetch)) := by decide
/-- V13, V168, V191. -/
theorem test_faulted_core_stops :
    (∀ op ∈ [HostOp.cycle, .tick, .reset],
      afterOp { s0 with fault := some (.stackOverflow 0x0300#16) } op (fun t => t.pc) = none) := by decide
/-- V22, V20. -/
theorem test_jp : after s0 0x1FFE (fun t => t.pc) = some 0x0FFE#16 := by decide
/-- V24. -/
theorem test_call : after s0 0x2FFF (fun t => (t.pc, t.stack)) = some (0x0FFF#16, [0x0202#16]) := by decide
/-- V27. -/
theorem test_call_full :
    after { s0 with stack := List.replicate 16 0x0300#16 } 0x2300 (fun t => (t.pc, t.stack.length, t.fault)) =
      some (0x0202#16, 16, some (.stackOverflow 0x0200#16)) := by decide
/-- V25, and the entry pushed last is the one popped. -/
theorem test_ret :
    after { s0 with stack := [0x0206#16, 0x0400#16] } 0x00EE (fun t => (t.pc, t.stack)) =
      some (0x0206#16, [0x0400#16]) := by decide
/-- V26. -/
theorem test_ret_empty :
    after s0 0x00EE (fun t => (t.pc, t.fault)) = some (0x0202#16, some (.stackUnderflow 0x0200#16)) := by decide
/-- E2. -/
theorem test_seImm :
    after (s0.setV 3 0x42#8) 0x3342 (fun t => t.pc) = some 0x0204#16 ∧
    after (s0.setV 3 0x43#8) 0x3342 (fun t => t.pc) = some 0x0202#16 := by decide
/-- V28, V29. -/
theorem test_sneImm :
    after (s0.setV 3 0x42#8) 0x4342 (fun t => t.pc) = some 0x0202#16 ∧
    after (s0.setV 3 0x43#8) 0x4342 (fun t => t.pc) = some 0x0204#16 := by decide
/-- V30. -/
theorem test_seReg :
    after (withV 1 7#8 2 7#8) 0x5120 (fun t => t.pc) = some 0x0204#16 ∧
    after (withV 1 7#8 2 8#8) 0x5120 (fun t => t.pc) = some 0x0202#16 := by decide
/-- V32, V33. -/
theorem test_sneReg :
    after (withV 1 7#8 2 8#8) 0x9120 (fun t => t.pc) = some 0x0204#16 ∧
    after (withV 1 7#8 2 7#8) 0x9125 (fun t => t.pc) = some 0x0202#16 := by decide
/-- V34, V36. -/
theorem test_jpV0 :
    after (withV 0 0x10#8 2 0x20#8) 0xB234 (fun t => t.pc) = some 0x0244#16 ∧
    after (s0.setV 0 0xFF#8) 0xBFFF (fun t => t.pc) = some 0x10FE#16 := by decide
/-- V35, V38. -/
theorem test_jpV0_jumping :
    after (withQ (withV 0 0x10#8 2 0x20#8) ⟨true, true, false, true, false⟩) 0xB234 (fun t => t.pc) = some 0x0254#16 ∧
    after (withQ (withV 0 0x05#8 3 0x99#8) ⟨true, true, false, true, false⟩) 0xB023 (fun t => t.pc) =
      some 0x0028#16 := by decide

/-- V42, V43. -/
theorem test_addImm :
    after (s0.setV 1 0xFF#8) 0x7102 (fun t => (t.getV 1, t.getV 15)) = some (0x01#8, 0x00#8) ∧
    after (s0.setV 15 0x01#8) 0x7FFF (fun t => t.getV 15) = some 0x00#8 := by decide
/-- V44. -/
theorem test_ldReg : after (s0.setV 2 0x99#8) 0x8120 (fun t => (t.getV 1, t.getV 2)) = some (0x99#8, 0x99#8) := by
  decide
/-- V45, V46, V47. -/
theorem test_or :
    after ((withV 1 0x0F#8 2 0xF0#8).setV 15 5#8) 0x8121 (fun t => (t.getV 1, t.getV 15)) = some (0xFF#8, 0x00#8) ∧
    after (withQ ((withV 1 0x0F#8 2 0xF0#8).setV 15 5#8) ⟨false, true, false, false, false⟩) 0x8121
      (fun t => (t.getV 1, t.getV 15)) = some (0xFF#8, 0x05#8) ∧
    after (withV 15 0x0F#8 2 0xF0#8) 0x8F21 (fun t => t.getV 15) = some 0x00#8 := by decide
/-- V49. -/
theorem test_and :
    after (withQ ((withV 1 0x3C#8 2 0x0F#8).setV 15 5#8) ⟨false, true, false, false, false⟩) 0x8122
      (fun t => (t.getV 1, t.getV 15)) = some (0x0C#8, 0x05#8) := by decide
/-- V50. -/
theorem test_xor :
    after (withV 1 0xFF#8 2 0x0F#8) 0x8123 (fun t => (t.getV 1, t.getV 15)) = some (0xF0#8, 0x00#8) := by decide
/-- E3. -/
theorem test_addReg :
    after (withV 1 0x7F#8 2 0x85#8) 0x8124 (fun t => (t.getV 1, t.getV 15)) = some (0x04#8, 0x01#8) ∧
    after (withV 1 0x0B#8 2 0x0A#8) 0x8124 (fun t => (t.getV 1, t.getV 15)) = some (0x15#8, 0x00#8) := by decide
/-- V55, V56: VF as destination and as source. -/
theorem test_addReg_vf :
    after (withV 15 0xFF#8 1 0x01#8) 0x8F14 (fun t => t.getV 15) = some 0x01#8 ∧
    after (withV 1 0x10#8 15 0x01#8) 0x81F4 (fun t => (t.getV 1, t.getV 15)) = some (0x11#8, 0x00#8) := by decide
/-- E4. -/
theorem test_subReg :
    after (withV 1 0x15#8 2 0x10#8) 0x8125 (fun t => (t.getV 1, t.getV 15)) = some (0x05#8, 0x01#8) ∧
    after (withV 1 0x10#8 2 0x15#8) 0x8125 (fun t => (t.getV 1, t.getV 15)) = some (0xFB#8, 0x00#8) := by decide
/-- V57, V59: equal operands leave no borrow. -/
theorem test_subReg_equal :
    after (withV 1 0x20#8 2 0x20#8) 0x8125 (fun t => (t.getV 1, t.getV 15)) = some (0x00#8, 0x01#8) ∧
    after (s0.setV 15 7#8) 0x8FF5 (fun t => t.getV 15) = some 0x01#8 := by decide
/-- V60, V61. -/
theorem test_subn :
    after (withV 1 0x10#8 2 0x15#8) 0x8127 (fun t => (t.getV 1, t.getV 15)) = some (0x05#8, 0x01#8) ∧
    after (withV 1 0x15#8 2 0x10#8) 0x8127 (fun t => (t.getV 1, t.getV 15)) = some (0xFB#8, 0x00#8) := by decide
/-- V63, V64. -/
theorem test_shr :
    after (withV 1 0xAA#8 2 0x05#8) 0x8126 (fun t => (t.getV 1, t.getV 15)) = some (0x02#8, 0x01#8) ∧
    after (withQ (withV 1 0xAA#8 2 0x05#8) ⟨true, true, true, false, false⟩) 0x8126
      (fun t => (t.getV 1, t.getV 15)) = some (0x55#8, 0x00#8) := by decide
/-- V66, V67. -/
theorem test_shr_vf :
    after (s0.setV 15 0x03#8) 0x8F16 (fun t => t.getV 15) = some 0x00#8 ∧
    after (s0.setV 15 0x03#8) 0x8FF6 (fun t => t.getV 15) = some 0x01#8 := by decide
/-- V68, V69. -/
theorem test_shl :
    after (s0.setV 2 0x81#8) 0x812E (fun t => (t.getV 1, t.getV 15)) = some (0x02#8, 0x01#8) ∧
    after (withQ (s0.setV 2 0x81#8) ⟨true, true, true, false, false⟩) 0x812E
      (fun t => (t.getV 1, t.getV 15)) = some (0x00#8, 0x00#8) := by decide
/-- V71. -/
theorem test_shl_vf :
    after (s0.setV 15 0xC1#8) 0x81FE (fun t => (t.getV 1, t.getV 15)) = some (0x82#8, 0x01#8) := by decide

/-- V80. -/
theorem test_ldI : after s0 0xAFFF (fun t => t.i) = some 0x0FFF#16 := by decide
/-- V81, V82, V83. -/
theorem test_addI_flag :
    after (withQ { s0.setV 3 0x03#8 with i := 0x0FFE#16 } ⟨true, true, false, false, true⟩) 0xF31E
      (fun t => (t.i, t.getV 15)) = some (0x1001#16, 0x01#8) ∧
    after { s0.setV 3 0x03#8 with i := 0x0FFE#16 } 0xF31E (fun t => (t.i, t.getV 15)) = some (0x1001#16, 0x00#8) ∧
    after (withQ { s0.setV 3 0x0F#8 with i := 0x0FF0#16 } ⟨true, true, false, false, true⟩) 0xF31E
      (fun t => (t.i, t.getV 15)) = some (0x0FFF#16, 0x00#8) := by decide
/-- V87, V86. -/
theorem test_addI_wrap_and_vf :
    after { s0.setV 1 0x02#8 with i := 0xFFFF#16 } 0xF11E (fun t => t.i) = some 0x0001#16 ∧
    after (withQ { s0.setV 15 0x01#8 with i := 0x0FFF#16 } ⟨true, true, false, false, true⟩) 0xFF1E
      (fun t => (t.i, t.getV 15)) = some (0x1000#16, 0x01#8) := by decide
/-- V88, V90. -/
theorem test_ldF :
    after (s0.setV 0 0x07#8) 0xF029 (fun t => t.i) = some 0x0073#16 ∧
    after (s0.setV 0 0x1A#8) 0xF029 (fun t => t.i) = some 0x0082#16 := by decide
/-- V91, V92. -/
theorem test_ldHf :
    after (s0.setV 0 0x02#8) 0xF030 (fun t => t.i) = some 0x00B4#16 ∧
    after (s0.setV 0 0x0F#8) 0xF030 (fun t => t.i) = some 0x0136#16 := by decide
/-- V100, V103. -/
theorem test_rnd :
    after { s0 with randIn := [0xA7#8, 0x11#8] } 0xC00F (fun t => (t.getV 0, t.randIn)) = some (0x07#8, [0x11#8]) ∧
    after { s0.setV 15 1#8 with randIn := [0x7F#8] } 0xCF80 (fun t => t.getV 15) = some 0x00#8 := by decide
/-- V101: with no byte supplied the draw is a free value; under the mask 0 it does not show. -/
theorem test_rnd_masked_free_draw : after s0 0xC000 (fun t => t.draws) = some 1 := by decide

/-- V123. -/
theorem test_cls :
    after (withPixel (withPixel s0 0 0) 63 31) 0x00E0 (fun t => (t.pixel 0 0, t.pixel 63 31, t.redraw, t.res)) =
      some (false, false, true, .low) := by decide
/-- V113: the start is masked to (63, 31), the rest is clipped. -/
theorem test_drw_clips :
    after (withI (withV 0 0xFF#8 1 0xFF#8) 0x0300#16 [0xC0#8]) 0xD011
      (fun t => (t.pixel 63 31, t.pixel 0 31, t.pixel 63 0, t.getV 15, t.redraw)) =
      some (true, false, false, 0x00#8, true) := by decide
/-- V117 and the collision of V116 in one row: bit 7 is leftmost. -/
theorem test_drw_collides :
    after (withI (withPixel (withV 0 2#8 1 0#8) 2 0) 0x0300#16 [0xC0#8]) 0xD011
      (fun t => (t.pixel 2 0, t.pixel 3 0, t.pixel 4 0, t.getV 15)) = some (false, true, false, 0x01#8) ∧
    after (withI (s0.setV 15 5#8) 0x0300#16 [0x80#8]) 0xDF11 (fun t => (t.pixel 5 0, t.getV 15)) =
      some (true, 0x00#8) := by decide
/-- V120: 16 × 16 in low resolution, the byte at the lower address left. -/
theorem test_drwLarge :
    after (withI s0 0x0300#16 [0x80#8, 0x01#8, 0x40#8, 0x02#8]) 0xD010
      (fun t => (t.pixel 0 0, t.pixel 15 0, t.pixel 7 0, t.pixel 1 1, t.pixel 14 1, t.getV 15)) =
      some (true, true, false, true, true, 0x00#8) := by decide
/-- V122, V118. -/
theorem test_draw_faults :
    after { s0 with i := 0x0FE1#16 } 0xD010 (fun t => (t.fault, t.redraw)) =
      some (some (.memBounds 0x0200#16 0x1000 .read), false) ∧
    after { s0 with i := 0x0FFD#16 } 0xD015 (fun t => (t.fault, t.redraw)) =
      some (some (.memBounds 0x0200#16 0x1000 .read), false) := by decide
/-- V124, V125. -/
theorem test_scd :
    after (withPixel s0 0 0) 0x00C3 (fun t => (t.pixel 0 3, t.pixel 0 0)) = some (true, false) ∧
    after (withPixel s0 0 31) 0x00C1 (fun t => (t.pixel 0 31, t.pixel 0 0, t.redraw)) =
      some (false, false, true) := by decide
/-- V127, V128. -/
theorem test_scr :
    after (withPixel s0 0 0) 0x00FB (fun t => (t.pixel 4 0, t.pixel 0 0)) = some (true, false) ∧
    after (withPixel s0 63 0) 0x00FB (fun t => (t.pixel 63 0, t.pixel 3 0)) = some (false, false) := by decide
/-- V129, V130. -/
theorem test_scl :
    after (withPixel s0 4 0) 0x00FC (fun t => (t.pixel 0 0, t.pixel 4 0)) = some (true, false) ∧
    after (withPixel s0 0 0) 0x00FC (fun t => (t.pixel 0 0, t.pixel 60 0)) = some (false, false) := by decide
/-- V180. -/
theorem test_exit : after { s0 with pc := 0x0300#16 } 0x00FD (fun t => (t.pc, t.fault)) = some (0x0300#16, none) := by
  decide
/-- V133. -/
theorem test_low :
    after (withPixel hi0 0 0) 0x00FE (fun t => (t.width, t.height, t.pixel 0 0, t.redraw)) =
      some (64, 32, false, true) := by decide
/-- V131. -/
theorem test_high :
    after (withPixel s0 0 0) 0x00FF (fun t => (t.width, t.height, t.pixel 0 0, t.redraw)) =
      some (128, 64, false, true) := by decide

/-- V146, V147. -/
theorem test_skp :
    after { s0.setV 4 0x0A#8 with keysIn := [0x0400#16] } 0xE49E (fun t => (t.pc, t.keysIn)) = some (0x0204#16, []) ∧
    after { s0.setV 4 0x0A#8 with keysIn := [0xFBFF#16] } 0xE49E (fun t => t.pc) = some 0x0202#16 := by decide
/-- V148, V149. -/
theorem test_sknp :
    after { s0.setV 4 0x15#8 with keysIn := [0x0020#16] } 0xE4A1 (fun t => t.pc) = some 0x0202#16 ∧
    after { s0.setV 4 0x0A#8 with keysIn := [0xFBFF#16] } 0xE4A1 (fun t => t.pc) = some 0x0204#16 := by decide
/-- V150. -/
theorem test_ldVxK_waits :
    after (s0.setV 3 9#8) 0xF30A (fun t => (t.pc, t.runState, t.getV 3)) = some (0x0200#16, .waiting, 0x09#8) := by
  decide
/-- V151. -/
theorem test_ldVxK_takes_key :
    after { s0 with pending := some 7 } 0xF30A (fun t => (t.pc, t.runState, t.getV 3, t.pending)) =
      some (0x0202#16, .running, 0x07#8, none) := by decide
/-- V160. -/
theorem test_ldVxDt : after { s0 with dt := 0x2A#8 } 0xF107 (fun t => t.getV 1) = some 0x2A#8 := by decide
/-- V161. -/
theorem test_ldDtVx : after (s0.setV 1 0x3C#8) 0xF115 (fun t => (t.dt, t.st)) = some (0x3C#8, 0x00#8) := by decide
/-- V162. -/
theorem test_ldStVx : after (s0.setV 1 0x05#8) 0xF118 (fun t => (t.dt, t.st)) = some (0x00#8, 0x05#8) := by decide
/-- V170, V171. -/
theorem test_storeRegs :
    after (withI (withV 0 1#8 1 2#8) 0x0300#16 []) 0xF155 (fun t => (t.mem.read 0x300, t.mem.read 0x301, t.i)) =
      some (0x01#8, 0x02#8, 0x0302#16) ∧
    after (withQ (withI (withV 0 1#8 1 2#8) 0x0300#16 []) ⟨true, false, false, false, false⟩) 0xF155
      (fun t => (t.mem.read 0x301, t.i)) = some (0x02#8, 0x0300#16) := by decide
/-- V173. -/
theorem test_storeRegs_fault :
    after (withI ((withV 0 0x11#8 1 0x22#8).setV 2 0x33#8) 0x0FFE#16 []) 0xF255
      (fun t => (t.mem.read 0xFFE, t.mem.read 0xFFF, t.i, t.pc, t.fault)) =
      some (0x11#8, 0x22#8, 0x0FFE#16, 0x0202#16, some (.memBounds 0x0200#16 0x1000 .write)) := by decide
/-- V174, V175. -/
theorem test_loadRegs :
    after (withQ (withI s0 0x0300#16 [2#8, 3#8, 8#8]) ⟨true, false, false, false, false⟩) 0xF265
      (fun t => (t.getV 0, t.getV 1, t.getV 2, t.i)) = some (0x02#8, 0x03#8, 0x08#8, 0x0300#16) ∧
    after (withI s0 0x0300#16 [2#8, 3#8, 8#8]) 0xFF65 (fun t => (t.getV 2, t.getV 15, t.i)) =
      some (0x08#8, 0x00#8, 0x0310#16) := by decide
/-- E7, V176. -/
theorem test_ldB :
    after (withI (s0.setV 0 0xEE#8) 0x0300#16 []) 0xF033
      (fun t => (t.mem.read 0x300, t.mem.read 0x301, t.mem.read 0x302, t.i)) =
      some (0x02#8, 0x03#8, 0x08#8, 0x0300#16) := by decide
/-- V177. -/
theorem test_ldB_fault :
    after (withI (s0.setV 0 0xFF#8) 0x0FFE#16 []) 0xF033
      (fun t => (t.mem.read 0xFFE, t.mem.read 0xFFF, t.fault)) =
      some (0x02#8, 0x05#8, some (.memBounds 0x0200#16 0x1000 .write)) := by decide
/-- V182 with V[3] set, V184. -/
theorem test_saveFlags :
    after (((withV 0 9#8 1 8#8).setV 2 7#8).setV 3 6#8) 0xF275 (fun t => (t.rpl[0], t.rpl[1], t.rpl[2], t.rpl[3])) =
      some (0x09#8, 0x08#8, 0x07#8, 0x00#8) ∧
    after (s0.setV 0 9#8) 0xF875 (fun t => (t.fault, t.pc, t.rpl[0])) =
      some (some (.flagIndex 0x0200#16 8), 0x0202#16, 0x00#8) := by decide
/-- V183, V185. -/
theorem test_restoreFlags :
    after { s0 with rpl := (s0.rpl.set 0 0x11#8).set 1 0x22#8 } 0xF185 (fun t => (t.getV 0, t.getV 1)) =
      some (0x11#8, 0x22#8) ∧
    after { s0 with rpl := s0.rpl.set 0 0x11#8 } 0xFF85 (fun t => (t.fault, t.getV 0)) =
      some (some (.flagIndex 0x0200#16 15), 0x00#8) := by decide

/-! ### Host operations -/

/-- V163, V165, V167. -/
theorem test_tick :
    afterOp { s0 with dt := 1#8, st := 2#8, redraw := true, runState := .waiting } .tick
      (fun t => (t.dt, t.st, t.redraw, t.out)) =
      some (0x00#8, 0x01#8, false, [.flush 64 32 s0.pix]) := by decide
/-- V166. -/
theorem test_tick_no_flush : afterOp s0 .tick (fun t => (t.dt, t.out)) = some (0x00#8, []) := by decide
/-- V140, V142. -/
theorem test_keyDown :
    afterOp s0 (.keyDown 5) (fun t => (t.held[5], t.held[4])) = some (true, false) ∧
    afterOp { s0 with pending := some 5 } (.keyDown 6) (fun t => t.held[6]) = some false := by decide
/-- V141, V144. -/
theorem test_keyUp :
    afterOp { s0 with held := s0.held.set 5 true } (.keyUp 5) (fun t => (t.held[5], t.pending)) =
      some (false, some 5) ∧
    afterOp { s0 with held := s0.held.set 3 true, pending := some 12 } (.keyUp 3) (fun t => (t.held[3], t.pending)) =
      some (false, some 12) := by decide
/-- V145. -/
theorem test_keyboardReset :
    afterOp { s0 with pending := some 5, held := s0.held.set 3 true } .keyboardReset
      (fun t => (t.pending, t.held[3])) = some (none, false) := by decide
/-- V186, V190. -/
theorem test_reset :
    afterOp { s0 with rpl := s0.rpl.set 0 0x42#8, pc := 0x0300#16, i := 1#16, stack := [1#16], runState := .waiting }
      .reset (fun t => (t.rpl[0], t.pc, t.i, t.stack, t.runState)) =
      some (0x00#8, 0x0200#16, 0x0000#16, [], .running) := by decide
/-- R300, R301: RESET right after the core is created changes nothing. -/
theorem test_reset_of_created_core : State.reset.interpreterReset = State.reset := rfl
/-- The memory after LOAD of the image 6A 3C. -/
def loaded : Memory := loadedMemory Config.standard [0x6A#8, 0x3C#8]
/-- R271: the recorded information, at the bounds of each condition. -/
theorem test_mayRaise :
    mayRaise s0 (.drw 0 0 1#4) (.memBounds 0x01FE#16 4096 .read) = true ∧
    mayRaise s0 (.drw 0 0 1#4) (.memBounds 0x01FE#16 4095 .read) = false ∧
    mayRaise s0 (.ldB 0) (.memBounds 0x01FE#16 4096 .read) = false ∧
    mayRaise s0 .ret (.stackUnderflow 0x01FE#16) = true ∧ mayRaise s0 (.call 0#12) (.stackOverflow 0x01FE#16) = false ∧
    mayRaise s0 (.saveFlags 8) (.flagIndex 0x01FE#16 8) = true ∧
    mayRaise s0 (.saveFlags 7) (.flagIndex 0x01FE#16 7) = false := by decide
/-- V194: the fonts after LOAD, and the image at 0x200. -/
theorem test_load_small_font :
    loaded.read 0x050 = 0xF0#8 ∧ loaded.read 0x051 = 0x90#8 ∧ loaded.read 0x054 = 0xF0#8 ∧
    loaded.read 0x09F = 0x80#8 := by decide +kernel
theorem test_load_large_font_and_image :
    loaded.read 0x0A1 = 0xFF#8 ∧ loaded.read 0x0A2 = 0xC3#8 ∧ loaded.read 0x13F = 0xC0#8 ∧
    loaded.read 0x200 = 0x6A#8 ∧ loaded.read 0x201 = 0x3C#8 := by decide +kernel
/-- R62: a missing image is rejected and memory stays. -/
theorem test_load_rejects :
    afterOp (withI s0 0x0300#16 [7#8]) (.load none) (fun t => (t.mem.read 0x300, t.out)) =
      some (0x07#8, [.report false]) := by decide
/-- V195, V196, V197. -/
theorem test_configuration :
    afterOp s0 (.configWrite "shifting" "true") (fun t => (t.qcr, t.out)) =
      some (⟨true, true, true, false, false⟩, [.report true]) ∧
    afterOp s0 (.configWrite "wrapping" "true") (fun t => (t.qcr, t.out)) =
      some (⟨true, true, false, false, false⟩, [.report false]) ∧
    afterOp s0 (.preset "schip") (fun t => t.qcr) = some ⟨false, false, true, true, false⟩ := by decide
/-- 10_state.md R29: the bit order of QCR. -/
theorem test_qcr_bits :
    qcrBits ⟨true, true, false, false, false⟩ = 0b00011#5 ∧ qcrBits ⟨false, false, true, true, false⟩ = 0b01100#5 := by
  decide
/-- 60_exceptions.md R271: the codes. -/
theorem test_fault_codes :
    FatalFault.code (.memBounds 0#16 0 .read) = 1 ∧ FatalFault.code (.stackOverflow 0#16) = 2 ∧
    FatalFault.code (.stackUnderflow 0#16) = 3 ∧ FatalFault.code (.flagIndex 0#16 8) = 4 := by decide
/-- The status output shows the registers, the size and FAULT. -/
theorem test_status :
    (s0.setV 3 9#8).status.v[3] = 0x09#8 ∧ s0.status.pc = 0x0200#16 ∧ hi0.status.w = 128 ∧ s0.status.fault = none := by
  decide

/-! ### Witnesses: states and operands that meet the hypotheses of each obligation, clause by clause, at the bounds -/

/-- A state whose next fetch reads the word `w` at `a`. -/
def at' (a : Word) (w : Nat) : State := { s0 with pc := a, mem := s0.mem.writeAll a.toNat (wordBytes (BitVec.ofNat 16 w)) }
/-- A state with PC at `a` and nothing listed there. -/
def fetchAt (a : Word) : State := { s0 with pc := a }
/-- A state about to do `op`. -/
def about (op : HostOp) : State := { s0 with sched := [op] }
/-- A full stack. -/
def full : State := { s0 with stack := List.replicate 16 0x0300#16 }
/-- Another legal machine: all of the u16 space, a fourfold high resolution, one return address. -/
def bigConfig : Config := { Config.standard with memSize := 65536, hiresScale := 4, stackDepth := 1 }

theorem standard_legal : Config.standard.Legal := by
  refine ⟨by decide, by decide, by decide, rfl, rfl, rfl, by decide⟩
theorem bigConfig_legal : bigConfig.Legal := by
  refine ⟨by decide, by decide, by decide, rfl, rfl, rfl, by decide⟩
theorem reset_meets_inv : State.reset.Inv := ⟨standard_legal, rfl, rfl, by decide, rfl⟩

theorem witness_DecodeOfEncodeIsTheInstruction :
    Instr.wellFormed (.drw 15 15 0x1#4) = true ∧ Instr.wellFormed (.jp 0xFFF#12) = true := by decide
theorem witness_EncodeOfDecodeIsTheWordLessIgnoredBits :
    decode 0x0FE0#16 = some .cls ∧ decode 0x512F#16 = some (.seReg 1 2) := by decide
theorem witness_MatchingWordsDecodeToTheirRow :
    0x0FE0#16 &&& (tableRow .cls).1 = (tableRow .cls).2 ∧ tableRow .cls ≠ (0xF000#16, 0xD000#16) ∧
    0xD011#16 &&& (tableRow (.drw 0 0 1#4)).1 = (tableRow (.drw 0 0 1#4)).2 ∧ 0xD011#16 &&& 0x000F#16 ≠ 0#16 := by
  decide
theorem witness_StepRunsTheDecodedInstruction :
    (at' 0x0FFE#16 0x6A3C).fault = none ∧ (at' 0x0FFE#16 0x6A3C).sched = [] ∧
    (at' 0x0FFE#16 0x6A3C).pc.toNat + 1 < (at' 0x0FFE#16 0x6A3C).cfg.memSize ∧
    decode (joinBytes ((at' 0x0FFE#16 0x6A3C).mem.read 0x0FFE) ((at' 0x0FFE#16 0x6A3C).mem.read 0x0FFF)) =
      some (.ldImm 10 0x3C#8) ∧ (about .cycle).sched.head? = some .cycle := by decide
theorem witness_FetchIsBigEndianAndPrecise :
    (at' 0x0FFE#16 0x6A3C).pc.toNat + 1 < (at' 0x0FFE#16 0x6A3C).cfg.memSize ∧
    (fetchAt 0x0FFF#16).cfg.memSize ≤ (fetchAt 0x0FFF#16).pc.toNat + 1 ∧
    (fetchAt 0x1000#16).cfg.memSize ≤ (fetchAt 0x1000#16).pc.toNat + 1 ∧ (fetchAt 0x1000#16).fault = none ∧
    (fetchAt 0x1000#16).sched = [] := by decide
theorem witness_UndefinedOpcodeOnlyLogs :
    (at' 0x0FFE#16 0xFFFF).fault = none ∧ (at' 0x0FFE#16 0xFFFF).sched = [] ∧
    (at' 0x0FFE#16 0xFFFF).pc.toNat + 1 < (at' 0x0FFE#16 0xFFFF).cfg.memSize ∧
    decode (joinBytes ((at' 0x0FFE#16 0xFFFF).mem.read 0x0FFE) ((at' 0x0FFE#16 0xFFFF).mem.read 0x0FFF)) = none := by
  decide
theorem witness_FaultedCoreHasNoStep :
    ({ s0 with fault := some (.flagIndex 0x0200#16 8) } : State).fault = some (.flagIndex 0x0200#16 8) := rfl
theorem witness_EveryOperationHasAStep :
    (about (.load none)).fault = none ∧ afterOp s0 (.load none) (fun t => t.out) = some [.report false] := by decide
theorem witness_StepKeepsTheInvariant : State.reset.Inv ∧ ∃ t, step State.reset = .next t :=
  ⟨reset_meets_inv, _, rfl⟩
theorem witness_CreatedCoreMeetsTheInvariant : Config.standard.Legal ∧ bigConfig.Legal :=
  ⟨standard_legal, bigConfig_legal⟩
theorem witness_ElementsBesideVAndPcHaveTheirOwnWriters :
    (∃ t, exec (.addReg 1 2) s0 = .next t) ∧ touchesDisplay (.addReg 1 2) = false ∧ Instr.addReg 1 2 ≠ .ret ∧
    (withQ s0 ⟨false, false, false, false, false⟩).qcr.memory = false := ⟨⟨_, rfl⟩, rfl, by decide, rfl⟩
theorem witness_OtherRegistersAreUnchanged :
    (∃ t, exec (.addReg 1 2) s0 = .next t) ∧ mayWriteV s0.qcr (.addReg 1 2) 3 = false ∧
    mayWriteV s0.qcr (.addReg 1 2) 2 = false ∧ mayWriteV s0.qcr (.restoreFlags 7) 8 = false := ⟨⟨_, rfl⟩, by decide⟩
theorem witness_PcChangesOnlyByControlFlow :
    changesPc .cls = false ∧ s0.fault = none ∧ ∃ t, exec .ret s0 = .next t ∧ t.fault ≠ none :=
  ⟨rfl, rfl, _, rfl, by decide⟩
theorem witness_MemoryWriteChangesOneCellOrFaults :
    s0.mem.wf = true ∧ s0.cfg.memSize ≤ 4096 ∧ 4095 < s0.cfg.memSize := by decide
theorem witness_StoresAreSeenByTheNextFetch :
    s0.mem.wf = true ∧ s0.pc.toNat + 1 < s0.cfg.memSize ∧
    (withI s0 0x0FF0#16 []).i.toNat + (15 : RegIdx).val < (withI s0 0x0FF0#16 []).cfg.memSize ∧
    (withI s0 0x0FFD#16 []).i.toNat + 2 < (withI s0 0x0FFD#16 []).cfg.memSize := by decide
theorem witness_JumpSetsPc : fieldC 0x1FFF#16 = 0x1#4 := by decide
theorem witness_ReturnPopsOrUnderflows :
    fieldC 0x0FEE#16 = 0x0#4 ∧ fieldNN 0x0FEE#16 = 0xEE#8 ∧
    full.stack = 0x0300#16 :: List.replicate 15 0x0300#16 ∧ s0.stack = [] := by decide
theorem witness_CallPushesOrOverflows :
    fieldC 0x2FFF#16 = 0x2#4 ∧ ({ full with stack := full.stack.tail } : State).stack.length < full.cfg.stackDepth ∧
    full.cfg.stackDepth ≤ full.stack.length := by decide
theorem witness_ImmediateSkips :
    fieldC 0x3F42#16 = 0x3#4 ∧ fieldC 0x4F42#16 = 0x4#4 ∧ (s0.setV 15 0x42#8).getV 15 = 0x42#8 ∧
    s0.getV 15 ≠ 0x42#8 := by decide
theorem witness_RegisterSkips :
    fieldC 0x512F#16 = 0x5#4 ∧ fieldC 0x912F#16 = 0x9#4 ∧ s0.getV 1 = s0.getV 2 ∧
    (s0.setV 1 1#8).getV 1 ≠ (s0.setV 1 1#8).getV 2 := by decide
theorem witness_OffsetJumpAddsTheQuirkRegister :
    fieldC 0xBFFF#16 = 0xB#4 ∧ s0.qcr.jumping = false ∧ (withQ s0 ⟨false, false, false, true, false⟩).qcr.jumping = true ∧
    (15 : RegIdx).val = (0xFFF#12).toNat / 256 ∧ (0 : RegIdx).val = (0x0FF#12).toNat / 256 := by decide
theorem witness_MovesAndAddImmediate :
    fieldC 0x6FFF#16 = 0x6#4 ∧ fieldC 0x7FFF#16 = 0x7#4 ∧ fieldC 0x8120#16 = 0x8#4 ∧ fieldN 0x8120#16 = 0x0#4 := by
  decide
theorem witness_LogicOperations :
    fieldC 0x8F21#16 = 0x8#4 ∧ fieldN 0x8F21#16 = 0x1#4 ∧ fieldN 0x8F22#16 = 0x2#4 ∧ fieldN 0x8F23#16 = 0x3#4 := by
  decide
theorem witness_AddAndSubtract :
    fieldC 0x8F14#16 = 0x8#4 ∧ fieldN 0x8F14#16 = 0x4#4 ∧ fieldN 0x8F15#16 = 0x5#4 ∧ fieldN 0x8F17#16 = 0x7#4 ∧
    0xFF = ((withV 1 0xFF#8 2 0#8).getV 1).toNat ∧ 0 = ((withV 1 0xFF#8 2 0#8).getV 2).toNat := by decide
theorem witness_Shifts :
    fieldC 0x8FF6#16 = 0x8#4 ∧ fieldN 0x8FF6#16 = 0x6#4 ∧ fieldN 0x8FFE#16 = 0xE#4 ∧ s0.qcr.shifting = false ∧
    0x81 = ((s0.setV 2 0x81#8).getV 2).toNat := by decide
theorem witness_LoadIndex : fieldC 0xAFFF#16 = 0xA#4 := by decide
theorem witness_AddToIndex :
    fieldC 0xFF1E#16 = 0xF#4 ∧ fieldNN 0xFF1E#16 = 0x1E#8 ∧
    0x100FE = ({ s0.setV 15 0xFF#8 with i := 0xFFFF#16 } : State).i.toNat + ((s0.setV 15 0xFF#8).getV 15).toNat := by
  decide
/-- A state as an accepted LOAD leaves it. -/
def loadedState (image : List Byte) : State := { s0 with mem := loadedMemory s0.cfg image }
theorem witness_FontGlyphAddresses :
    fieldC 0xFF29#16 = 0xF#4 ∧ fieldNN 0xFF29#16 = 0x29#8 ∧ fieldNN 0xFF30#16 = 0x30#8 ∧
    15 = ((s0.setV 0 0xFF#8).getV 0).toNat % 16 ∧
    (∀ image, (loadedState image).mem = loadedMemory (loadedState image).cfg image) ∧ s0.cfg.Legal :=
  ⟨by decide, by decide, by decide, by decide, fun _ => rfl, standard_legal⟩
theorem witness_RandomByteUnderMask :
    fieldC 0xCF80#16 = 0xC#4 ∧ ({ s0 with randIn := [0xFF#8] } : State).randIn = 0xFF#8 :: [] ∧ s0.randIn = [] := by
  decide
theorem witness_ClearDisplay : fieldC 0x0FE0#16 = 0x0#4 ∧ fieldNN 0x0FE0#16 = 0xE0#8 := by decide
theorem witness_DrawFlipsTheSpritePixels :
    fieldC 0xDFFF#16 = 0xD#4 ∧ fieldN 0xDFFF#16 ≠ 0x0#4 ∧ fieldC 0xD010#16 = 0xD#4 ∧ fieldN 0xD010#16 = 0x0#4 ∧
    s0.pix.shaped s0.width s0.height = true ∧ hi0.pix.shaped hi0.width hi0.height = true ∧
    (0xF#4 ≠ 0x0#4 ∧ (withI s0 0x0FF1#16 []).i.toNat + (0xF#4).toNat ≤ s0.cfg.memSize) ∧
    (withI s0 0x0FE0#16 []).i.toNat + 32 ≤ s0.cfg.memSize := by decide
/-- The two cases of the collision flag. -/
theorem witness_DrawFlipsTheSpritePixels_collision :
    (0 < s0.width ∧ 0 < s0.height ∧ spritePixel (.drw 0 1 1#4) (withI (withPixel s0 0 0) 0x0300#16 [0x80#8]) 0 0 = true ∧
      (withI (withPixel s0 0 0) 0x0300#16 [0x80#8]).pixel 0 0 = true) ∧
    ¬∃ px py, px < s0.width ∧ py < s0.height ∧ spritePixel (.drw 0 1 1#4) s0 px py = true ∧ s0.pixel px py = true := by
  refine ⟨by decide, fun ⟨px, py, _, _, h, _⟩ => ?_⟩
  rw [spritePixel, show s0.mem = [] from rfl] at h
  simp [Memory.read, Memory.unlisted] at h
theorem witness_FaultingDrawChangesNothing :
    (0xF#4 ≠ 0x0#4 ∧ s0.cfg.memSize < (withI s0 0x0FF2#16 []).i.toNat + (0xF#4).toNat) ∧
    s0.cfg.memSize < (withI s0 0x0FE1#16 []).i.toNat + 32 := by decide
theorem witness_DrawingTwiceRestoresTheGrid :
    s0.pix.shaped s0.width s0.height = true ∧ (14 : RegIdx) ≠ 15 ∧ (0 : RegIdx) ≠ 15 ∧
    (0xF#4 ≠ 0x0#4 ∧ (withI s0 0x0FF1#16 []).i.toNat + (0xF#4).toNat ≤ s0.cfg.memSize) ∧
    (withI s0 0x0FE0#16 []).i.toNat + 32 ≤ s0.cfg.memSize := by decide
theorem witness_ScrollDown :
    fieldC 0x0FCF#16 = 0x0#4 ∧ fieldY 0x0FCF#16 = 0xC#4 ∧ 63 < s0.width ∧ 31 < s0.height ∧ (0xF#4).toNat ≤ 15 ∧
    ¬(0xF#4).toNat ≤ 14 := by decide
theorem witness_ScrollSideways :
    fieldC 0x0FFB#16 = 0x0#4 ∧ fieldNN 0x0FFB#16 = 0xFB#8 ∧ fieldNN 0x0FFC#16 = 0xFC#8 ∧ 63 < s0.width ∧
    31 < s0.height ∧ 127 < hi0.width ∧ 63 < hi0.height := by decide
theorem witness_ResolutionChangesClear :
    fieldC 0x0FFE#16 = 0x0#4 ∧ fieldNN 0x0FFE#16 = 0xFE#8 ∧ fieldC 0x0FFF#16 = 0x0#4 ∧ fieldNN 0x0FFF#16 = 0xFF#8 := by
  decide
theorem witness_KeySkips :
    fieldC 0xEF9E#16 = 0xE#4 ∧ fieldNN 0xEF9E#16 = 0x9E#8 ∧ fieldNN 0xEFA1#16 = 0xA1#8 ∧
    15 = ((s0.setV 0 0xFF#8).getV 0).toNat % 16 ∧
    ({ s0 with keysIn := [0x8000#16] } : State).keysIn = 0x8000#16 :: [] ∧ s0.keysIn = [] := by decide
theorem witness_WaitForKey :
    fieldC 0xFF0A#16 = 0xF#4 ∧ fieldNN 0xFF0A#16 = 0x0A#8 ∧ s0.pending = none ∧
    ({ s0 with pending := some 15 } : State).pending = some 15 := by decide
theorem witness_KeyDownHoldsUnlessPending :
    (about (.keyDown 15)).fault = none ∧ (about (.keyDown 15)).sched = .keyDown 15 :: [] ∧
    (about (.keyDown 15)).pending = none ∧ ({ about (.keyDown 15) with pending := some 0 } : State).pending ≠ none := by
  decide
theorem witness_KeyUpReleasesOnce :
    (about (.keyUp 15)).fault = none ∧ (about (.keyUp 15)).sched = .keyUp 15 :: [] ∧
    (about (.keyUp 15)).held[(15 : Key)] = false ∧
    ({ about (.keyUp 15) with held := s0.held.set 15 true } : State).held[(15 : Key)] = true ∧
    (about (.keyUp 15)).pending = none ∧ ({ about (.keyUp 15) with pending := some 0 } : State).pending ≠ none ∧
    (about .keyboardReset).sched = .keyboardReset :: [] := by decide
theorem witness_TimerMoves :
    fieldC 0xFF07#16 = 0xF#4 ∧ fieldNN 0xFF07#16 = 0x07#8 ∧ fieldNN 0xFF15#16 = 0x15#8 ∧ fieldNN 0xFF18#16 = 0x18#8 := by
  decide
theorem witness_TickCountsAndFlushes :
    (about .tick).fault = none ∧ (about .tick).sched = .tick :: [] ∧ (about .tick).redraw = false ∧
    ({ about .tick with redraw := true } : State).redraw = true := by decide
theorem witness_TimersReachZeroAndStay :
    ({ s0 with sched := [.tick, .tick, .cycle] } : State).fault = none ∧
    ({ s0 with sched := [.tick, .tick, .cycle] } : State).sched = List.replicate 2 .tick ++ [.cycle] := by decide
theorem witness_StoreRegisters :
    fieldC 0xFF55#16 = 0xF#4 ∧ fieldNN 0xFF55#16 = 0x55#8 ∧ s0.mem.wf = true ∧
    (withI s0 0x0FF0#16 []).i.toNat + (15 : RegIdx).val < s0.cfg.memSize ∧
    (withI s0 0x0FFF#16 []).i.toNat + (0 : RegIdx).val < s0.cfg.memSize := by decide
theorem witness_LoadRegisters :
    fieldC 0xFF65#16 = 0xF#4 ∧ fieldNN 0xFF65#16 = 0x65#8 ∧
    (withI s0 0x0FF0#16 []).i.toNat + (15 : RegIdx).val < s0.cfg.memSize := by decide
/-- The first byte past the end, and an I past the end. -/
theorem witness_BlockTransferFaultsArePrecise :
    s0.mem.wf = true ∧ s0.cfg.memSize ≤ (withI s0 0x0FF1#16 []).i.toNat + (15 : RegIdx).val ∧
    s0.cfg.memSize ≤ (withI s0 0xFFFF#16 []).i.toNat + (0 : RegIdx).val := by decide
theorem witness_StoreThenLoadRestoresRegisters :
    s0.mem.wf = true ∧ (withI s0 0x0FF0#16 []).i.toNat + (15 : RegIdx).val < s0.cfg.memSize := by decide
theorem witness_StoreDecimalDigits :
    fieldC 0xFF33#16 = 0xF#4 ∧ fieldNN 0xFF33#16 = 0x33#8 ∧ s0.mem.wf = true ∧
    (withI s0 0x0FFD#16 []).i.toNat + 2 < s0.cfg.memSize ∧
    (s0.cfg.memSize ≤ (withI s0 0x0FFE#16 []).i.toNat + 2 ∧ (withI s0 0x0FFE#16 []).i.toNat + 1 < s0.cfg.memSize) ∧
    (s0.cfg.memSize ≤ (withI s0 0x0FFF#16 []).i.toNat + 2 ∧ (withI s0 0x0FFF#16 []).i.toNat < s0.cfg.memSize) := by
  decide
theorem witness_ExitLoopsOnItself :
    fieldC 0x0FFD#16 = 0x0#4 ∧ fieldNN 0x0FFD#16 = 0xFD#8 ∧ (at' 0x0FFE#16 0x00FD).fault = none ∧
    (at' 0x0FFE#16 0x00FD).sched = [] ∧ (at' 0x0FFE#16 0x00FD).pc.toNat + 1 < (at' 0x0FFE#16 0x00FD).cfg.memSize ∧
    decode (joinBytes ((at' 0x0FFE#16 0x00FD).mem.read 0x0FFE) ((at' 0x0FFE#16 0x00FD).mem.read 0x0FFF)) =
      some .exit := by decide
theorem witness_FlagBankSaveAndRestore :
    fieldC 0xF775#16 = 0xF#4 ∧ fieldNN 0xF775#16 = 0x75#8 ∧ fieldNN 0xF785#16 = 0x85#8 ∧ (7 : RegIdx).val ≤ 7 ∧
    7 < (8 : RegIdx).val ∧ (7 : RegIdx).val = (7 : Fin 8).val ∧ (7 : RegIdx) < 8 := by decide
theorem witness_ResetSetsTheInterpreterOnly :
    (about .reset).fault = none ∧ (about .reset).sched = .reset :: [] := by decide
/-- An image that just fits, one that is a byte too long, and none. -/
theorem witness_LoadLaysOutMemory :
    s0.fault = none ∧ s0.cfg.Legal ∧ 0x200 + (List.replicate 3584 0x01#8).length ≤ s0.cfg.memSize ∧
    s0.cfg.memSize < 0x200 + (List.replicate 3585 0x01#8).length ∧
    (about (.load (some [0x01#8]))).sched = .load (some [0x01#8]) :: [] ∧
    (about (.load none)).sched = .load none :: [] := by
  refine ⟨rfl, standard_legal, ?_, ?_, rfl, rfl⟩ <;> rw [List.length_replicate] <;> decide
theorem witness_BadConfigurationIsRejected :
    s0.fault = none ∧ (about (.configWrite "wrapping" "true")).sched = .configWrite "wrapping" "true" :: [] ∧
    (∀ q, ("wrapping", q) ∉ s0.cfg.quirkNames) ∧ ("1" ≠ "true" ∧ "1" ≠ "false") ∧
    (∀ q, ("vip", q) ∉ s0.cfg.presets) := by
  refine ⟨rfl, rfl, fun q => ?_, by decide, fun q => ?_⟩ <;>
    simp [s0, State.reset, State.powerOn, Config.standard]
theorem witness_ConfigurationWritesOneFieldPresetsAll :
    s0.fault = none ∧ s0.cfg.quirkNames = Config.standard.quirkNames ∧ s0.cfg.presets = Config.standard.presets ∧
    "false" = (if false = true then "true" else "false") ∧
    (about (.configWrite "ioverflow" "false")).sched = .configWrite "ioverflow" "false" :: [] ∧
    (about (.preset "xochip")).sched = .preset "xochip" :: [] := ⟨rfl, rfl, rfl, rfl, rfl, rfl⟩

end Sys2Proof.Tests
end

section
/-! Proofs of the memory obligations (20_memory.md). -/

namespace Sys2Proof.Machine

/-- Settles O17: the two outcomes of a write are split at MEM_SIZE, and in the canonical form a read after a write
differs at the written address only (R52). -/
theorem memoryWriteChangesOneCellOrFaults : Obligations.MemoryWriteChangesOneCellOrFaults := by
  intro s pc a b hwf
  constructor
  · intro hout
    exact s.memWrite_stop pc b hout
  · intro hin
    exact ⟨_, s.memWrite_go pc b hin, rfl, fun c => Memory.read_write hwf a c b⟩

end Sys2Proof.Machine
end

section
/-! Proofs of the cycle obligations (40_cycle.md). -/

namespace Sys2Proof.Machine

/-- The word of two bytes is big-endian: the first byte is the high one (R101). -/
theorem toNat_joinBytes (hi lo : Byte) : (joinBytes hi lo).toNat = 256 * hi.toNat + lo.toNat := by
  have hwide (b : Byte) : (b.setWidth 16).toNat = b.toNat := BitVec.toNat_setWidth_of_le (by decide)
  have hshift : hi.toNat <<< 8 % 2 ^ 16 = hi.toNat <<< 8 :=
    Nat.mod_eq_of_lt (by rw [Nat.shiftLeft_eq]; omega)
  calc (joinBytes hi lo).toNat
      = hi.toNat <<< 8 ||| lo.toNat := by
        rw [joinBytes, BitVec.toNat_or, BitVec.toNat_shiftLeft, hwide, hwide, hshift]
    _ = hi.toNat <<< 8 + lo.toNat := (Nat.shiftLeft_add_eq_or_of_lt lo.isLt _).symm
    _ = 256 * hi.toNat + lo.toNat := by rw [Nat.shiftLeft_eq]; omega

theorem State.nextOp_eq_cycle {s : State} (h : s.sched = [] ∨ s.sched.head? = some .cycle) :
    s.nextOp = .cycle := by
  rw [State.nextOp, List.headD_eq_head?_getD]
  rcases h with h | h
  · rw [h]; rfl
  · rw [h]; rfl

/-- A core without a fault whose host issues CYCLE next steps by CYCLE. -/
theorem step_eq_cycle {s : State} (hfault : s.fault = none)
    (hsched : s.sched = [] ∨ s.sched.head? = some .cycle) : step s = cycle s.begin := by
  simp only [step, hfault, State.nextOp_eq_cycle hsched, hostStep]

/-- A fault of the fetch ends the CYCLE (R101). -/
theorem cycle_of_fetch_stop {s t : State} (h : s.fetch = .stop t) : cycle s = .next t := by
  simp only [cycle, h]

theorem State.fetch_go {s : State} (h : s.pc.toNat + 1 < s.cfg.memSize) :
    s.fetch = .go (s.fetched s.wordAtPc) := by
  rcases s.fetch_cases with ⟨-, e⟩ | ⟨hout, -⟩
  · exact e
  · omega

/-- A fetch that faults records the first of its two addresses that does not exist. -/
theorem State.fetch_stop {s : State} (h : s.cfg.memSize ≤ s.pc.toNat + 1) :
    s.fetch = .stop (s.raise (.memBounds s.pc
      (if s.pc.toNat < s.cfg.memSize then s.pc.toNat + 1 else s.pc.toNat) .fetch)) := by
  have hfirst : max s.pc.toNat s.cfg.memSize =
      if s.pc.toNat < s.cfg.memSize then s.pc.toNat + 1 else s.pc.toNat := by
    split <;> omega
  rcases s.fetch_cases with ⟨hin, -⟩ | ⟨-, e⟩
  · omega
  · rw [e, hfirst]

/-- Settles O7: the two outcomes of the fetch are split at PC + 1 = MEM_SIZE; the word read is big-endian, and the fault
is raised before IR or PC is written (R101). -/
theorem fetchIsBigEndianAndPrecise : Obligations.FetchIsBigEndianAndPrecise := by
  intro s
  constructor
  · intro hin
    exact ⟨s.wordAtPc, toNat_joinBytes _ _, State.fetch_go hin⟩
  · intro hout hfault hsched
    rw [step_eq_cycle hfault hsched]
    exact cycle_of_fetch_stop (s := s.begin) (State.fetch_stop hout)

end Sys2Proof.Machine
end

section
/-! Proofs of the obligations on jumps and immediate skips (41_control_flow.md). -/

namespace Sys2Proof.Machine

theorem toNat_addrOf (nnn : Addr12) : (addrOf nnn).toNat = nnn.toNat :=
  BitVec.toNat_setWidth_of_le (by decide)

/-- A skip, taken or not, moves PC alone. -/
theorem State.skipIf_eq_with_pc (s : State) (c : Bool) : s.skipIf c = { s with pc := (s.skipIf c).pc } := by
  cases c with
  | false => rfl
  | true => rfl

theorem exec_jp (nnn : Addr12) (s : State) : exec (.jp nnn) s = .next (s.jump (addrOf nnn)) := rfl

theorem exec_seImm (x : RegIdx) (nn : Byte) (s : State) :
    exec (.seImm x nn) s = .next (s.skipIf (s.getV x == nn)) := rfl

theorem exec_sneImm (x : RegIdx) (nn : Byte) (s : State) :
    exec (.sneImm x nn) s = .next (s.skipIf (s.getV x != nn)) := rfl

/-- Settles O19: class 1 fixes the decoder's branch, and widening nnn to the 16 bits of PC keeps its value (R122). -/
theorem jumpSetsPc : Obligations.JumpSetsPc := by
  constructor
  · intro w hclass
    simp only [decode, hclass]
  · intro nnn s
    exact ⟨_, exec_jp nnn s, rfl, toNat_addrOf nnn⟩

/-- Settles O22: each class fixes the decoder's branch; both instructions are the one conditional skip, on the test of
V[x] against nn and on its negation (R124, R125). -/
theorem immediateSkips : Obligations.ImmediateSkips := by
  refine ⟨?seDecodes, ?sneDecodes, fun x nn s => ⟨?se, ?sne⟩⟩
  case seDecodes =>
    intro w hclass
    simp only [decode, hclass]
  case sneDecodes =>
    intro w hclass
    simp only [decode, hclass]
  case se =>
    refine ⟨_, exec_seImm x nn s, s.skipIf_eq_with_pc _, fun heq => ?_, fun hne => ?_⟩
    · simp [heq]
    · simp [hne]
  case sne =>
    refine ⟨_, exec_sneImm x nn s, s.skipIf_eq_with_pc _, fun hne => ?_, fun heq => ?_⟩
    · simp [hne]
    · simp [heq]

end Sys2Proof.Machine
end

section
/-! Proof of the obligation on register moves and the immediate add (42_arith.md). -/

namespace Sys2Proof.Machine

theorem decode_of_class_8 {w : Word} (hclass : fieldC w = 0x8#4) : decode w = decode8 w := by
  simp only [decode, hclass]

theorem exec_ldImm (x : RegIdx) (nn : Byte) (s : State) : exec (.ldImm x nn) s = .next (s.setV x nn) := rfl

theorem exec_addImm (x : RegIdx) (nn : Byte) (s : State) :
    exec (.addImm x nn) s = .next (s.setV x (s.getV x + nn)) := rfl

theorem exec_ldReg (x y : RegIdx) (s : State) : exec (.ldReg x y) s = .next (s.setV x (s.getV y)) := rfl

/-- A register write changes V alone. -/
theorem State.setV_eq_with_v (s : State) (x : RegIdx) (b : Byte) : s.setV x b = { s with v := (s.setV x b).v } := rfl

/-- Settles O25: class and low nibble fix the decoder's branch; all three instructions are the one register write, of
nn, of the wrapped sum and of V[y] as it was before the write (R141 to R143). -/
theorem movesAndAddImmediate : Obligations.MovesAndAddImmediate := by
  refine ⟨?ldImmDecodes, ?addImmDecodes, ?ldRegDecodes, fun x y nn s => ⟨?ldImm, ?addImm, ?ldReg⟩⟩
  case ldImmDecodes =>
    intro w hclass
    simp only [decode, hclass]
  case addImmDecodes =>
    intro w hclass
    simp only [decode, hclass]
  case ldRegDecodes =>
    intro w hclass hn
    simp only [decode_of_class_8 hclass, decode8, hn]
  case ldImm =>
    exact ⟨_, exec_ldImm x nn s, s.setV_eq_with_v x _, fun r => s.getV_setV x r _⟩
  case addImm =>
    refine ⟨_, exec_addImm x nn s, s.setV_eq_with_v x _, fun r => ?_⟩
    rw [s.getV_setV, apply_ite BitVec.toNat, BitVec.toNat_add]
  case ldReg =>
    exact ⟨_, exec_ldReg x y s, s.setV_eq_with_v x _, fun r => s.getV_setV x r _⟩

end Sys2Proof.Machine
end

section
/-! Proof of the obligation on the index load (43_index.md). -/

namespace Sys2Proof.Machine

theorem exec_ldI (nnn : Addr12) (s : State) : exec (.ldI nnn) s = .next (s.setI (addrOf nnn)) := rfl

/-- Settles O29: class A fixes the decoder's branch, and widening nnn to the 16 bits of I keeps its value (R170). -/
theorem loadIndex : Obligations.LoadIndex := by
  constructor
  · intro w hclass
    simp only [decode, hclass]
  · intro nnn s
    exact ⟨_, exec_ldI nnn s, rfl, toNat_addrOf nnn⟩

end Sys2Proof.Machine
end

section
/-! Proof of the obligation on clearing the display (45_display.md). -/

namespace Sys2Proof.Machine

theorem decode_of_class_0 {w : Word} (hclass : fieldC w = 0x0#4) : decode w = decode0 w := by
  simp only [decode, hclass]

theorem exec_cls (s : State) : exec .cls s = .next s.dispClear.setRedraw := rfl

/-- Settles O33: class 0 and the low byte fix the decoder's branch; the new grid is the blank one of the resolution
found, which has its shape and no pixel set (R193, R186). -/
theorem clearDisplay : Obligations.ClearDisplay := by
  constructor
  · intro w hclass hnn
    simp only [decode_of_class_0 hclass, decode0, hnn]
  · intro s
    exact ⟨_, exec_cls s, rfl, Grid.shaped_blank s.width s.height, Grid.get_blank s.width s.height⟩

end Sys2Proof.Machine
end

section
/-! Proof of the obligation on KeyDown(k) (46_keys.md). -/

namespace Sys2Proof.Machine

/-- A core without a fault steps by the host operation at the head of its schedule. -/
theorem step_eq_hostStep {s : State} {op : HostOp} {rest : List HostOp} (hfault : s.fault = none)
    (hsched : s.sched = op :: rest) : step s = hostStep op s.begin := by
  simp only [step, hfault, State.nextOp, hsched, List.headD_cons]

theorem State.begin_eq_of_sched {s : State} {op : HostOp} {rest : List HostOp} (hsched : s.sched = op :: rest) :
    s.begin = { s with sched := rest, out := [] } := by
  rw [State.begin, hsched, List.tail_cons]

/-- KeyDown(k) moves HELD alone. -/
theorem State.keyDown_eq_with_held (s : State) (k : Key) : s.keyDown k = { s with held := (s.keyDown k).held } := by
  unfold State.keyDown; split <;> rfl

/-- With no release pending, HELD[k] alone becomes 1. -/
theorem State.held_keyDown_of_not_pending (s : State) (k j : Key) (hfree : s.pending = none) :
    (s.keyDown k).held[j] = if j = k then true else s.held[j] := by
  simp only [State.keyDown, hfree, Fin.getElem_fin, Vector.getElem_set, Fin.ext_iff, eq_comm]

/-- While a release is pending KeyDown(k) is ignored. -/
theorem State.keyDown_of_pending (s : State) (k : Key) (hpending : s.pending ≠ none) : s.keyDown k = s := by
  obtain ⟨j, hj⟩ := Option.ne_none_iff_exists'.mp hpending
  simp only [State.keyDown, hj]

/-- Settles O42: the step is the keyboard's key-down on the state with the operation off the schedule; it moves HELD
alone, and PENDING decides between the held key and the ignored event (R210). -/
theorem keyDownHoldsUnlessPending : Obligations.KeyDownHoldsUnlessPending := by
  intro s k rest hfault hsched
  refine ⟨s.begin.keyDown k, step_eq_hostStep hfault hsched, ?frame, fun hfree j => ?held, fun hpending => ?ignored⟩
  case frame =>
    rw [State.begin_eq_of_sched hsched]
    exact State.keyDown_eq_with_held _ k
  case held => exact s.begin.held_keyDown_of_not_pending k j hfree
  case ignored => rw [s.begin.keyDown_of_pending k hpending, State.begin_held]

end Sys2Proof.Machine
end

section
/-! Proof of the obligation on the timer moves (47_timers.md). -/

namespace Sys2Proof.Machine

theorem decode_of_class_F {w : Word} (hclass : fieldC w = 0xF#4) : decode w = decodeF w := by
  simp only [decode, hclass]
  rfl

theorem exec_ldVxDt (x : RegIdx) (s : State) : exec (.ldVxDt x) s = .next (s.setV x s.dt) := rfl

theorem exec_ldDtVx (x : RegIdx) (s : State) : exec (.ldDtVx x) s = .next { s with dt := s.getV x } := rfl

theorem exec_ldStVx (x : RegIdx) (s : State) : exec (.ldStVx x) s = .next { s with st := s.getV x } := rfl

/-- Settles O44: class F and the low byte fix the decoder's branch; reading DT is one register write, and setting a
timer changes that timer alone (R230 to R232). -/
theorem timerMoves : Obligations.TimerMoves := by
  refine ⟨?readDtDecodes, ?setDtDecodes, ?setStDecodes, fun x s => ⟨?readDt, exec_ldDtVx x s, exec_ldStVx x s⟩⟩
  case readDtDecodes =>
    intro w hclass hnn
    simp only [decode_of_class_F hclass, decodeF, hnn]
  case setDtDecodes =>
    intro w hclass hnn
    simp only [decode_of_class_F hclass, decodeF, hnn]
  case setStDecodes =>
    intro w hclass hnn
    simp only [decode_of_class_F hclass, decodeF, hnn]
  case readDt =>
    exact ⟨_, exec_ldVxDt x s, s.setV_eq_with_v x _, fun r => s.getV_setV x r _⟩

end Sys2Proof.Machine
end

section
/-! Proof of the obligation on the decimal store (48_memory_block_bcd.md). -/

namespace Sys2Proof.Machine

/-- A store cut off at the address `n` puts its byte `k` in place when the byte's address is below `n`. -/
theorem Memory.read_writeAll_take_inside {m : Memory} (hm : m.wf = true) (a n : Nat) (bs : List Byte) {k : Nat}
    (hk : k < bs.length) (hin : a + k < n) : (m.writeAll a (bs.take (n - a))).read (a + k) = bs[k] := by
  have hkept : k < (bs.take (n - a)).length := by rw [List.length_take]; omega
  rw [Memory.read_writeAll_inside hm a _ hkept, List.getElem_take]

/-- A store cut off at the address `n` keeps every byte outside its range, and every byte from `n` on. -/
theorem Memory.read_writeAll_take_other (m : Memory) (a n : Nat) (bs : List Byte) {c : Nat}
    (h : c < a ∨ a + bs.length ≤ c ∨ n ≤ c) : (m.writeAll a (bs.take (n - a))).read c = m.read c :=
  Memory.read_writeAll_other m a _ (by rw [List.length_take]; omega)

@[simp] theorem length_bcdDigits (b : Byte) : (bcdDigits b).length = 3 := rfl

/-- In range and on a fault alike, LD B, Vx stores the digits cut off at MEM_SIZE; besides memory, only a fault changes
anything, and only FAULT (R242, R273). -/
theorem exec_ldB_eq_writeAll_take (x : RegIdx) (s : State) :
    ∃ t, exec (.ldB x) s = .next t ∧
      t.mem = s.mem.writeAll s.i.toNat ((bcdDigits (s.getV x)).take (s.cfg.memSize - s.i.toNat)) ∧
      (s.i.toNat + 2 < s.cfg.memSize → t = { s with mem := t.mem }) ∧
      (s.cfg.memSize ≤ s.i.toNat + 2 →
        t = { s with
          mem := t.mem
          fault := some (.memBounds s.instrAddr (max s.i.toNat s.cfg.memSize) .write) }) := by
  rcases exec_ldB_cases x s with ⟨hin, e⟩ | ⟨hout, e⟩
  · have hall : (bcdDigits (s.getV x)).take (s.cfg.memSize - s.i.toNat) = bcdDigits (s.getV x) :=
      List.take_of_length_le (by rw [length_bcdDigits]; omega)
    exact ⟨_, e, by rw [hall], fun _ => rfl, fun hout => by omega⟩
  · exact ⟨_, e, rfl, fun hin => by omega, fun _ => rfl⟩

/-- A number no greater than some byte is a whole byte. -/
theorem toNat_ofNat_of_le_toNat {b : Byte} {n : Nat} (h : n ≤ b.toNat) : (BitVec.ofNat 8 n).toNat = n :=
  (BitVec.toNat_ofNat n 8).trans (Nat.mod_eq_of_lt (Nat.lt_of_le_of_lt h b.isLt))

theorem toNat_bcdDigits_hundreds (b : Byte) : ((bcdDigits b)[0]'(by simp)).toNat = b.toNat / 100 :=
  toNat_ofNat_of_le_toNat (b := b) (by omega)

theorem toNat_bcdDigits_tens (b : Byte) : ((bcdDigits b)[1]'(by simp)).toNat = b.toNat / 10 % 10 :=
  toNat_ofNat_of_le_toNat (b := b) (by omega)

theorem toNat_bcdDigits_units (b : Byte) : ((bcdDigits b)[2]'(by simp)).toNat = b.toNat % 10 :=
  toNat_ofNat_of_le_toNat (b := b) (by omega)

/-- Settles O51: class F and the low byte fix the decoder's branch; with the stored digits cut off at MEM_SIZE, each
digit whose address exists is read back and every other byte is kept, whether or not the store faults (R242, R273). -/
theorem storeDecimalDigits : Obligations.StoreDecimalDigits := by
  constructor
  · intro w hclass hnn
    simp only [decode_of_class_F hclass, decodeF, hnn]
  · intro x s hwf
    obtain ⟨t, hexec, hmem, hgo, hstop⟩ := exec_ldB_eq_writeAll_take x s
    have hdigit {k : Nat} (hk : k < (bcdDigits (s.getV x)).length) (hin : s.i.toNat + k < s.cfg.memSize) :
        t.mem.read (s.i.toNat + k) = (bcdDigits (s.getV x))[k] := by
      rw [hmem, Memory.read_writeAll_take_inside hwf _ _ _ hk hin]
    refine ⟨t, hexec, hgo, hstop, fun hin => ?hundreds, fun hin => ?tens, fun hin => ?units, fun a ha => ?others⟩
    case hundreds => exact (congrArg BitVec.toNat (hdigit (k := 0) (by simp) hin)).trans (toNat_bcdDigits_hundreds _)
    case tens => rw [hdigit (by simp) hin, toNat_bcdDigits_tens]
    case units => rw [hdigit (by simp) hin, toNat_bcdDigits_units]
    case others =>
      rw [hmem, Memory.read_writeAll_take_other _ _ _ _ (by rw [length_bcdDigits]; omega)]

end Sys2Proof.Machine
end

section
/-! Proof of the obligation on stores seen by the next fetch (70_reset_and_hazards.md). -/

namespace Sys2Proof.Machine

@[simp] theorem State.length_regBytes (s : State) (x : RegIdx) : (s.regBytes x).length = x.val + 1 := by
  rw [State.regBytes, List.length_map, regsUpTo_length]

/-- Byte `k` of a block store is V[k] (R240). -/
theorem State.getElem_regBytes (s : State) (x : RegIdx) {k : Nat} (hk : k < (s.regBytes x).length) :
    (s.regBytes x)[k] = s.getV (Fin.ofNat 16 k) := by
  have hlen : k < (regsUpTo x).length := by simpa only [State.regBytes, List.length_map] using hk
  have hval : (regsUpTo x)[k].val = k := regsUpTo_getElem x k hlen
  have hreg : (regsUpTo x)[k] = Fin.ofNat 16 k :=
    Fin.ext (by rw [Fin.val_ofNat, hval, Nat.mod_eq_of_lt (hval ▸ (regsUpTo x)[k].isLt)])
  simp only [State.regBytes, List.getElem_map, hreg]

/-- The stored registers lie at I to I + x and every other byte is the old one (R240). -/
theorem read_writeAll_regBytes (x : RegIdx) {s : State} (hwf : s.mem.wf = true) (a : Nat) :
    (s.mem.writeAll s.i.toNat (s.regBytes x)).read a = byteAfterStore (.storeRegs x) s a := by
  simp only [byteAfterStore]
  split
  case isTrue hin =>
    have hk : a - s.i.toNat < (s.regBytes x).length := by rw [State.length_regBytes]; omega
    have hread := Memory.read_writeAll_inside hwf s.i.toNat (s.regBytes x) hk
    rwa [Nat.add_sub_cancel' hin.1, State.getElem_regBytes] at hread
  case isFalse hout =>
    exact Memory.read_writeAll_other _ _ _ (by rw [State.length_regBytes]; omega)

/-- The stored digits lie at I, I + 1 and I + 2 and every other byte is the old one (R242). -/
theorem read_writeAll_bcdDigits (x : RegIdx) {s : State} (hwf : s.mem.wf = true) (a : Nat) :
    (s.mem.writeAll s.i.toNat (bcdDigits (s.getV x))).read a = byteAfterStore (.ldB x) s a := by
  have hdigit {k : Nat} (hk : k < 3) :
      (s.mem.writeAll s.i.toNat (bcdDigits (s.getV x))).read (s.i.toNat + k) = (bcdDigits (s.getV x))[k] :=
    Memory.read_writeAll_inside hwf _ _ hk
  simp only [byteAfterStore]
  split_ifs with hhundreds htens hunits
  · rw [hhundreds]; exact hdigit (k := 0) (by decide)
  · rw [htens]; exact hdigit (k := 1) (by decide)
  · rw [hunits]; exact hdigit (k := 2) (by decide)
  · exact Memory.read_writeAll_other _ _ _ (by rw [length_bcdDigits]; omega)

/-- After a store whose addresses all exist, memory reads as `byteAfterStore` says, and the next fetch is at the same PC
and under the same MEM_SIZE. -/
theorem exec_store_eq_byteAfterStore {x : RegIdx} {i : Instr} {s : State} (hwf : s.mem.wf = true)
    (hstore : i = .storeRegs x ∧ s.i.toNat + x.val < s.cfg.memSize ∨ i = .ldB x ∧ s.i.toNat + 2 < s.cfg.memSize) :
    ∃ t, exec i s = .next t ∧ t.pc = s.pc ∧ t.cfg = s.cfg ∧ ∀ a, t.mem.read a = byteAfterStore i s a := by
  rcases hstore with ⟨rfl, hin⟩ | ⟨rfl, hin⟩
  case inl =>
    rcases exec_storeRegs_cases x s with ⟨-, e⟩ | ⟨hout, -⟩
    · exact ⟨_, e, by simp, by simp, fun a => by rw [State.advanceI_mem, read_writeAll_regBytes x hwf]⟩
    · omega
  case inr =>
    rcases exec_ldB_cases x s with ⟨-, e⟩ | ⟨hout, -⟩
    · exact ⟨_, e, rfl, rfl, read_writeAll_bcdDigits x hwf⟩
    · omega

/-- Settles O18: a store in range keeps PC and leaves the bytes of `byteAfterStore` in memory, and the fetch reads its
two bytes from that memory (R305). -/
theorem storesAreSeenByTheNextFetch : Obligations.StoresAreSeenByTheNextFetch := by
  intro x i s hwf hfetch hstore
  obtain ⟨t, hexec, hpc, hcfg, hread⟩ := exec_store_eq_byteAfterStore hwf hstore
  have hword : t.wordAtPc = joinBytes (byteAfterStore i s s.pc.toNat) (byteAfterStore i s (s.pc.toNat + 1)) := by
    rw [State.wordAtPc, hread, hread, hpc]
  refine ⟨t, hexec, ?_⟩
  rw [State.fetch_go (by rwa [hpc, hcfg]), hword, State.fetched, hpc]

end Sys2Proof.Machine
end

section
/-! Proofs of the encoding obligations (30_encoding.md): the decoder and the encoder agree, and the decoder follows the
opcode table. -/

namespace Sys2Proof

/-! ### Operands of a packed word, fields of a masked word -/

@[simp] theorem regX_packXYN (c x y n : Nibble) : regX (packXYN c x y n) = regOf x := by rw [regX, fieldX_packXYN]
@[simp] theorem regY_packXYN (c x y n : Nibble) : regY (packXYN c x y n) = regOf y := by rw [regY, fieldY_packXYN]
@[simp] theorem regX_packXNN (c x : Nibble) (nn : Byte) : regX (packXNN c x nn) = regOf x := by
  rw [regX, fieldX_packXNN]

theorem fieldC_and (w m : Word) : fieldC (w &&& m) = fieldC w &&& fieldC m := BitVec.extractLsb'_and
theorem fieldY_and (w m : Word) : fieldY (w &&& m) = fieldY w &&& fieldY m := BitVec.extractLsb'_and
theorem fieldN_and (w m : Word) : fieldN (w &&& m) = fieldN w &&& fieldN m := BitVec.extractLsb'_and
theorem fieldNN_and (w m : Word) : fieldNN (w &&& m) = fieldNN w &&& fieldNN m := BitVec.extractLsb'_and

/-- The low byte of a word is its nibbles y and n. -/
theorem fieldNN_eq (w : Word) : fieldNN w = (fieldY w).setWidth 8 <<< 4 ||| (fieldN w).setWidth 8 := by
  rw [← fieldNN_packXYN (fieldC w) (fieldX w), packXYN_fields]

/-! ### The decoder's branches that depend on more than one literal field -/

open Machine (decode_of_class_0 decode_of_class_8 decode_of_class_F)

theorem decode_of_class_D {w : Word} (hclass : fieldC w = 0xD#4) :
    decode w = if fieldN w = 0x0#4 then some (.drwLarge (regX w) (regY w))
      else some (.drw (regX w) (regY w) (fieldN w)) := by
  simp only [decode, hclass]

theorem decode_of_class_E {w : Word} (hclass : fieldC w = 0xE#4) : decode w = decodeE w := by
  simp only [decode, hclass]

/-- No low byte with y = C is one of the other class 0 codes, so y = C is SCD n whatever n is. -/
theorem decode_scd {w : Word} (hclass : fieldC w = 0x0#4) (hy : fieldY w = 0xC#4) :
    decode w = some (.scd (fieldN w)) := by
  rw [decode_of_class_0 hclass, decode0, fieldNN_eq, hy]
  generalize fieldN w = n
  revert n
  decide

/-! ### Decoding an encoded instruction -/

theorem decode_encode (i : Instr) (hwf : i.wellFormed = true) : decode (encode i) = some i := by
  cases i with
  | cls | ret | scr | scl | exit | low | high => rfl
  | scd n => exact (decode_scd (by simp [encode]) (by simp [encode])).trans (by simp [encode])
  | jp nnn | call nnn | ldI nnn | jpV0 nnn => simp [encode, decode]
  | seImm x nn | sneImm x nn | ldImm x nn | addImm x nn | rnd x nn => simp [encode, decode]
  | seReg x y | sneReg x y => simp [encode, decode]
  | ldReg x y | orReg x y | andReg x y | xorReg x y | addReg x y | subReg x y | shr x y | subn x y | shl x y =>
    simp [encode, decode, decode8]
  | drw x y n =>
    have hn : n ≠ 0x0#4 := by simpa [Instr.wellFormed] using hwf
    simp [encode, decode, hn]
  | drwLarge x y => simp [encode, decode]
  | skp x | sknp x => simp [encode, decode, decodeE]
  | ldVxDt x | ldVxK x | ldDtVx x | ldStVx x | addI x | ldF x | ldHf x | ldB x | storeRegs x | loadRegs x
  | saveFlags x | restoreFlags x => simp [encode, decode, decodeF]

/-- Settles O1: the packed fields of an encoding drive the decoder's branches back to the instruction, and the two bytes
of a word join to the word (R54, R70). -/
theorem decodeOfEncodeIsTheInstruction : Obligations.DecodeOfEncodeIsTheInstruction := by
  intro i hwf
  have hword := decode_encode i hwf
  refine ⟨hword, ?_⟩
  have hbytes := decodeBytes_wordBytes (encode i) []
  rwa [List.append_nil, hword] at hbytes

end Sys2Proof
end

section
/-! Proofs of the encoding obligations on words: ignored bits, table rows, undefined words, the spec's examples
(30_encoding.md). -/

namespace Sys2Proof

open Machine (decode_of_class_0 decode_of_class_8 decode_of_class_F)

/-! ### The encoding of what a word decodes to -/

theorem and_all_bits (w : Word) : w &&& 0xFFFF#16 = w := BitVec.and_allOnes

theorem packXNN_of_fields {w : Word} {c : Nibble} {nn : Byte} (hclass : fieldC w = c) (hnn : fieldNN w = nn) :
    packXNN c (regBits (regX w)) nn = w &&& 0xFFFF#16 := by
  rw [← hclass, ← hnn, regX, regBits_regOf, packXNN_fields, and_all_bits]

theorem packNNN_of_fields {w : Word} {c : Nibble} (hclass : fieldC w = c) :
    packNNN c (fieldNNN w) = w &&& 0xFFFF#16 := by
  rw [← hclass, packNNN_fields, and_all_bits]

theorem packXYN_of_fields {w : Word} {c n : Nibble} (hclass : fieldC w = c) (hn : fieldN w = n) :
    packXYN c (regBits (regX w)) (regBits (regY w)) n = w &&& 0xFFFF#16 := by
  rw [← hclass, ← hn, regX, regY, regBits_regOf, regBits_regOf, packXYN_fields, and_all_bits]

/-- Clearing all of a word's nibbles but the ones a mask of whole nibbles keeps. -/
theorem and_packXYN (w : Word) (c' x' y' n' : Nibble) :
    w &&& packXYN c' x' y' n' = packXYN (fieldC w &&& c') (fieldX w &&& x') (fieldY w &&& y') (fieldN w &&& n') := by
  rw [← Laws.TableRow.packXYN_and, packXYN_fields]

theorem nibble_and_all (b : Nibble) : b &&& 0xF#4 = b := BitVec.and_allOnes

/-- Classes 5 and 9 ignore the low nibble (decision D12). -/
theorem packXYN_of_fields_ignoring_n {w : Word} {c : Nibble} (hclass : fieldC w = c) :
    packXYN c (regBits (regX w)) (regBits (regY w)) 0x0#4 = w &&& 0xFFF0#16 := by
  have hmasked := and_packXYN w 0xF#4 0xF#4 0xF#4 0x0#4
  rw [nibble_and_all, nibble_and_all, nibble_and_all, BitVec.and_zero, hclass] at hmasked
  exact hmasked.symm

/-- Class 0 ignores x (decision D12). -/
theorem packXNN_of_fields_ignoring_x {w : Word} {nn : Byte} (hclass : fieldC w = 0x0#4) (hnn : fieldNN w = nn) :
    packXNN 0x0#4 0x0#4 nn = w &&& 0xF0FF#16 := by
  rw [← packXNN_fields w, Laws.TableRow.packXNN_nn, hclass, hnn]

/-- SCD n keeps y and n of class 0 (decision D12). -/
theorem packXYN_of_fields_ignoring_x {w : Word} (hclass : fieldC w = 0x0#4) (hy : fieldY w = 0xC#4) :
    packXYN 0x0#4 0x0#4 0xC#4 (fieldN w) = w &&& 0xF0FF#16 := by
  have hmasked := and_packXYN w 0xF#4 0x0#4 0xF#4 0xF#4
  rw [nibble_and_all, nibble_and_all, nibble_and_all, BitVec.and_zero, hclass, hy] at hmasked
  exact hmasked.symm

theorem encode_of_decode0 {w : Word} {i : Instr} (hclass : fieldC w = 0x0#4) (h : decode0 w = some i) :
    i.wellFormed = true ∧ encode i = w &&& careBits i := by
  unfold decode0 at h
  split at h
  case h_8 =>
    split at h
    case isTrue hy =>
      cases h
      exact ⟨rfl, packXYN_of_fields_ignoring_x hclass hy⟩
    case isFalse => cases h
  all_goals
    rename_i hnn
    cases h
    exact ⟨rfl, packXNN_of_fields_ignoring_x hclass hnn⟩

theorem encode_of_decode8 {w : Word} {i : Instr} (hclass : fieldC w = 0x8#4) (h : decode8 w = some i) :
    i.wellFormed = true ∧ encode i = w &&& careBits i := by
  unfold decode8 at h
  split at h
  case h_10 => cases h
  all_goals
    rename_i hn
    cases h
    exact ⟨rfl, packXYN_of_fields hclass hn⟩

theorem encode_of_decodeE {w : Word} {i : Instr} (hclass : fieldC w = 0xE#4) (h : decodeE w = some i) :
    i.wellFormed = true ∧ encode i = w &&& careBits i := by
  unfold decodeE at h
  split at h
  case h_3 => cases h
  all_goals
    rename_i hnn
    cases h
    exact ⟨rfl, packXNN_of_fields hclass hnn⟩

theorem encode_of_decodeF {w : Word} {i : Instr} (hclass : fieldC w = 0xF#4) (h : decodeF w = some i) :
    i.wellFormed = true ∧ encode i = w &&& careBits i := by
  unfold decodeF at h
  split at h
  case h_13 => cases h
  all_goals
    rename_i hnn
    cases h
    exact ⟨rfl, packXNN_of_fields hclass hnn⟩

theorem nibble_eq_F_of_not_mem : ∀ c : Nibble, c ∉ [0x0#4, 0x1#4, 0x2#4, 0x3#4, 0x4#4, 0x5#4, 0x6#4, 0x7#4, 0x8#4,
    0x9#4, 0xA#4, 0xB#4, 0xC#4, 0xD#4, 0xE#4] → c = 0xF#4 := by
  decide

/-- Settles O2: in each branch of the decoder the fields it tested are those the encoder packs, and the others are
operands or, in classes 0, 5 and 9, ignored (R73, decision D12). -/
theorem encodeOfDecodeIsTheWordLessIgnoredBits : Obligations.EncodeOfDecodeIsTheWordLessIgnoredBits := by
  intro w i h
  unfold decode at h
  split at h
  case h_1 hclass => exact encode_of_decode0 hclass h
  case h_9 hclass => exact encode_of_decode8 hclass h
  case h_15 hclass => exact encode_of_decodeE hclass h
  case h_16 => exact encode_of_decodeF (nibble_eq_F_of_not_mem _ (by simp_all)) h
  case h_14 hclass =>
    split at h
    case isTrue hn =>
      cases h
      exact ⟨rfl, packXYN_of_fields hclass hn⟩
    case isFalse hn =>
      cases h
      exact ⟨bne_iff_ne.mpr hn, packXYN_of_fields hclass rfl⟩
  case h_2 hclass | h_3 hclass | h_11 hclass | h_12 hclass =>
    cases h
    exact ⟨rfl, packNNN_of_fields hclass⟩
  case h_6 hclass | h_10 hclass =>
    cases h
    exact ⟨rfl, packXYN_of_fields_ignoring_n hclass⟩
  case h_4 hclass | h_5 hclass | h_7 hclass | h_8 hclass | h_13 hclass =>
    cases h
    exact ⟨rfl, packXNN_of_fields hclass rfl⟩

/-! ### Rows of the opcode table -/

/-- A mask that keeps a field fixes it to the row's. -/
theorem fieldC_of_row {w m k : Word} (hrow : w &&& m = k) (hm : fieldC m = 0xF#4) : fieldC w = fieldC k := by
  rw [← hrow, fieldC_and, hm, nibble_and_all]

theorem fieldN_of_row {w m k : Word} (hrow : w &&& m = k) (hm : fieldN m = 0xF#4) : fieldN w = fieldN k := by
  rw [← hrow, fieldN_and, hm, nibble_and_all]

theorem fieldY_of_row {w m k : Word} (hrow : w &&& m = k) (hm : fieldY m = 0xF#4) : fieldY w = fieldY k := by
  rw [← hrow, fieldY_and, hm, nibble_and_all]

theorem fieldNN_of_row {w m k : Word} (hrow : w &&& m = k) (hm : fieldNN m = 0xFF#8) : fieldNN w = fieldNN k := by
  rw [← hrow, fieldNN_and, hm]
  exact BitVec.and_allOnes.symm

theorem and_low_nibble_eq_zero {w : Word} (hn : fieldN w = 0x0#4) : w &&& 0x000F#16 = 0#16 := by
  have hmasked := and_packXYN w 0x0#4 0x0#4 0x0#4 0xF#4
  rw [hn] at hmasked
  simpa [packXYN] using hmasked

theorem fieldC_tableRow_mask (i : Instr) : fieldC (tableRow i).1 = 0xF#4 := by
  cases i <;> dsimp only [tableRow] <;> rfl

/-- A word that matches a row decodes into that row. -/
theorem map_tableRow_decode (i : Instr) (w : Word) (hrow : w &&& (tableRow i).1 = (tableRow i).2)
    (hdrw : tableRow i = (0xF000#16, 0xD000#16) → w &&& 0x000F#16 ≠ 0#16) :
    (decode w).map tableRow = some (tableRow i) := by
  have hclass := fieldC_of_row hrow (fieldC_tableRow_mask i)
  cases i
  all_goals dsimp only [tableRow] at hrow hclass ⊢
  case cls | ret | scr | scl | exit | low | high =>
    have hnn := fieldNN_of_row hrow rfl
    rw [decode_of_class_0 hclass, decode0, hnn]
    rfl
  case scd =>
    have hy := fieldY_of_row hrow rfl
    rw [decode_scd hclass hy]
    rfl
  case jp | call | seImm | sneImm | seReg | ldImm | addImm | sneReg | ldI | jpV0 | rnd =>
    rw [decode, hclass]
    rfl
  case ldReg | orReg | andReg | xorReg | addReg | subReg | shr | subn | shl =>
    have hn := fieldN_of_row hrow rfl
    rw [decode_of_class_8 hclass, decode8, hn]
    rfl
  case drw =>
    have hn : fieldN w ≠ 0x0#4 := fun hn => hdrw rfl (and_low_nibble_eq_zero hn)
    rw [decode_of_class_D hclass, if_neg hn]
    rfl
  case drwLarge =>
    have hn : fieldN w = 0x0#4 := fieldN_of_row hrow rfl
    rw [decode_of_class_D hclass, if_pos hn]
    rfl
  case skp | sknp =>
    have hnn := fieldNN_of_row hrow rfl
    rw [decode_of_class_E hclass, decodeE, hnn]
    rfl
  case ldVxDt | ldVxK | ldDtVx | ldStVx | addI | ldF | ldHf | ldB | storeRegs | loadRegs | saveFlags | restoreFlags =>
    have hnn := fieldNN_of_row hrow rfl
    rw [decode_of_class_F hclass, decodeF, hnn]
    rfl

/-- Settles O3: a row's mask keeps exactly the fields the decoder tests for it, so the match fixes the branch
(30_encoding.md section 4). -/
theorem matchingWordsDecodeToTheirRow : Obligations.MatchingWordsDecodeToTheirRow := by
  intro i w hrow hdrw
  exact Option.map_eq_some_iff.mp (map_tableRow_decode i w hrow hdrw)

/-! ### Undefined words -/

theorem decode0_eq_none_iff (w : Word) : decode0 w = none ↔
    fieldNN w ∉ [0xE0#8, 0xEE#8, 0xFB#8, 0xFC#8, 0xFD#8, 0xFE#8, 0xFF#8] ∧ fieldY w ≠ 0xC#4 := by
  unfold decode0
  split <;> simp_all

theorem decode8_eq_none_iff (w : Word) : decode8 w = none ↔
    fieldN w ∈ [0x8#4, 0x9#4, 0xA#4, 0xB#4, 0xC#4, 0xD#4, 0xF#4] := by
  have hdefined : decode8 w = none ↔
      fieldN w ∉ [0x0#4, 0x1#4, 0x2#4, 0x3#4, 0x4#4, 0x5#4, 0x6#4, 0x7#4, 0xE#4] := by
    unfold decode8
    split <;> simp_all
  have hrest : ∀ n : Nibble, n ∉ [0x0#4, 0x1#4, 0x2#4, 0x3#4, 0x4#4, 0x5#4, 0x6#4, 0x7#4, 0xE#4] ↔
      n ∈ [0x8#4, 0x9#4, 0xA#4, 0xB#4, 0xC#4, 0xD#4, 0xF#4] := by
    decide
  exact hdefined.trans (hrest _)

theorem decodeE_eq_none_iff (w : Word) : decodeE w = none ↔ fieldNN w ∉ [0x9E#8, 0xA1#8] := by
  unfold decodeE
  split <;> simp_all

theorem decodeF_eq_none_iff (w : Word) : decodeF w = none ↔
    fieldNN w ∉ [0x07#8, 0x0A#8, 0x15#8, 0x18#8, 0x1E#8, 0x29#8, 0x30#8, 0x33#8, 0x55#8, 0x65#8, 0x75#8, 0x85#8] := by
  unfold decodeF
  split <;> simp_all

/-- Settles O4: only the branches of classes 0, 8, E and F have a default, and each default is the complement of the
codes that branch lists (R75; SYS nnn by decision D13). -/
theorem undefinedWordsAreTheListedOnes : Obligations.UndefinedWordsAreTheListedOnes := by
  intro w
  rw [← decode0_eq_none_iff, ← decode8_eq_none_iff, ← decodeE_eq_none_iff, ← decodeF_eq_none_iff]
  unfold decode
  split
  case h_14 hclass => split <;> simp [hclass]
  case h_16 =>
    have hclass := nibble_eq_F_of_not_mem (fieldC w) (by simp_all)
    simp [hclass]
  all_goals
    rename_i hclass
    simp [hclass]

/-- Settles O5: each word is evaluated by the decoder. -/
theorem specExampleWordsDecode : Obligations.SpecExampleWordsDecode := by
  unfold Obligations.SpecExampleWordsDecode
  decide

end Sys2Proof
end

section
/-! The execute step, once for each instruction: what `exec` answers, and for an instruction that can end in more than
one way what it answers under each condition. The frames and the functional statements below cite these. -/

namespace Sys2Proof.Machine

/-! ### Instructions with one ending -/

theorem exec_scd (n : Nibble) (s : State) : exec (.scd n) s = .next (s.dispScrollDown n.toNat).setRedraw := rfl
theorem exec_scr (s : State) : exec .scr s = .next s.dispScrollRight.setRedraw := rfl
theorem exec_scl (s : State) : exec .scl s = .next s.dispScrollLeft.setRedraw := rfl
theorem exec_exit (s : State) : exec .exit s = .next s.rewind := rfl
theorem exec_low (s : State) : exec .low s = .next (s.dispSetResolution .low).setRedraw := rfl
theorem exec_high (s : State) : exec .high s = .next (s.dispSetResolution .high).setRedraw := rfl
theorem exec_seReg (x y : RegIdx) (s : State) : exec (.seReg x y) s = .next (s.skipIf (s.getV x == s.getV y)) := rfl
theorem exec_sneReg (x y : RegIdx) (s : State) : exec (.sneReg x y) s = .next (s.skipIf (s.getV x != s.getV y)) := rfl
theorem exec_jpV0 (nnn : Addr12) (s : State) : exec (.jpV0 nnn) s = .next (s.jump (s.jumpTarget nnn)) := rfl
theorem exec_orReg (x y : RegIdx) (s : State) :
    exec (.orReg x y) s = .next (s.setV x (s.getV x ||| s.getV y)).logicFlag := rfl
theorem exec_andReg (x y : RegIdx) (s : State) :
    exec (.andReg x y) s = .next (s.setV x (s.getV x &&& s.getV y)).logicFlag := rfl
theorem exec_xorReg (x y : RegIdx) (s : State) :
    exec (.xorReg x y) s = .next (s.setV x (s.getV x ^^^ s.getV y)).logicFlag := rfl
theorem exec_addReg (x y : RegIdx) (s : State) : exec (.addReg x y) s =
    .next (s.setResultFlag x (s.getV x + s.getV y) (carryFlag (s.getV x) (s.getV y))) := rfl
theorem exec_subReg (x y : RegIdx) (s : State) : exec (.subReg x y) s =
    .next (s.setResultFlag x (s.getV x - s.getV y) (noBorrowFlag (s.getV x) (s.getV y))) := rfl
theorem exec_subn (x y : RegIdx) (s : State) : exec (.subn x y) s =
    .next (s.setResultFlag x (s.getV y - s.getV x) (noBorrowFlag (s.getV y) (s.getV x))) := rfl
theorem exec_shr (x y : RegIdx) (s : State) : exec (.shr x y) s =
    .next (s.setResultFlag x (s.shiftSource x y >>> 1) (shiftedOutRight (s.shiftSource x y))) := rfl
theorem exec_shl (x y : RegIdx) (s : State) : exec (.shl x y) s =
    .next (s.setResultFlag x (s.shiftSource x y <<< 1) (shiftedOutLeft (s.shiftSource x y))) := rfl
theorem exec_rnd (x : RegIdx) (nn : Byte) (s : State) :
    exec (.rnd x nn) s = .next (s.afterDraw.setV x (s.randByte &&& nn)) := rfl
theorem exec_skp (x : RegIdx) (s : State) :
    exec (.skp x) s = .next (s.afterSample.skipIf (s.isPressed (lowNibble (s.getV x)))) := rfl
theorem exec_sknp (x : RegIdx) (s : State) :
    exec (.sknp x) s = .next (s.afterSample.skipIf (!s.isPressed (lowNibble (s.getV x)))) := rfl
theorem exec_addI (x : RegIdx) (s : State) : exec (.addI x) s =
    .next ((s.setI (s.i + (s.getV x).setWidth 16)).indexFlag (indexOverflowFlag s.cfg.iovfLimit s.i (s.getV x))) := rfl
theorem exec_ldF (x : RegIdx) (s : State) :
    exec (.ldF x) s = .next (s.setI (s.smallGlyph (lowNibble (s.getV x)))) := rfl
theorem exec_ldHf (x : RegIdx) (s : State) :
    exec (.ldHf x) s = .next (s.setI (s.largeGlyph (lowNibble (s.getV x)))) := rfl

/-! ### Instructions with more than one ending -/

section
variable {s : State}

theorem exec_ret_of_cons {a : Word} {rest : List Word} (hstack : s.stack = a :: rest) :
    exec .ret s = .next { s with stack := rest, pc := a } := by
  rcases exec_ret_cases s with ⟨w, rest', hcons, e⟩ | ⟨hnil, -⟩
  · obtain ⟨rfl, rfl⟩ := List.cons_eq_cons.mp (hstack.symm.trans hcons)
    exact e
  · simp [hstack] at hnil

theorem exec_ret_of_nil (hstack : s.stack = []) : exec .ret s = .next (s.raise (.stackUnderflow s.instrAddr)) :=
  ((exec_ret_cases s).resolve_left fun ⟨w, rest, hcons, _⟩ => by simp [hstack] at hcons).2

theorem exec_call_of_room (nnn : Addr12) (hroom : s.stack.length < s.cfg.stackDepth) :
    exec (.call nnn) s = .next { s with stack := s.pc :: s.stack, pc := addrOf nnn } :=
  ((exec_call_cases nnn s).resolve_right fun h => by omega).2

theorem exec_call_of_full (nnn : Addr12) (hfull : s.cfg.stackDepth ≤ s.stack.length) :
    exec (.call nnn) s = .next (s.raise (.stackOverflow s.instrAddr)) :=
  ((exec_call_cases nnn s).resolve_left fun h => by omega).2

theorem exec_drw_of_inside (x y : RegIdx) {n : Nibble} (hin : s.i.toNat + n.toNat ≤ s.cfg.memSize) :
    exec (.drw x y n) s = .next (s.drawSprite x y
      (((List.range n.toNat).map fun k => s.mem.read (s.i.toNat + k)).map byteBits)) :=
  (exec_drw_cases x y n s).resolve_right fun h => by omega

/-- DRW with no row reads nothing, so it cannot fault. -/
theorem exec_drw_zero (x y : RegIdx) : exec (.drw x y 0x0#4) s = .next (s.drawSprite x y []) := rfl

theorem exec_drw_of_outside (x y : RegIdx) {n : Nibble} (hn : n ≠ 0x0#4)
    (hout : s.cfg.memSize < s.i.toNat + n.toNat) :
    exec (.drw x y n) s = .next (s.raise (.memBounds s.instrAddr (max s.i.toNat s.cfg.memSize) .read)) := by
  have hrows : 0 < n.toNat := Nat.pos_of_ne_zero fun h => hn (BitVec.eq_of_toNat_eq h)
  simp only [exec, execDrw, s.readBytes_stop _ _ _ hrows hout, Flow.bind_stop, Flow.finish_stop]

theorem exec_drwLarge_of_inside (x y : RegIdx) (hin : s.i.toNat + 32 ≤ s.cfg.memSize) :
    exec (.drwLarge x y) s = .next (s.drawSprite x y
      (largeRows ((List.range 32).map fun k => s.mem.read (s.i.toNat + k)))) :=
  ((exec_drwLarge_cases x y s).resolve_right fun h => by omega).2

theorem exec_drwLarge_of_outside (x y : RegIdx) (hout : s.cfg.memSize < s.i.toNat + 32) :
    exec (.drwLarge x y) s = .next (s.raise (.memBounds s.instrAddr (max s.i.toNat s.cfg.memSize) .read)) :=
  ((exec_drwLarge_cases x y s).resolve_left fun h => by omega).2

theorem exec_storeRegs_of_inside {x : RegIdx} (hin : s.i.toNat + x.val < s.cfg.memSize) :
    exec (.storeRegs x) s = .next (State.advanceI { s with mem := s.mem.writeAll s.i.toNat (s.regBytes x) } x) :=
  ((exec_storeRegs_cases x s).resolve_right fun h => by omega).2

theorem exec_storeRegs_of_outside {x : RegIdx} (hout : s.cfg.memSize ≤ s.i.toNat + x.val) :
    exec (.storeRegs x) s = .next (State.raise (.memBounds s.instrAddr (max s.i.toNat s.cfg.memSize) .write)
      { s with mem := s.mem.writeAll s.i.toNat ((s.regBytes x).take (s.cfg.memSize - s.i.toNat)) }) :=
  ((exec_storeRegs_cases x s).resolve_left fun h => by omega).2

theorem exec_ldB_of_inside {x : RegIdx} (hin : s.i.toNat + 2 < s.cfg.memSize) :
    exec (.ldB x) s = .next { s with mem := s.mem.writeAll s.i.toNat (bcdDigits (s.getV x)) } :=
  ((exec_ldB_cases x s).resolve_right fun h => by omega).2

theorem exec_ldB_of_outside {x : RegIdx} (hout : s.cfg.memSize ≤ s.i.toNat + 2) :
    exec (.ldB x) s = .next (State.raise (.memBounds s.instrAddr (max s.i.toNat s.cfg.memSize) .write)
      { s with mem := s.mem.writeAll s.i.toNat ((bcdDigits (s.getV x)).take (s.cfg.memSize - s.i.toNat)) }) :=
  ((exec_ldB_cases x s).resolve_left fun h => by omega).2

theorem exec_loadRegs_of_inside {x : RegIdx} (hin : s.i.toNat + x.val < s.cfg.memSize) :
    exec (.loadRegs x) s = .next (State.advanceI { s with v := loadedV s s.i.toNat (regsUpTo x) } x) :=
  ((exec_loadRegs_cases x s).resolve_right fun h => by omega).2

theorem exec_loadRegs_of_outside {x : RegIdx} (hout : s.cfg.memSize ≤ s.i.toNat + x.val) :
    exec (.loadRegs x) s = .next (State.raise (.memBounds s.instrAddr (max s.i.toNat s.cfg.memSize) .read)
      { s with v := loadedV s s.i.toNat (regsUpTo x) }) :=
  ((exec_loadRegs_cases x s).resolve_left fun h => by omega).2

theorem exec_ldVxK_of_not_pending (x : RegIdx) (hfree : s.pending = none) :
    exec (.ldVxK x) s = .next { s with runState := .waiting, pc := s.pc - 2#16 } :=
  ((exec_ldVxK_cases x s).resolve_right fun ⟨k, hk, _⟩ => by simp [hfree] at hk).2

theorem exec_ldVxK_of_pending (x : RegIdx) {k : Key} (hpending : s.pending = some k) :
    exec (.ldVxK x) s =
      .next (State.setV { s with pending := none, runState := .running } x (BitVec.ofNat 8 k.val)) := by
  rcases exec_ldVxK_cases x s with ⟨hfree, -⟩ | ⟨j, hj, e⟩
  · simp [hpending] at hfree
  · obtain rfl := Option.some_injective _ (hpending.symm.trans hj)
    exact e

theorem exec_saveFlags_of_le {x : RegIdx} (hx : x.val ≤ 7) :
    exec (.saveFlags x) s = .next { s with rpl := s.savedFlags x } :=
  ((exec_saveFlags_cases x s).resolve_right fun h => by omega).2

theorem exec_saveFlags_of_gt {x : RegIdx} (hx : 7 < x.val) :
    exec (.saveFlags x) s = .next (s.raise (.flagIndex s.instrAddr x)) :=
  ((exec_saveFlags_cases x s).resolve_left fun h => by omega).2

theorem exec_restoreFlags_of_le {x : RegIdx} (hx : x.val ≤ 7) :
    exec (.restoreFlags x) s = .next { s with v := s.restoredFlags x } :=
  ((exec_restoreFlags_cases x s).resolve_right fun h => by omega).2

theorem exec_restoreFlags_of_gt {x : RegIdx} (hx : 7 < x.val) :
    exec (.restoreFlags x) s = .next (s.raise (.flagIndex s.instrAddr x)) :=
  ((exec_restoreFlags_cases x s).resolve_left fun h => by omega).2

end

end Sys2Proof.Machine
end

section
/-! Proofs of the whole-machine frames: which elements an instruction may write (10_state.md, 60_exceptions.md
section 1). -/

namespace Sys2Proof.Machine

/-- The execute step has one next state. -/
theorem exec_unique {i : Instr} {s t u : State} (ht : exec i s = .next t) (hu : exec i s = .next u) : t = u :=
  Host.Outcome.next.inj (ht.symm.trans hu)

/-- Settles O13: each instruction's next state is written over the state's named updates, and each of those writes its
own element; the instructions that can fault say under which condition they do (R271). -/
theorem elementsBesideVAndPcHaveTheirOwnWriters : Obligations.ElementsBesideVAndPcHaveTheirOwnWriters := by
  intro i s t h
  cases i with
  | cls | scd | scr | scl | exit | low | high | jp | seImm | sneImm | seReg | sneReg | jpV0 | ldImm | addImm | ldReg
  | orReg | andReg | xorReg | addReg | subReg | shr | subn | shl | ldI | rnd | skp | sknp | ldVxDt | ldDtVx | ldStVx
  | addI | ldF | ldHf =>
    obtain rfl := Host.Outcome.next.inj h
    simp [touchesDisplay]
  | ret =>
    rcases exec_ret_cases s with ⟨w, rest, hs, e⟩ | ⟨hs, e⟩ <;>
    · obtain rfl := exec_unique e h
      simp [mayRaise, hs, State.instrAddr]
  | call nnn =>
    rcases exec_call_cases nnn s with ⟨hdepth, e⟩ | ⟨hdepth, e⟩ <;>
    · obtain rfl := exec_unique e h
      simp [mayRaise, State.instrAddr, hdepth]
  | drw x y n =>
    rcases exec_drw_cases x y n s with e | ⟨-, e⟩ <;>
    · obtain rfl := exec_unique e h
      simp [mayRaise, State.instrAddr, touchesDisplay]
  | drwLarge x y =>
    rcases exec_drwLarge_cases x y s with ⟨-, e⟩ | ⟨-, e⟩ <;>
    · obtain rfl := exec_unique e h
      simp [mayRaise, State.instrAddr, touchesDisplay]
  | storeRegs x =>
    rcases exec_storeRegs_cases x s with ⟨-, e⟩ | ⟨-, e⟩ <;>
    · obtain rfl := exec_unique e h
      simp +contextual [mayRaise, State.instrAddr]
  | ldB x =>
    rcases exec_ldB_cases x s with ⟨-, e⟩ | ⟨-, e⟩ <;>
    · obtain rfl := exec_unique e h
      simp [mayRaise, State.instrAddr]
  | loadRegs x =>
    rcases exec_loadRegs_cases x s with ⟨-, e⟩ | ⟨-, e⟩ <;>
    · obtain rfl := exec_unique e h
      simp +contextual [mayRaise, State.instrAddr]
  | ldVxK x =>
    rcases exec_ldVxK_cases x s with ⟨-, e⟩ | ⟨k, -, e⟩ <;>
    · obtain rfl := exec_unique e h
      simp
  | saveFlags x =>
    rcases exec_saveFlags_cases x s with ⟨hx, e⟩ | ⟨hx, e⟩ <;>
    · obtain rfl := exec_unique e h
      simp [mayRaise, State.instrAddr, Nat.succ_le_iff, hx]
  | restoreFlags x =>
    rcases exec_restoreFlags_cases x s with ⟨hx, e⟩ | ⟨hx, e⟩ <;>
    · obtain rfl := exec_unique e h
      simp [mayRaise, State.instrAddr, Nat.succ_le_iff, hx]

/-- Two states with one register file hold the same registers. -/
theorem State.getV_congr {s t : State} (hv : t.v = s.v) (r : RegIdx) : t.getV r = s.getV r := by
  rw [State.getV_eq, State.getV_eq, hv]

/-- A register after OR, AND or XOR: the flag rule wins over the result (decision D9). -/
theorem State.getV_setV_logicFlag (s : State) (x r : RegIdx) (b : Byte) :
    (s.setV x b).logicFlag.getV r =
      if s.qcr.vfReset = true ∧ r = vf then 0x00#8 else if r = x then b else s.getV r := by
  rw [State.getV_logicFlag, State.getV_setV, State.setV_qcr]

/-- A register past x is not loaded from the flag bank. -/
theorem State.getV_restoredFlags_of_lt (s t : State) {x r : RegIdx} (hr : x < r) :
    ({ t with v := s.restoredFlags x } : State).getV r = s.getV r := by
  have hr' : ¬r ≤ x := not_le.mpr hr
  simp [State.getV_eq, State.restoredFlags, hr']

/-- Settles O14: each instruction's next state is written over the register writes of its rule, and each of those
leaves every register but its own. -/
theorem otherRegistersAreUnchanged : Obligations.OtherRegistersAreUnchanged := by
  intro i s t r h hr
  cases i with
  | cls | scd | scr | scl | exit | low | high | jp | seImm | sneImm | seReg | sneReg | jpV0 | ldI | skp | sknp | ldDtVx
  | ldStVx | ldF | ldHf =>
    obtain rfl := Host.Outcome.next.inj h
    exact State.getV_congr (by simp) r
  | ldImm x nn | addImm x nn | ldReg x y | ldVxDt x =>
    obtain rfl := Host.Outcome.next.inj h
    rw [State.getV_setV, if_neg (ne_of_beq_false hr)]
  | rnd x nn =>
    obtain rfl := Host.Outcome.next.inj h
    rw [State.getV_setV, if_neg (ne_of_beq_false hr)]
    exact State.getV_congr s.afterDraw_v r
  | orReg x y | andReg x y | xorReg x y =>
    obtain rfl := Host.Outcome.next.inj h
    obtain ⟨hx, hflag⟩ : r ≠ x ∧ ¬(s.qcr.vfReset = true ∧ r = vf) := by simpa [mayWriteV, vf] using hr
    rw [State.getV_setV_logicFlag, if_neg hflag, if_neg hx]
  | addReg x y | subReg x y | shr x y | subn x y | shl x y =>
    obtain rfl := Host.Outcome.next.inj h
    obtain ⟨hx, hflag⟩ : r ≠ x ∧ r ≠ vf := by simpa [mayWriteV, vf] using hr
    rw [State.getV_setResultFlag, if_neg hflag, if_neg hx]
  | addI x =>
    obtain rfl := Host.Outcome.next.inj h
    have hflag : ¬(s.qcr.ioverflow = true ∧ r = vf) := by simpa [mayWriteV, vf] using hr
    rw [State.getV_indexFlag]
    exact if_neg hflag
  | drw x y n =>
    rcases exec_drw_cases x y n s with e | ⟨-, e⟩ <;> obtain rfl := exec_unique e h
    · have hflag : r ≠ vf := ne_of_beq_false hr
      rw [State.getV_drawSprite, if_neg hflag]
    · rfl
  | drwLarge x y =>
    rcases exec_drwLarge_cases x y s with ⟨-, e⟩ | ⟨-, e⟩ <;> obtain rfl := exec_unique e h
    · have hflag : r ≠ vf := ne_of_beq_false hr
      rw [State.getV_drawSprite, if_neg hflag]
    · rfl
  | loadRegs x =>
    have hx : ¬(r ≤ x ∧ s.i.toNat + r.val < s.cfg.memSize) := fun hin => of_decide_eq_false hr hin.1
    have hloaded (u : State) : ({ u with v := loadedV s s.i.toNat (regsUpTo x) } : State).getV r = s.getV r := by
      rw [State.getV_loadedV_regsUpTo, if_neg hx]
    rcases exec_loadRegs_cases x s with ⟨-, e⟩ | ⟨-, e⟩ <;> obtain rfl := exec_unique e h
    · exact (State.getV_congr (State.advanceI_v _ x) r).trans (hloaded s)
    · exact hloaded s
  | restoreFlags x =>
    rcases exec_restoreFlags_cases x s with ⟨-, e⟩ | ⟨-, e⟩ <;> obtain rfl := exec_unique e h
    · exact s.getV_restoredFlags_of_lt s (not_le.mp (of_decide_eq_false hr))
    · rfl
  | ldVxK x =>
    rcases exec_ldVxK_cases x s with ⟨-, e⟩ | ⟨k, -, e⟩ <;> obtain rfl := exec_unique e h
    · rfl
    · rw [State.getV_setV, if_neg (ne_of_beq_false hr)]
      rfl
  | ret =>
    rcases exec_ret_cases s with ⟨w, rest, -, e⟩ | ⟨-, e⟩ <;> obtain rfl := exec_unique e h <;> rfl
  | call nnn =>
    rcases exec_call_cases nnn s with ⟨-, e⟩ | ⟨-, e⟩ <;> obtain rfl := exec_unique e h <;> rfl
  | storeRegs x =>
    rcases exec_storeRegs_cases x s with ⟨-, e⟩ | ⟨-, e⟩ <;> obtain rfl := exec_unique e h
    · exact State.getV_congr (State.advanceI_v _ x) r
    · rfl
  | ldB x =>
    rcases exec_ldB_cases x s with ⟨-, e⟩ | ⟨-, e⟩ <;> obtain rfl := exec_unique e h <;> rfl
  | saveFlags x =>
    rcases exec_saveFlags_cases x s with ⟨-, e⟩ | ⟨-, e⟩ <;> obtain rfl := exec_unique e h <;> rfl

/-- A fault is raised by an instruction that keeps PC, or by RET or CALL instead of its jump. -/
theorem eq_ret_or_eq_call_of_mayRaise {s : State} {i : Instr} {f : FatalFault} (hraise : mayRaise s i f = true)
    (hpc : changesPc i = true) : i = .ret ∨ ∃ nnn, i = .call nnn := by
  cases i with
  | ret => exact .inl rfl
  | call nnn => exact .inr ⟨nnn, rfl⟩
  | drw | drwLarge | ldB | storeRegs | loadRegs | saveFlags | restoreFlags => cases hpc
  | _ => cases hraise

theorem pc_eq_of_not_changesPc {i : Instr} {s t : State} (h : exec i s = .next t) (hpc : changesPc i = false) :
    t.pc = s.pc := by
  cases i with
  | cls | scd | scr | scl | low | high | ldImm | addImm | ldReg | orReg | andReg | xorReg | addReg | subReg | shr | subn
  | shl | ldI | rnd | ldVxDt | ldDtVx | ldStVx | addI | ldF | ldHf =>
    obtain rfl := Host.Outcome.next.inj h
    simp
  | drw x y n =>
    rcases exec_drw_cases x y n s with e | ⟨-, e⟩ <;> obtain rfl := exec_unique e h <;> rfl
  | drwLarge x y =>
    rcases exec_drwLarge_cases x y s with ⟨-, e⟩ | ⟨-, e⟩ <;> obtain rfl := exec_unique e h <;> rfl
  | storeRegs x =>
    rcases exec_storeRegs_cases x s with ⟨-, e⟩ | ⟨-, e⟩ <;> obtain rfl := exec_unique e h <;> simp
  | ldB x =>
    rcases exec_ldB_cases x s with ⟨-, e⟩ | ⟨-, e⟩ <;> obtain rfl := exec_unique e h <;> rfl
  | loadRegs x =>
    rcases exec_loadRegs_cases x s with ⟨-, e⟩ | ⟨-, e⟩ <;> obtain rfl := exec_unique e h <;> simp
  | saveFlags x =>
    rcases exec_saveFlags_cases x s with ⟨-, e⟩ | ⟨-, e⟩ <;> obtain rfl := exec_unique e h <;> rfl
  | restoreFlags x =>
    rcases exec_restoreFlags_cases x s with ⟨-, e⟩ | ⟨-, e⟩ <;> obtain rfl := exec_unique e h <;> rfl
  | _ => cases hpc

/-- RET and CALL that record a fault do not jump (R273). -/
theorem pc_eq_of_ret_fault {s t : State} (h : exec .ret s = .next t) (hnone : s.fault = none)
    (hsome : t.fault ≠ none) : t.pc = s.pc := by
  rcases exec_ret_cases s with ⟨w, rest, -, e⟩ | ⟨-, e⟩ <;> obtain rfl := exec_unique e h
  · exact absurd hnone hsome
  · rfl

theorem pc_eq_of_call_fault {nnn : Addr12} {s t : State} (h : exec (.call nnn) s = .next t) (hnone : s.fault = none)
    (hsome : t.fault ≠ none) : t.pc = s.pc := by
  rcases exec_call_cases nnn s with ⟨-, e⟩ | ⟨-, e⟩ <;> obtain rfl := exec_unique e h
  · exact absurd hnone hsome
  · rfl

/-- Settles O15: the instructions outside R22's list never write PC; of those in it only RET and CALL can fault, and
they do so before the jump (R273). -/
theorem pcChangesOnlyByControlFlow : Obligations.PcChangesOnlyByControlFlow := by
  intro i s t h
  refine ⟨pc_eq_of_not_changesPc h, fun hnone hsome => ?_⟩
  obtain ⟨-, -, -, -, -, -, hsame | ⟨f, -, hraise⟩, -⟩ := elementsBesideVAndPcHaveTheirOwnWriters i s t h
  · exact absurd (hsame.trans hnone) hsome
  cases hpc : changesPc i with
  | false => exact pc_eq_of_not_changesPc h hpc
  | true =>
    rcases eq_ret_or_eq_call_of_mayRaise hraise hpc with rfl | ⟨nnn, rfl⟩
    · exact pc_eq_of_ret_fault h hnone hsome
    · exact pc_eq_of_call_fault h hnone hsome

/-! ### IR -/

theorem State.skipIf_with_ir (s : State) (c : Bool) (w : Word) :
    ({ s with ir := w } : State).skipIf c = { s.skipIf c with ir := w } := by
  cases c <;> rfl

theorem State.advanceI_with_ir (s : State) (x : RegIdx) (w : Word) :
    ({ s with ir := w } : State).advanceI x = { s.advanceI x with ir := w } := by
  cases h : s.qcr.memory <;> simp [State.advanceI, h]

theorem State.logicFlag_with_ir (s : State) (w : Word) :
    ({ s with ir := w } : State).logicFlag = { s.logicFlag with ir := w } := by
  cases h : s.qcr.vfReset <;> simp [State.logicFlag, State.setV, h]

theorem State.setV_logicFlag_with_ir (s : State) (x : RegIdx) (b : Byte) (w : Word) :
    (State.setV { s with ir := w } x b).logicFlag = { (s.setV x b).logicFlag with ir := w } :=
  (s.setV x b).logicFlag_with_ir w

theorem State.indexFlag_with_ir (s : State) (b : Byte) (w : Word) :
    ({ s with ir := w } : State).indexFlag b = { s.indexFlag b with ir := w } := by
  cases h : s.qcr.ioverflow <;> simp [State.indexFlag, State.setV, h]

theorem State.afterDraw_with_ir (s : State) (w : Word) :
    ({ s with ir := w } : State).afterDraw = { s.afterDraw with ir := w } := by
  cases h : s.randIn <;> simp [State.afterDraw, h]

theorem State.afterSample_with_ir (s : State) (w : Word) :
    ({ s with ir := w } : State).afterSample = { s.afterSample with ir := w } := by
  cases h : s.keysIn <;> simp [State.afterSample, h]

theorem State.afterSample_skipIf_with_ir (s : State) (c : Bool) (w : Word) :
    (State.afterSample { s with ir := w }).skipIf c = { s.afterSample.skipIf c with ir := w } := by
  rw [State.afterSample_with_ir, State.skipIf_with_ir]

/-- Settles O16: no meaning reads IR, so each condition an instruction tests is the same in both states, and every
state update commutes with a change of IR (R24). -/
theorem noResultDependsOnIr : Obligations.NoResultDependsOnIr := by
  intro i s w
  cases i with
  | cls | scd | scr | scl | exit | low | high | jp | jpV0 | ldImm | addImm | ldReg | addReg | subReg | shr | subn | shl
  | ldI | ldF | ldHf | ldVxDt | ldDtVx | ldStVx => exact ⟨_, rfl, rfl⟩
  | seImm | sneImm | seReg | sneReg => exact ⟨_, rfl, congrArg _ (s.skipIf_with_ir _ w)⟩
  | orReg | andReg | xorReg => exact ⟨_, rfl, congrArg _ (s.setV_logicFlag_with_ir _ _ w)⟩
  | addI x => exact ⟨_, rfl, congrArg _ (State.indexFlag_with_ir (s.setI _) _ w)⟩
  | rnd x nn => exact ⟨_, rfl, congrArg _ (congrArg (State.setV · x _) (s.afterDraw_with_ir w))⟩
  | skp x | sknp x =>
    exact ⟨_, rfl, congrArg _ (s.afterSample_skipIf_with_ir _ w)⟩
  | ret =>
    rcases exec_ret_cases s with ⟨a, rest, hcons, e⟩ | ⟨hnil, e⟩
    · exact ⟨_, e, exec_ret_of_cons hcons⟩
    · exact ⟨_, e, exec_ret_of_nil hnil⟩
  | call nnn =>
    rcases exec_call_cases nnn s with ⟨hroom, e⟩ | ⟨hfull, e⟩
    · exact ⟨_, e, exec_call_of_room nnn hroom⟩
    · exact ⟨_, e, exec_call_of_full nnn hfull⟩
  | drw x y n =>
    rcases eq_or_ne n 0x0#4 with rfl | hn
    · exact ⟨_, exec_drw_zero x y, exec_drw_zero x y⟩
    rcases le_or_gt (s.i.toNat + n.toNat) s.cfg.memSize with hin | hout
    · exact ⟨_, exec_drw_of_inside x y hin, exec_drw_of_inside x y hin⟩
    · exact ⟨_, exec_drw_of_outside x y hn hout, exec_drw_of_outside x y hn hout⟩
  | drwLarge x y =>
    rcases exec_drwLarge_cases x y s with ⟨hin, e⟩ | ⟨hout, e⟩
    · exact ⟨_, e, exec_drwLarge_of_inside x y hin⟩
    · exact ⟨_, e, exec_drwLarge_of_outside x y hout⟩
  | storeRegs x =>
    rcases exec_storeRegs_cases x s with ⟨hin, e⟩ | ⟨hout, e⟩
    · exact ⟨_, e, (exec_storeRegs_of_inside (s := { s with ir := w }) hin).trans
        (congrArg _ (State.advanceI_with_ir { s with mem := s.mem.writeAll s.i.toNat (s.regBytes x) } x w))⟩
    · exact ⟨_, e, exec_storeRegs_of_outside hout⟩
  | ldB x =>
    rcases exec_ldB_cases x s with ⟨hin, e⟩ | ⟨hout, e⟩
    · exact ⟨_, e, exec_ldB_of_inside hin⟩
    · exact ⟨_, e, exec_ldB_of_outside hout⟩
  | loadRegs x =>
    rcases exec_loadRegs_cases x s with ⟨hin, e⟩ | ⟨hout, e⟩
    · exact ⟨_, e, (exec_loadRegs_of_inside (s := { s with ir := w }) hin).trans
        (congrArg _ (State.advanceI_with_ir { s with v := loadedV s s.i.toNat (regsUpTo x) } x w))⟩
    · exact ⟨_, e, exec_loadRegs_of_outside hout⟩
  | ldVxK x =>
    rcases exec_ldVxK_cases x s with ⟨hfree, e⟩ | ⟨k, hpending, e⟩
    · exact ⟨_, e, exec_ldVxK_of_not_pending x hfree⟩
    · exact ⟨_, e, exec_ldVxK_of_pending x hpending⟩
  | saveFlags x =>
    rcases exec_saveFlags_cases x s with ⟨hx, e⟩ | ⟨hx, e⟩
    · exact ⟨_, e, exec_saveFlags_of_le hx⟩
    · exact ⟨_, e, exec_saveFlags_of_gt hx⟩
  | restoreFlags x =>
    rcases exec_restoreFlags_cases x s with ⟨hx, e⟩ | ⟨hx, e⟩
    · exact ⟨_, e, exec_restoreFlags_of_le hx⟩
    · exact ⟨_, e, exec_restoreFlags_of_gt hx⟩

end Sys2Proof.Machine
end

section
/-! Proofs of the invariant obligations: legal parameters, memory, stack and grid (10_state.md, 20_memory.md). -/

namespace Sys2Proof.Machine

/-! ### Memory under the stores -/

/-- A store cut off at the end of the address space stays inside it. -/
theorem Memory.within_writeAll_take {n : Nat} {m : Memory} (hm : m.within n = true) (a : Nat) (bs : List Byte) :
    (m.writeAll a (bs.take (n - a))).within n = true := by
  rcases le_or_gt a n with ha | ha
  · exact Memory.within_writeAll hm (by rw [List.length_take]; omega)
  · rwa [Nat.sub_eq_zero_of_le ha.le, List.take_zero, Memory.writeAll_nil]

/-- Only the two stores write memory, and they write bytes of the address space. -/
theorem mem_of_exec {i : Instr} {s t : State} (h : exec i s = .next t) :
    t.mem = s.mem ∨ ∃ bs : List Byte, t.mem = s.mem.writeAll s.i.toNat (bs.take (s.cfg.memSize - s.i.toNat)) := by
  cases i with
  | storeRegs x =>
    right
    rcases exec_storeRegs_cases x s with ⟨hin, e⟩ | ⟨-, e⟩ <;> obtain rfl := exec_unique e h
    · refine ⟨s.regBytes x, ?_⟩
      rw [List.take_of_length_le (by rw [State.length_regBytes]; omega), State.advanceI_mem]
    · exact ⟨s.regBytes x, rfl⟩
  | ldB x =>
    obtain ⟨u, e, hmem, -, -⟩ := exec_ldB_eq_writeAll_take x s
    obtain rfl := exec_unique e h
    exact .inr ⟨_, hmem⟩
  | _ =>
    left
    obtain ⟨-, -, -, -, -, -, -, -, -, -, -, -, -, -, hmem, -⟩ := elementsBesideVAndPcHaveTheirOwnWriters _ s t h
    exact hmem (by simp) (by simp)

theorem wf_mem_of_exec {i : Instr} {s t : State} (h : exec i s = .next t) (hwf : s.mem.wf = true) :
    t.mem.wf = true := by
  rcases mem_of_exec h with e | ⟨bs, e⟩ <;> rw [e]
  · exact hwf
  · exact Memory.wf_writeAll hwf _ _

theorem within_mem_of_exec {i : Instr} {s t : State} (h : exec i s = .next t)
    (hwithin : s.mem.within s.cfg.memSize = true) : t.mem.within s.cfg.memSize = true := by
  rcases mem_of_exec h with e | ⟨bs, e⟩ <;> rw [e]
  · exact hwithin
  · exact Memory.within_writeAll_take hwithin _ _

/-! ### The stack -/

theorem stack_length_of_exec {i : Instr} {s t : State} (h : exec i s = .next t)
    (hdepth : s.stack.length ≤ s.cfg.stackDepth) : t.stack.length ≤ s.cfg.stackDepth := by
  cases i with
  | ret =>
    rcases exec_ret_cases s with ⟨a, rest, hcons, e⟩ | ⟨-, e⟩ <;> obtain rfl := exec_unique e h
    · rw [hcons, List.length_cons] at hdepth
      exact Nat.le_of_succ_le hdepth
    · exact hdepth
  | call nnn =>
    rcases exec_call_cases nnn s with ⟨hroom, e⟩ | ⟨-, e⟩ <;> obtain rfl := exec_unique e h
    · exact hroom
    · exact hdepth
  | _ =>
    obtain ⟨-, -, -, -, -, -, -, -, -, -, -, hstack, -⟩ := elementsBesideVAndPcHaveTheirOwnWriters _ s t h
    rwa [hstack (by simp) (by simp)]

/-! ### The grid -/

/-- The grid is H rows of W pixels. -/
def State.GridFits (s : State) : Prop := s.pix.shaped s.width s.height = true

/-- The size of the grid depends on the parameters and the resolution alone. -/
theorem State.GridFits.congr {s t : State} (hfits : s.GridFits) (hcfg : t.cfg = s.cfg) (hres : t.res = s.res)
    (hpix : t.pix = s.pix) : t.GridFits := by
  unfold State.GridFits State.width State.height State.scale at *
  rwa [hcfg, hres, hpix]

theorem gridFits_drawSprite {s : State} (hfits : s.GridFits) (x y : RegIdx) (rows : List (List Bool)) :
    (s.drawSprite x y rows).GridFits :=
  drawRows_shaped s.width s.height _ _ rows (s.pix, false) hfits

theorem gridFits_of_exec {i : Instr} {s t : State} (h : exec i s = .next t) (hfits : s.GridFits) : t.GridFits := by
  cases i with
  | cls =>
    obtain rfl := Host.Outcome.next.inj h
    exact Grid.shaped_blank s.width s.height
  | low | high =>
    obtain rfl := Host.Outcome.next.inj h
    exact Grid.shaped_blank _ _
  | scd | scr | scl =>
    obtain rfl := Host.Outcome.next.inj h
    exact Grid.shaped_build s.width s.height _
  | drw x y n =>
    rcases exec_drw_cases x y n s with e | ⟨-, e⟩ <;> obtain rfl := exec_unique e h
    · exact gridFits_drawSprite hfits x y _
    · exact hfits
  | drwLarge x y =>
    rcases exec_drwLarge_cases x y s with ⟨-, e⟩ | ⟨-, e⟩ <;> obtain rfl := exec_unique e h
    · exact gridFits_drawSprite hfits x y _
    · exact hfits
  | _ =>
    obtain ⟨hcfg, -, -, -, -, -, -, -, -, -, -, -, hres, hpix, -⟩ := elementsBesideVAndPcHaveTheirOwnWriters _ s t h
    exact hfits.congr hcfg (hres (by simp) (by simp)) (hpix rfl).1

/-! ### The step -/

theorem inv_of_exec {i : Instr} {s t : State} (h : exec i s = .next t) (hinv : s.Inv) : t.Inv := by
  obtain ⟨hlegal, hwf, hwithin, hdepth, hfits⟩ := hinv
  have hcfg : t.cfg = s.cfg := (elementsBesideVAndPcHaveTheirOwnWriters _ s t h).1
  have hfits' : t.GridFits := gridFits_of_exec h hfits
  refine ⟨?_, wf_mem_of_exec h hwf, ?_, ?_, hfits'⟩ <;> rw [hcfg]
  · exact hlegal
  · exact within_mem_of_exec h hwithin
  · exact stack_length_of_exec h hdepth

/-- The invariant speaks of the parameters, memory, the stack and the grid alone. -/
theorem State.Inv.congr {s t : State} (hinv : s.Inv) (hcfg : t.cfg = s.cfg) (hmem : t.mem = s.mem)
    (hstack : t.stack = s.stack) (hres : t.res = s.res) (hpix : t.pix = s.pix) : t.Inv := by
  obtain ⟨hlegal, hwf, hwithin, hdepth, hfits⟩ := hinv
  have hfits' : t.GridFits := State.GridFits.congr hfits hcfg hres hpix
  refine ⟨?_, ?_, ?_, ?_, hfits'⟩
  · rwa [hcfg]
  · rwa [hmem]
  · rwa [hmem, hcfg]
  · rwa [hstack, hcfg]

theorem inv_of_cycle {s t : State} (h : cycle s = .next t) (hinv : s.Inv) : t.Inv := by
  rcases s.fetch_cases with ⟨-, e⟩ | ⟨-, e⟩ <;> simp only [cycle, e] at h
  · have hfetched : (s.fetched s.wordAtPc).Inv := hinv.congr rfl rfl rfl rfl rfl
    split at h
    · exact inv_of_exec h hfetched
    · obtain rfl := Host.Outcome.next.inj h
      exact hfetched.congr rfl rfl rfl rfl rfl
  · obtain rfl := Host.Outcome.next.inj h
    exact hinv.congr rfl rfl rfl rfl rfl

theorem inv_load {s : State} (hinv : s.Inv) (image : Option (List Byte)) : (s.load image).Inv := by
  cases image with
  | none => exact hinv.congr rfl rfl rfl rfl rfl
  | some bytes =>
    unfold State.load
    dsimp only
    split
    case isTrue hlen =>
      obtain ⟨hlegal, -, -, hdepth, hfits⟩ := hinv
      exact ⟨hlegal, loadedMemory_wf s.cfg bytes, loadedMemory_within hlegal hlen, hdepth, hfits⟩
    case isFalse => exact hinv.congr rfl rfl rfl rfl rfl

theorem inv_interpreterReset {s : State} (hinv : s.Inv) : s.interpreterReset.Inv := by
  obtain ⟨hlegal, hwf, hwithin, -, hfits⟩ := hinv
  exact ⟨hlegal, hwf, hwithin, Nat.zero_le _, hfits⟩

theorem inv_of_hostStep {op : HostOp} {s t : State} (h : hostStep op s = .next t) (hinv : s.Inv) : t.Inv := by
  cases op with
  | cycle => exact inv_of_cycle h hinv
  | load image =>
    obtain rfl := Host.Outcome.next.inj h
    exact inv_load hinv image
  | reset =>
    obtain rfl := Host.Outcome.next.inj h
    exact inv_interpreterReset hinv
  | tick | keyDown | keyUp | keyboardReset | configWrite | preset =>
    obtain rfl := Host.Outcome.next.inj h
    exact hinv.congr (by simp) (by simp) (by simp) (by simp) (by simp)

/-- A step that answers a next state is the next host operation of a core without a fault. -/
theorem hostStep_of_step {s t : State} (h : step s = .next t) :
    s.fault = none ∧ hostStep s.nextOp s.begin = .next t := by
  unfold step at h
  split at h
  · cases h
  · exact ⟨‹_›, h⟩

/-- Settles O11: the invariant is kept by every instruction, element by element, by the fetch, and by the other host
operations, of which LOAD alone writes memory and RESET alone the stack. -/
theorem stepKeepsTheInvariant : Obligations.StepKeepsTheInvariant := by
  intro s t hinv h
  exact inv_of_hostStep (hostStep_of_step h).2 (hinv.congr rfl rfl rfl rfl rfl)

/-- The spec's default parameters are legal (R5 to R9). -/
theorem legal_standard : Config.standard.Legal := by
  refine ⟨?_, ?_, ?_, ?_, rfl, rfl, ?_⟩ <;> decide

/-- Settles O12: memory and the stack are empty and the grid is the blank one of the low resolution; the reset state is
the created core with the spec's defaults (R300). -/
theorem createdCoreMeetsTheInvariant : Obligations.CreatedCoreMeetsTheInvariant := by
  have hpowerOn (c : Config) (hlegal : c.Legal) : (State.powerOn c).Inv :=
    ⟨hlegal, rfl, rfl, Nat.zero_le _, Grid.shaped_blank _ _⟩
  exact ⟨hpowerOn, hpowerOn Config.standard legal_standard⟩

end Sys2Proof.Machine
end

section
/-! Proofs of the obligations on the step itself: the decoded instruction, the undefined word, the stopped core and the
outcome of every operation (40_cycle.md, 60_exceptions.md). -/

namespace Sys2Proof.Machine

/-! ### CYCLE -/

theorem cycle_of_decode_some {s : State} {i : Instr} (hin : s.pc.toNat + 1 < s.cfg.memSize)
    (hdecode : decode s.wordAtPc = some i) : cycle s = exec i (s.fetched s.wordAtPc) := by
  simp only [cycle, State.fetch_go hin, State.fetched_ir, hdecode]

theorem cycle_of_decode_none {s : State} (hin : s.pc.toNat + 1 < s.cfg.memSize) (hdecode : decode s.wordAtPc = none) :
    cycle s = .next (s.fetched s.wordAtPc).undefinedOpcode := by
  simp only [cycle, State.fetch_go hin, State.fetched_ir, hdecode]

/-- Settles O6: the schedule picks CYCLE, both bytes exist, and the decoder's answer picks the meaning (R101, R102). -/
theorem stepRunsTheDecodedInstruction : Obligations.StepRunsTheDecodedInstruction := by
  intro s i hfault hsched hin hdecode
  rw [step_eq_cycle hfault hsched]
  exact cycle_of_decode_some (s := s.begin) hin hdecode

/-- Settles O8: after the fetch only the event is emitted, and the address it carries is the post-fetch PC less 2
(R104). -/
theorem undefinedOpcodeOnlyLogs : Obligations.UndefinedOpcodeOnlyLogs := by
  intro s hfault hsched hin hdecode
  rw [step_eq_cycle hfault hsched, cycle_of_decode_none (s := s.begin) hin hdecode, State.undefinedOpcode,
    State.instrAddr_fetched]
  rfl

/-- Settles O9: the step tests FAULT before it looks at the schedule (R100, R272). -/
theorem faultedCoreHasNoStep : Obligations.FaultedCoreHasNoStep := by
  intro s f ops hfault
  simp only [step, hfault]

/-! ### What TICK, LOAD and the configuration writes can do -/

/-- TICK sends one flush where REDRAW was set, and nothing else (R280). -/
theorem State.tick_eq (s : State) : s.tick = { s with
    dt := timerDown s.dt
    st := timerDown s.st
    redraw := false
    out := s.out ++ if s.redraw = true then [.flush s.width s.height s.pix] else [] } := by
  unfold State.tick State.dispFlush
  cases s.redraw <;> simp [State.emit, State.width, State.height, State.scale]

/-- LOAD accepts an image that fits, or rejects. -/
theorem State.load_cases (s : State) (image : Option (List Byte)) :
    (∃ bytes, image = some bytes ∧ bytes.length ≤ s.cfg.memSize - Config.progBase ∧
        s.load image = { s with mem := loadedMemory s.cfg bytes }.emit (.report true)) ∨
      ((∀ bytes, image = some bytes → s.cfg.memSize - Config.progBase < bytes.length) ∧
        s.load image = s.emit (.report false)) := by
  cases image with
  | none => exact .inr ⟨fun bytes h => (Option.some_ne_none _ h.symm).elim, rfl⟩
  | some bytes =>
    rcases le_or_gt bytes.length (s.cfg.memSize - Config.progBase) with hfits | hlong
    · exact .inl ⟨bytes, rfl, hfits, if_pos hfits⟩
    · exact .inr ⟨fun bytes' h => by rwa [← Option.some_injective _ h], if_neg hlong.not_ge⟩

/-- CONFIG_WRITE with a known name and value sets that quirk; with another it rejects. -/
theorem State.configWrite_cases (s : State) (name value : String) :
    (∃ f b, lookupName name s.cfg.quirkNames = some f ∧ boolValue value = some b ∧
        s.configWrite name value = { s with qcr := setQuirk s.qcr f b }.emit (.report true)) ∨
      ((lookupName name s.cfg.quirkNames = none ∨ boolValue value = none) ∧
        s.configWrite name value = s.emit (.report false)) := by
  unfold State.configWrite
  cases lookupName name s.cfg.quirkNames with
  | none => exact .inr ⟨.inl rfl, rfl⟩
  | some f =>
    cases boolValue value with
    | none => exact .inr ⟨.inr rfl, rfl⟩
    | some b => exact .inl ⟨f, b, rfl, rfl, rfl⟩

/-- PRESET with a known name sets QCR; with another it rejects. -/
theorem State.preset_cases (s : State) (name : String) :
    (∃ q, lookupName name s.cfg.presets = some q ∧ s.preset name = { s with qcr := q }.emit (.report true)) ∨
      (lookupName name s.cfg.presets = none ∧ s.preset name = s.emit (.report false)) := by
  unfold State.preset
  cases lookupName name s.cfg.presets with
  | none => exact .inr ⟨rfl, rfl⟩
  | some q => exact .inl ⟨q, rfl, rfl⟩

/-! ### Every operation has a step -/

theorem exec_has_next (i : Instr) (s : State) : ∃ t, exec i s = .next t := by
  obtain ⟨t, h, -⟩ := noResultDependsOnIr i s s.ir
  exact ⟨t, h⟩

/-- A CYCLE sends no report. -/
theorem cycle_has_next {s : State} (hout : s.out = []) :
    ∃ t, cycle s = .next t ∧ t.sched = s.sched ∧ Output.report false ∉ t.out := by
  rcases s.fetch_cases with ⟨hin, -⟩ | ⟨-, e⟩
  · cases hdecode : decode s.wordAtPc with
    | some i =>
      obtain ⟨t, h⟩ := exec_has_next i (s.fetched s.wordAtPc)
      obtain ⟨-, -, -, -, hsched, hout', -⟩ := elementsBesideVAndPcHaveTheirOwnWriters _ _ _ h
      exact ⟨t, (cycle_of_decode_some hin hdecode).trans h, hsched, by simp [hout', hout]⟩
    | none => exact ⟨_, cycle_of_decode_none hin hdecode, rfl, by simp [hout]⟩
  · exact ⟨_, cycle_of_fetch_stop e, rfl, by simp [hout]⟩

theorem hostStep_has_next (op : HostOp) {s : State} (hout : s.out = []) :
    ∃ t, hostStep op s = .next t ∧ t.sched = s.sched ∧
      (Output.report false ∈ t.out → t = { s with out := [.report false] }) := by
  cases op with
  | cycle =>
    obtain ⟨t, h, hsched, hsilent⟩ := cycle_has_next hout
    exact ⟨t, h, hsched, fun hreport => absurd hreport hsilent⟩
  | reset | keyDown | keyUp | keyboardReset =>
    exact ⟨_, rfl, by simp, fun hreport => by simp [hout] at hreport⟩
  | tick =>
    refine ⟨_, rfl, State.tick_sched s, fun hreport => absurd hreport ?_⟩
    rw [State.tick_eq, hout]
    dsimp only
    split <;> simp
  | load image =>
    rcases s.load_cases image with ⟨bytes, -, -, e⟩ | ⟨-, e⟩ <;>
      refine ⟨_, rfl, s.load_sched image, ?_⟩ <;> rw [e]
    · simp [hout]
    · simp [State.emit, hout]
  | configWrite name value =>
    rcases s.configWrite_cases name value with ⟨f, b, -, -, e⟩ | ⟨-, e⟩ <;>
      refine ⟨_, rfl, s.configWrite_sched name value, ?_⟩ <;> rw [e]
    · simp [hout]
    · simp [State.emit, hout]
  | preset name =>
    rcases s.preset_cases name with ⟨q, -, e⟩ | ⟨-, e⟩ <;> refine ⟨_, rfl, s.preset_sched name, ?_⟩ <;> rw [e]
    · simp [hout]
    · simp [State.emit, hout]

/-- Settles O10: every meaning ends in a next state, and of the host operations only LOAD and the configuration writes
report, a rejection being their sole effect (R16, R277). -/
theorem everyOperationHasAStep : Obligations.EveryOperationHasAStep := by
  intro s
  rcases Option.eq_none_or_eq_some s.fault with hfault | ⟨f, hfault⟩
  · obtain ⟨t, h, hsched, hreport⟩ := hostStep_has_next s.nextOp s.begin_out
    have hstep : step s = .next t := by simp only [step, hfault, h]
    exact ⟨fun r h => by simp [hstep] at h, fun _ => ⟨t, hstep, hsched, hreport⟩⟩
  · have hstep : step s = .fault (.stopped f) := by simp only [step, hfault]
    exact ⟨fun r h => by simp [hstep] at h, fun hnone => by simp [hfault] at hnone⟩

end Sys2Proof.Machine
end

section
/-! Proofs of the display obligations: draws, scrolls and resolution changes (45_display.md, 49_extended.md). -/

namespace Sys2Proof.Machine

/-! ### The sprite a draw places -/

/-- Row `k` of a small sprite is its byte `k`. -/
theorem getD_map_byteBits (f : Nat → Byte) (n k c : Nat) :
    ((((List.range n).map f).map byteBits).getD k []).getD c false =
      (decide (k < n) && decide (c < 8) && (f k).getLsbD (7 - c)) := by
  by_cases hk : k < n
  · have hrow : (((List.range n).map f).map byteBits).getD k [] = byteBits (f k) := by simp [hk]
    rw [hrow, byteBits_getD]
    simp [hk]
  · simp [hk]

/-- The pixels of a small sprite of `n` rows drawn from (x0, y0). -/
theorem spriteBit_map_byteBits (f : Nat → Byte) (n x0 y0 px py : Nat) :
    spriteBit (((List.range n).map f).map byteBits) x0 y0 px py =
      (decide (x0 ≤ px ∧ px < x0 + 8 ∧ y0 ≤ py ∧ py < y0 + n) && (f (py - y0)).getLsbD (7 - (px - x0))) := by
  have hplace : (x0 ≤ px ∧ px < x0 + 8 ∧ y0 ≤ py ∧ py < y0 + n) ↔
      (x0 ≤ px ∧ y0 ≤ py) ∧ py - y0 < n ∧ px - x0 < 8 := by omega
  simp only [spriteBit, getD_map_byteBits, hplace, Bool.decide_and, Bool.and_assoc]

/-- The pixels of a large sprite drawn from (x0, y0). -/
theorem spriteBit_largeRows (f : Nat → Byte) (x0 y0 px py : Nat) :
    spriteBit (largeRows ((List.range 32).map f)) x0 y0 px py =
      (decide (x0 ≤ px ∧ px < x0 + 16 ∧ y0 ≤ py ∧ py < y0 + 16) &&
        (f (2 * (py - y0) + (px - x0) / 8)).getLsbD (7 - (px - x0) % 8)) := by
  have hplace : (x0 ≤ px ∧ px < x0 + 16 ∧ y0 ≤ py ∧ py < y0 + 16) ↔
      (x0 ≤ px ∧ y0 ≤ py) ∧ py - y0 < 16 ∧ px - x0 < 16 := by omega
  rw [spriteBit, largeRows_getD _ 16 (by simp)]
  by_cases hin : py - y0 < 16 ∧ px - x0 < 16
  · have hbyte : 2 * (py - y0) + (px - x0) / 8 < 32 := by omega
    simp [List.getD_eq_getElem?_getD, hplace, hin, hbyte]
  · simp [hplace, hin]

/-- A draw with every sprite byte in range places the sprite of `spritePixel`. -/
theorem exec_draw {x y : RegIdx} {n : Nibble} {i : Instr} {s : State}
    (hdraw : i = .drw x y n ∧ n ≠ 0x0#4 ∧ s.i.toNat + n.toNat ≤ s.cfg.memSize ∨
      i = .drwLarge x y ∧ s.i.toNat + 32 ≤ s.cfg.memSize) :
    ∃ rows, exec i s = .next (s.drawSprite x y rows) ∧
      ∀ px py, spriteBit rows (s.drawX x) (s.drawY y) px py = spritePixel i s px py := by
  rcases hdraw with ⟨rfl, -, hin⟩ | ⟨rfl, hin⟩
  · exact ⟨_, exec_drw_of_inside x y hin, fun px py => spriteBit_map_byteBits _ _ _ _ px py⟩
  · refine ⟨_, exec_drwLarge_of_inside x y hin, fun px py => ?_⟩
    rw [spriteBit_largeRows, ← Nat.add_assoc]
    rfl

/-! ### The collision flag -/

/-- A draw hits where a set sprite pixel inside the grid falls on a set pixel (R194). -/
theorem State.drawRows_hit_iff {s : State} (hfits : s.GridFits) (x0 y0 : Nat) (rows : List (List Bool)) :
    (drawRows s.width s.height x0 y0 rows (s.pix, false)).2 = true ↔
      ∃ px py, px < s.width ∧ py < s.height ∧ spriteBit rows x0 y0 px py = true ∧ s.pixel px py = true :=
  (drawRows_hit s.width s.height x0 y0 rows (s.pix, false) hfits).trans (or_iff_right Bool.false_ne_true)

/-- VF after a draw is the collision flag. -/
theorem State.getV_vf_drawSprite (s : State) (x y : RegIdx) (rows : List (List Bool)) :
    (s.drawSprite x y rows).getV 15 =
      collisionFlag (drawRows s.width s.height (s.drawX x) (s.drawY y) rows (s.pix, false)).2 := by
  rw [State.getV_drawSprite]
  exact if_pos rfl

/-- Settles O34: class D and the low nibble fix the decoder's branch; the sprite bytes read are the pixels of
`spritePixel`, and the draw flips exactly those and sets VF where one of them was set (R194, R195). -/
theorem drawFlipsTheSpritePixels : Obligations.DrawFlipsTheSpritePixels := by
  refine ⟨?drwDecodes, ?drwLargeDecodes, fun x y n i s hfits hdraw => ?draw⟩
  case drwDecodes =>
    intro w hclass hn
    rw [decode_of_class_D hclass, if_neg hn]
  case drwLargeDecodes =>
    intro w hclass hn
    rw [decode_of_class_D hclass, if_pos hn]
  case draw =>
    obtain ⟨rows, hexec, hsprite⟩ := exec_draw hdraw
    have hhit := State.drawRows_hit_iff hfits (s.drawX x) (s.drawY y) rows
    simp only [hsprite] at hhit
    refine ⟨_, hexec, rfl, gridFits_drawSprite hfits x y rows, fun px py => ?pixels, fun hit => ?hit, fun miss => ?miss,
      fun r hr => ?others⟩
    case pixels => rw [State.pixel_drawSprite s x y rows hfits, hsprite]
    case hit => rw [State.getV_vf_drawSprite, hhit.mpr hit]; rfl
    case miss => rw [State.getV_vf_drawSprite, Bool.eq_false_iff.mpr (mt hhit.mp miss)]; rfl
    case others => rw [State.getV_drawSprite]; exact if_neg hr

/-- Settles O35: every sprite byte is read before anything is written, so the fault is all that changes
(decision D19). -/
theorem faultingDrawChangesNothing : Obligations.FaultingDrawChangesNothing := by
  intro x y n s
  exact ⟨exec_drw_of_outside x y, exec_drwLarge_of_outside x y⟩

/-! ### Drawing twice -/

/-- A sprite's place and shape depend on its coordinates, its bytes and the size of the grid. -/
theorem spritePixel_congr {x y : RegIdx} {n : Nibble} {i : Instr} {s t : State}
    (hi : i = .drw x y n ∨ i = .drwLarge x y) (hx : t.getV x = s.getV x) (hy : t.getV y = s.getV y) (hI : t.i = s.i)
    (hmem : t.mem = s.mem) (hw : t.width = s.width) (hh : t.height = s.height) (px py : Nat) :
    spritePixel i t px py = spritePixel i s px py := by
  rcases hi with rfl | rfl <;> simp only [spritePixel, hx, hy, hI, hmem, hw, hh]

/-- A flipped pixel is set exactly where it was clear. -/
theorem pixel_flipped_iff {before after flip : Bool} (hafter : after = (before ^^ flip)) (hflip : flip = true) :
    after = true ↔ before = false := by
  rw [hafter, hflip, Bool.xor_true, Bool.not_eq_true']

/-- Settles O36: with VF naming no coordinate the second draw places the same sprite, so it flips the same pixels back,
and it hits exactly where the first draw had set a pixel (R196). -/
theorem drawingTwiceRestoresTheGrid : Obligations.DrawingTwiceRestoresTheGrid := by
  intro x y n i s hfits hx hy hdraw
  obtain ⟨-, -, hflips⟩ := drawFlipsTheSpritePixels
  obtain ⟨t, hexec_t, hframe, hfits_t, hpixel_t, -, -, hother⟩ := hflips x y n i s hfits hdraw
  have hI : t.i = s.i := by rw [hframe]
  have hmem : t.mem = s.mem := by rw [hframe]
  have hcfg : t.cfg = s.cfg := by rw [hframe]
  have hw : t.width = s.width := by rw [hframe]; rfl
  have hh : t.height = s.height := by rw [hframe]; rfl
  have hsprite := spritePixel_congr (hdraw.imp And.left And.left) (hother x hx) (hother y hy) hI hmem hw hh
  obtain ⟨u, hexec_u, -, hfits_u, hpixel_u, hset, hclear, -⟩ :=
    hflips x y n i t (by rwa [hw, hh]) (by rwa [hI, hcfg])
  simp only [hw, hh, hsprite] at hfits_u hpixel_u hset hclear
  have hcollision :
      (∃ px py, px < s.width ∧ py < s.height ∧ spritePixel i s px py = true ∧ t.pixel px py = true) ↔
        ∃ px py, px < s.width ∧ py < s.height ∧ spritePixel i s px py = true ∧ s.pixel px py = false := by
    refine exists_congr fun px => exists_congr fun py => ?_
    refine and_congr_right fun hpx => and_congr_right fun hpy => and_congr_right fun hbit => ?_
    exact pixel_flipped_iff (hpixel_t px py) (by simp [hpx, hpy, hbit])
  rw [hcollision] at hset hclear
  refine ⟨t, u, hexec_t, hexec_u, ?restored, ⟨fun hflag => ?hit, hset⟩, (em _).symm.imp hclear hset⟩
  case restored =>
    refine Grid.ext_of_get hfits_u hfits fun px py _ _ => ?_
    have hback := hpixel_u px py
    rwa [hpixel_t, Bool.xor_assoc, Bool.xor_self, Bool.xor_false] at hback
  case hit =>
    by_contra hmiss
    rw [hclear hmiss] at hflag
    cases hflag

/-! ### Scrolls and resolution changes -/

/-- Settles O37: y = C fixes the decoder's branch; the new grid is built from the pixels n rows above (R189, R250). -/
theorem scrollDown : Obligations.ScrollDown := by
  refine ⟨fun w => decode_scd, fun n s => ⟨_, exec_scd n s, rfl, Grid.shaped_build _ _ _, fun x y hx hy => ?_⟩⟩
  exact (s.pixel_dispScrollDown n.toNat x y).trans (by simp [hx, hy])

/-- Settles O38: class 0 and the low byte fix the decoder's branch; the new grid is built from the pixels 4 columns
aside (R190, R191). -/
theorem scrollSideways : Obligations.ScrollSideways := by
  refine ⟨?scrDecodes, ?sclDecodes, fun s => ⟨?scr, ?scl⟩⟩
  case scrDecodes =>
    intro w hclass hnn
    simp only [decode_of_class_0 hclass, decode0, hnn]
  case sclDecodes =>
    intro w hclass hnn
    simp only [decode_of_class_0 hclass, decode0, hnn]
  case scr =>
    refine ⟨_, exec_scr s, rfl, Grid.shaped_build _ _ _, fun x y hx hy => ?_⟩
    exact (s.pixel_dispScrollRight x y).trans (by simp [hx, hy])
  case scl =>
    refine ⟨_, exec_scl s, rfl, Grid.shaped_build _ _ _, fun x y hx hy => ?_⟩
    exact (s.pixel_dispScrollLeft x y).trans (by simp [hx, hy])

/-- Settles O39: class 0 and the low byte fix the decoder's branch; the resolution is set first, and the new grid is the
blank one of that resolution (R188). -/
theorem resolutionChangesClear : Obligations.ResolutionChangesClear := by
  refine ⟨?lowDecodes, ?highDecodes, fun s => ⟨?low, ?high⟩⟩
  case lowDecodes =>
    intro w hclass hnn
    simp only [decode_of_class_0 hclass, decode0, hnn]
  case highDecodes =>
    intro w hclass hnn
    simp only [decode_of_class_0 hclass, decode0, hnn]
  case low => exact ⟨_, exec_low s, rfl, rfl, rfl, Grid.shaped_blank _ _, s.pixel_dispSetResolution .low⟩
  case high => exact ⟨_, exec_high s, rfl, rfl, rfl, Grid.shaped_blank _ _, s.pixel_dispSetResolution .high⟩

end Sys2Proof.Machine
end

section
/-! Proofs of the obligations on block transfers, LOAD's memory and the font glyphs (20_memory.md, 43_index.md,
48_memory_block_bcd.md). -/

namespace Sys2Proof.Machine

/-! ### Block transfers -/

/-- The advance of I moves I alone. -/
theorem State.advanceI_eq_with_i (s : State) (x : RegIdx) : s.advanceI x = { s with i := (s.advanceI x).i } := by
  unfold State.advanceI; split <;> rfl

/-- I advances by x + 1 modulo 65536 where quirk `memory` is set (decision D7). -/
theorem State.toNat_advanceI_i (s : State) (x : RegIdx) :
    (s.advanceI x).i.toNat = if s.qcr.memory = true then (s.i.toNat + x.val + 1) % 65536 else s.i.toNat := by
  rw [State.advanceI_i, apply_ite BitVec.toNat, BitVec.toNat_add, BitVec.toNat_ofNat, Nat.add_mod_mod, Nat.add_assoc]

theorem byteAfterStore_storeRegs_inside {x k : RegIdx} (hk : k ≤ x) (s : State) :
    byteAfterStore (.storeRegs x) s (s.i.toNat + k.val) = s.getV k := by
  have hk' : k.val ≤ x.val := hk
  simp [byteAfterStore, hk']

theorem byteAfterStore_storeRegs_outside {x : RegIdx} {s : State} {a : Nat}
    (ha : a < s.i.toNat ∨ s.i.toNat + x.val < a) : byteAfterStore (.storeRegs x) s a = s.mem.read a :=
  if_neg (by omega)

/-- Settles O47: class F and the low byte fix the decoder's branch; the stored registers lie at I to I + x, and I
advances after the last write (R240). -/
theorem storeRegisters : Obligations.StoreRegisters := by
  constructor
  · intro w hclass hnn
    simp only [decode_of_class_F hclass, decodeF, hnn]
  · intro x s hwf hin
    refine ⟨_, exec_storeRegs_of_inside hin, ?frame, State.toNat_advanceI_i _ x, fun k hk => ?stored,
      fun a ha => ?others⟩
    case frame => rw [State.advanceI_mem]; exact State.advanceI_eq_with_i _ x
    case stored => rw [State.advanceI_mem, read_writeAll_regBytes x hwf, byteAfterStore_storeRegs_inside hk]
    case others => rw [State.advanceI_mem, read_writeAll_regBytes x hwf, byteAfterStore_storeRegs_outside ha]

/-- Settles O48: class F and the low byte fix the decoder's branch; every byte of the range exists, so every register up
to x is loaded, and I advances after the last read (R241). -/
theorem loadRegisters : Obligations.LoadRegisters := by
  constructor
  · intro w hclass hnn
    simp only [decode_of_class_F hclass, decodeF, hnn]
  · intro x s hin
    refine ⟨_, exec_loadRegs_of_inside hin, ?frame, State.toNat_advanceI_i _ x, fun r => ?loaded⟩
    case frame => rw [State.advanceI_v]; exact State.advanceI_eq_with_i _ x
    case loaded =>
      have hloaded : r ≤ x ∧ s.i.toNat + r.val < s.cfg.memSize ↔ r ≤ x :=
        and_iff_left_of_imp fun hr : r.val ≤ x.val => by omega
      rw [State.getV_congr (State.advanceI_v _ x), State.getV_loadedV_regsUpTo]
      simp only [hloaded]

/-- Settles O49: the store is cut off at MEM_SIZE and the load loads the registers whose byte exists; the fault comes
before I advances (R273, R274). -/
theorem blockTransferFaultsArePrecise : Obligations.BlockTransferFaultsArePrecise := by
  intro x s hwf hout
  refine ⟨⟨_, exec_storeRegs_of_outside hout, rfl, fun k hk => ?stored, fun a ha => ?others⟩,
    ⟨_, exec_loadRegs_of_outside hout, rfl, fun r => ?loaded⟩⟩
  case stored =>
    have hlen : k.val < (s.regBytes x).length := by rw [State.length_regBytes]; omega
    rw [State.raise_mem, Memory.read_writeAll_take_inside hwf _ _ _ hlen hk, State.getElem_regBytes,
      Fin.ofNat_val_eq_self]
  case others =>
    exact Memory.read_writeAll_take_other _ _ _ _ (by omega)
  case loaded =>
    have hloaded : r ≤ x ∧ s.i.toNat + r.val < s.cfg.memSize ↔ s.i.toNat + r.val < s.cfg.memSize :=
      and_iff_right_of_imp fun hr => Fin.le_def.mpr (by omega)
    refine (s.getV_loadedV_regsUpTo s s.i.toNat x r).trans ?_
    simp only [hloaded]

/-- Settles O50: the load reads the addresses the store wrote, in the memory it left. -/
theorem storeThenLoadRestoresRegisters : Obligations.StoreThenLoadRestoresRegisters := by
  intro x s w hwf hin
  obtain ⟨t, hstore, hframe, -, hstored, -⟩ := storeRegisters.2 x s hwf hin
  have hcfg : t.cfg = s.cfg := by rw [hframe]
  obtain ⟨u, hload, -, -, hloaded⟩ := loadRegisters.2 x { t with v := w, i := s.i } (by rwa [← hcfg] at hin)
  exact ⟨t, u, hstore, hload, fun r hr => by rw [hloaded, if_pos hr, hstored r hr]⟩

/-! ### The memory an accepted LOAD leaves -/

theorem read_writeAll_getD {m : Memory} (hm : m.wf = true) (a : Nat) (bs : List Byte) {k : Nat} (hk : k < bs.length) :
    (m.writeAll a bs).read (a + k) = bs.getD k 0x00#8 := by
  rw [Memory.read_writeAll_inside hm a bs hk, List.getD_eq_getElem _ _ hk]

section
variable {c : Config} (hlegal : c.Legal) (image : List Byte)
include hlegal

theorem read_loadedMemory_fontSmall {k : Nat} (hk : k < 80) :
    (loadedMemory c image).read (c.fontBase + k) = c.fontSmall.getD k 0x00#8 := by
  obtain ⟨-, -, -, -, hsmall, hlarge, hbase⟩ := hlegal
  rw [loadedMemory, Memory.read_writeAll_other _ _ _ (by omega), Memory.read_writeAll_other _ _ _ (by omega),
    read_writeAll_getD rfl _ _ (by omega)]

theorem read_loadedMemory_fontLarge {k : Nat} (hk : k < 160) :
    (loadedMemory c image).read (c.fontBase + 80 + k) = c.fontLarge.getD k 0x00#8 := by
  obtain ⟨-, -, -, -, hsmall, hlarge, hbase⟩ := hlegal
  rw [loadedMemory, Memory.read_writeAll_other _ _ _ (by omega),
    read_writeAll_getD (Memory.wf_writeAll rfl _ _) _ _ (by omega)]

theorem read_loadedMemory_elsewhere {a : Nat} (hfonts : a < c.fontBase ∨ c.fontBase + 240 ≤ a)
    (himage : a < Config.progBase ∨ Config.progBase + image.length ≤ a) : (loadedMemory c image).read a = 0x00#8 := by
  obtain ⟨-, -, -, -, hsmall, hlarge, hbase⟩ := hlegal
  rw [loadedMemory, Memory.read_writeAll_other _ _ _ himage, Memory.read_writeAll_other _ _ _ (by omega),
    Memory.read_writeAll_other _ _ _ (by omega)]
  rfl

end

theorem read_loadedMemory_image (c : Config) (image : List Byte) {k : Nat} (hk : k < image.length) :
    (loadedMemory c image).read (Config.progBase + k) = image.getD k 0x00#8 :=
  read_writeAll_getD (Memory.wf_writeAll (Memory.wf_writeAll rfl _ _) _ _) _ _ hk

theorem State.load_of_fits {s : State} {bytes : List Byte} (h : bytes.length ≤ s.cfg.memSize - Config.progBase) :
    s.load (some bytes) = { s with mem := loadedMemory s.cfg bytes }.emit (.report true) := if_pos h

theorem State.load_of_too_long {s : State} {bytes : List Byte} (h : s.cfg.memSize - Config.progBase < bytes.length) :
    s.load (some bytes) = s.emit (.report false) := if_neg h.not_ge

/-- Settles O55: the image fits exactly where 0x200 and its length stay within MEM_SIZE; the fonts lie before it, so
none of the three writes covers another (R62). -/
theorem loadLaysOutMemory : Obligations.LoadLaysOutMemory := by
  intro s rest hfault hlegal
  have hsize : 4096 ≤ s.cfg.memSize := hlegal.1
  refine ⟨fun image hsched hfits => ?accepted, fun image hsched hlong => ?rejected, fun hsched => ?missing⟩
  case accepted =>
    have hstep : step s = .next (s.begin.load (some image)) := step_eq_hostStep hfault hsched
    rw [State.load_of_fits (by simp [Config.progBase]; omega), State.begin_eq_of_sched hsched] at hstep
    exact ⟨_, hstep, rfl, fun k => read_loadedMemory_fontSmall hlegal image,
      fun k => read_loadedMemory_fontLarge hlegal image, fun k => read_loadedMemory_image s.cfg image,
      fun a => read_loadedMemory_elsewhere hlegal image⟩
  case rejected =>
    have hstep : step s = .next (s.begin.load (some image)) := step_eq_hostStep hfault hsched
    rw [State.load_of_too_long (by simp [Config.progBase]; omega), State.begin_eq_of_sched hsched] at hstep
    exact hstep
  case missing =>
    rw [step_eq_hostStep hfault hsched, State.begin_eq_of_sched hsched]
    rfl

/-! ### Font glyphs -/

/-- The low digit of a byte (R172). -/
theorem val_lowNibble (b : Byte) : (lowNibble b).val = b.toNat % 16 := by
  simp [lowNibble, regOf]

/-- With legal parameters no address of a font glyph wraps (R58 to R60). -/
theorem fontAddress_lt {c : Config} (hlegal : c.Legal) {n : Nat} (hn : n < 240) : c.fontBase + n < 65536 := by
  obtain ⟨-, -, -, -, -, -, hbase⟩ := hlegal
  simp only [Config.progBase] at hbase
  omega

/-- Settles O31: class F and the low byte fix the decoder's branch; the address is the glyph's place in its font, and an
accepted LOAD puts the fonts there, before the image (R58 to R62, R172, R173). -/
theorem fontGlyphAddresses : Obligations.FontGlyphAddresses := by
  refine ⟨?ldFDecodes, ?ldHfDecodes, fun x s d hd => ⟨?small, ?large⟩⟩
  case ldFDecodes =>
    intro w hclass hnn
    simp only [decode_of_class_F hclass, decodeF, hnn]
  case ldHfDecodes =>
    intro w hclass hnn
    simp only [decode_of_class_F hclass, decodeF, hnn]
  case small =>
    have hI : (s.smallGlyph (lowNibble (s.getV x))).toNat = (s.cfg.fontBase + 5 * d) % 65536 := by
      rw [State.smallGlyph, BitVec.toNat_ofNat, val_lowNibble, hd]
    refine ⟨_, exec_ldF x s, rfl, hI, fun image k hlegal hmem hk => ?_⟩
    rw [State.setI_mem, State.setI_i, hI, Nat.mod_eq_of_lt (fontAddress_lt hlegal (by omega)), Nat.add_assoc, hmem,
      read_loadedMemory_fontSmall hlegal image (by omega)]
  case large =>
    have hI : (s.largeGlyph (lowNibble (s.getV x))).toNat = (s.cfg.fontBase + 80 + 10 * d) % 65536 := by
      rw [State.largeGlyph, BitVec.toNat_ofNat, val_lowNibble, hd]
    refine ⟨_, exec_ldHf x s, rfl, hI, fun image k hlegal hmem hk => ?_⟩
    have hlt : s.cfg.fontBase + 80 + 10 * d < 65536 := by
      rw [Nat.add_assoc]
      exact fontAddress_lt hlegal (by omega)
    rw [State.setI_mem, State.setI_i, hI, Nat.mod_eq_of_lt hlt, Nat.add_assoc (_ + 80), hmem,
      read_loadedMemory_fontLarge hlegal image (by omega)]

end Sys2Proof.Machine
end

section
/-! Proofs of the obligations on RET, CALL, register skips, the offset jump and EXIT (41_control_flow.md,
49_extended.md). -/

namespace Sys2Proof.Machine

/-- Settles O20: class 0 and the low byte fix the decoder's branch; the pop and its fault are split on the empty stack
(R121). -/
theorem returnPopsOrUnderflows : Obligations.ReturnPopsOrUnderflows := by
  refine ⟨?decodes, fun s => ⟨fun a rest hcons => ?pops, fun hnil => ?underflows⟩⟩
  case decodes =>
    intro w hclass hnn
    simp only [decode_of_class_0 hclass, decode0, hnn]
  case pops => exact exec_ret_of_cons hcons
  case underflows => exact exec_ret_of_nil hnil

/-- Settles O21: class 2 fixes the decoder's branch; the pushed entry is the one a RET pops, and the fault comes before
the jump (R123). -/
theorem callPushesOrOverflows : Obligations.CallPushesOrOverflows := by
  refine ⟨?decodes, fun nnn s => ⟨fun hroom => ?pushes, fun hfull => ?overflows⟩⟩
  case decodes =>
    intro w hclass
    simp only [decode, hclass]
  case pushes =>
    exact ⟨_, exec_call_of_room nnn hroom, rfl, toNat_addrOf nnn, fun p w => exec_ret_of_cons rfl⟩
  case overflows => exact exec_call_of_full nnn hfull

/-- Settles O23: each class fixes the decoder's branch; both instructions are the one conditional skip, on the test of
V[x] against V[y] and on its negation (R126, R127). -/
theorem registerSkips : Obligations.RegisterSkips := by
  refine ⟨?seDecodes, ?sneDecodes, fun x y s => ⟨?se, ?sne⟩⟩
  case seDecodes =>
    intro w hclass
    simp only [decode, hclass]
  case sneDecodes =>
    intro w hclass
    simp only [decode, hclass]
  case se =>
    refine ⟨_, exec_seReg x y s, s.skipIf_eq_with_pc _, fun heq => ?_, fun hne => ?_⟩
    · simp [heq]
    · simp [hne]
  case sne =>
    refine ⟨_, exec_sneReg x y s, s.skipIf_eq_with_pc _, fun hne => ?_, fun heq => ?_⟩
    · simp [hne]
    · simp [heq]

/-- nnn[11:8] is nnn / 256 (R128). -/
theorem val_addrReg (nnn : Addr12) : (addrReg nnn).val = nnn.toNat / 256 := by
  have hlt : nnn.toNat / 256 < 16 := by omega
  simp [addrReg, regOf, Nat.shiftRight_eq_div_pow, Nat.mod_eq_of_lt hlt]

/-- The offset jump's sum stays below 65536, so the wrap never happens (decision D33). -/
theorem State.toNat_jumpTarget (s : State) (nnn : Addr12) :
    (s.jumpTarget nnn).toNat = nnn.toNat + (s.getV (s.jumpReg nnn)).toNat := by
  have hlt : nnn.toNat + (s.getV (s.jumpReg nnn)).toNat < 65536 := by omega
  rw [State.jumpTarget, BitVec.toNat_add, toNat_addrOf, BitVec.toNat_setWidth_of_le (by decide), Nat.mod_eq_of_lt hlt]

/-- Settles O24: class B fixes the decoder's branch; the quirk picks the register, and the sum of a 12-bit and an 8-bit
number does not wrap (R128). -/
theorem offsetJumpAddsTheQuirkRegister : Obligations.OffsetJumpAddsTheQuirkRegister := by
  refine ⟨?decodes, fun nnn s => ⟨_, exec_jpV0 nnn s, rfl, fun hquirk => ?plain, fun hquirk r hr => ?quirk⟩⟩
  case decodes =>
    intro w hclass
    simp only [decode, hclass]
  case plain => simp [State.toNat_jumpTarget, State.jumpReg, hquirk]
  case quirk =>
    obtain rfl : addrReg nnn = r := Fin.ext ((val_addrReg nnn).trans hr.symm)
    simp [State.toNat_jumpTarget, State.jumpReg, hquirk]

/-- A CYCLE that runs EXIT under an empty schedule leaves IR holding its word and PC where it was (R253). -/
theorem step_of_exit {s : State} (hfault : s.fault = none) (hsched : s.sched = [])
    (hin : s.pc.toNat + 1 < s.cfg.memSize) (hdecode : decode s.wordAtPc = some .exit) :
    step s = .next { s with out := [], ir := s.wordAtPc } := by
  have hpc : s.pc + 2#16 - 2#16 = s.pc := BitVec.add_sub_cancel _ _
  have hempty : s.sched.tail = s.sched := by rw [hsched, List.tail_nil]
  rw [step_eq_cycle hfault (.inl hsched), cycle_of_decode_some (s := s.begin) hin hdecode, exec_exit]
  simp only [State.rewind, State.fetched, State.begin, hpc, hempty]
  rfl

/-- Settles O52: class 0 and the low byte fix the decoder's branch; the rewind undoes the fetch's advance, so the next
CYCLE finds the same word, and a second one changes nothing at all (R253). -/
theorem exitLoopsOnItself : Obligations.ExitLoopsOnItself := by
  refine ⟨?decodes, exec_exit, fun s hfault hsched hin hdecode => ?loops⟩
  case decodes =>
    intro w hclass hnn
    simp only [decode_of_class_0 hclass, decode0, hnn]
  case loops =>
    exact ⟨_, step_of_exit hfault hsched hin hdecode, rfl, step_of_exit hfault hsched hin hdecode⟩

end Sys2Proof.Machine
end

section
/-! Proofs of the obligations on logic, arithmetic, shifts, ADD I and RND (42_arith.md, 43_index.md, 44_random.md). -/

namespace Sys2Proof.Machine

/-- A result and its flag change V alone. -/
theorem State.setResultFlag_eq_with_v (s : State) (x : RegIdx) (a b : Byte) :
    s.setResultFlag x a b = { s with v := (s.setResultFlag x a b).v } := rfl

/-- OR, AND and XOR change V alone. -/
theorem State.setV_logicFlag_eq_with_v (s : State) (x : RegIdx) (b : Byte) :
    (s.setV x b).logicFlag = { s with v := (s.setV x b).logicFlag.v } := by
  unfold State.logicFlag; split <;> rfl

/-- Settles O26: class and low nibble fix the decoder's branch; the three instructions differ in the result alone, and
the quirk's flag write comes after it (R144 to R146). -/
theorem logicOperations : Obligations.LogicOperations := by
  refine ⟨?orDecodes, ?andDecodes, ?xorDecodes, fun x y s => ⟨?or, ?and, ?xor⟩⟩
  case orDecodes | andDecodes | xorDecodes =>
    intro w hclass hn
    simp only [decode_of_class_8 hclass, decode8, hn]
  case or => exact ⟨_, exec_orReg x y s, s.setV_logicFlag_eq_with_v x _, fun r => s.getV_setV_logicFlag x r _⟩
  case and => exact ⟨_, exec_andReg x y s, s.setV_logicFlag_eq_with_v x _, fun r => s.getV_setV_logicFlag x r _⟩
  case xor => exact ⟨_, exec_xorReg x y s, s.setV_logicFlag_eq_with_v x _, fun r => s.getV_setV_logicFlag x r _⟩

theorem toNat_flagByte (c : Bool) : (flagByte c).toNat = if c then 1 else 0 := by
  cases c <;> rfl

/-- The number in a register after a result and its flag, where the result and the flag are known as numbers. -/
theorem State.toNat_getV_setResultFlag (s : State) (x r : RegIdx) {result flag : Byte} {n f : Nat}
    (hresult : result.toNat = n) (hflag : flag.toNat = f) :
    ((s.setResultFlag x result flag).getV r).toNat = if r = 15 then f else if r = x then n else (s.getV r).toNat := by
  rw [State.getV_setResultFlag, apply_ite BitVec.toNat, apply_ite BitVec.toNat, hresult, hflag]
  rfl

theorem toNat_carryFlag (a b : Byte) : (carryFlag a b).toNat = if a.toNat + b.toNat > 255 then 1 else 0 := by
  simp [carryFlag, toNat_flagByte]

theorem toNat_noBorrowFlag (a b : Byte) : (noBorrowFlag a b).toNat = if a.toNat ≥ b.toNat then 1 else 0 := by
  simp [noBorrowFlag, toNat_flagByte]

theorem toNat_sub_byte (a b : Byte) : (a - b).toNat = (256 + a.toNat - b.toNat) % 256 := by
  rw [BitVec.toNat_sub]
  congr 1
  omega

/-- Settles O27: class and low nibble fix the decoder's branch; result and flag are computed from the old operands, and
the flag is written last (R147, R148, R150). -/
theorem addAndSubtract : Obligations.AddAndSubtract := by
  refine ⟨?addDecodes, ?subDecodes, ?subnDecodes, fun x y s a b ha hb => ⟨?add, ?sub, ?subn⟩⟩
  case addDecodes | subDecodes | subnDecodes =>
    intro w hclass hn
    simp only [decode_of_class_8 hclass, decode8, hn]
  all_goals subst ha hb
  case add =>
    exact ⟨_, exec_addReg x y s, s.setResultFlag_eq_with_v x _ _, fun r =>
      s.toNat_getV_setResultFlag x r (BitVec.toNat_add _ _) (toNat_carryFlag _ _)⟩
  case sub =>
    exact ⟨_, exec_subReg x y s, s.setResultFlag_eq_with_v x _ _, fun r =>
      s.toNat_getV_setResultFlag x r (toNat_sub_byte _ _) (toNat_noBorrowFlag _ _)⟩
  case subn =>
    exact ⟨_, exec_subn x y s, s.setResultFlag_eq_with_v x _ _, fun r =>
      s.toNat_getV_setResultFlag x r (toNat_sub_byte _ _) (toNat_noBorrowFlag _ _)⟩

theorem State.toNat_shiftSource (s : State) (x y : RegIdx) :
    (s.shiftSource x y).toNat = if s.qcr.shifting then (s.getV x).toNat else (s.getV y).toNat :=
  apply_ite BitVec.toNat _ _ _

theorem toNat_shiftRight_one (b : Byte) : (b >>> 1).toNat = b.toNat / 2 := by
  rw [BitVec.toNat_ushiftRight, Nat.shiftRight_eq_div_pow]

theorem toNat_shiftLeft_one (b : Byte) : (b <<< 1).toNat = 2 * b.toNat % 256 := by
  rw [BitVec.toNat_shiftLeft, Nat.shiftLeft_eq, Nat.mul_comm]

theorem toNat_shiftedOutRight (b : Byte) : (shiftedOutRight b).toNat = b.toNat % 2 := by
  rw [shiftedOutRight, BitVec.toNat_and]
  exact Nat.and_one_is_mod _

theorem toNat_shiftedOutLeft (b : Byte) : (shiftedOutLeft b).toNat = b.toNat / 128 := by
  rw [shiftedOutLeft, BitVec.toNat_ushiftRight, Nat.shiftRight_eq_div_pow]

/-- Settles O28: class and low nibble fix the decoder's branch; the quirk picks the operand, and the bit shifted out is
written last (R149, R151). -/
theorem shifts : Obligations.Shifts := by
  refine ⟨?shrDecodes, ?shlDecodes, fun x y s a ha => ⟨?shr, ?shl⟩⟩
  case shrDecodes | shlDecodes =>
    intro w hclass hn
    simp only [decode_of_class_8 hclass, decode8, hn]
  all_goals obtain rfl := ha.trans (s.toNat_shiftSource x y).symm
  case shr =>
    exact ⟨_, exec_shr x y s, s.setResultFlag_eq_with_v x _ _, fun r =>
      s.toNat_getV_setResultFlag x r (toNat_shiftRight_one _) (toNat_shiftedOutRight _)⟩
  case shl =>
    exact ⟨_, exec_shl x y s, s.setResultFlag_eq_with_v x _ _, fun r =>
      s.toNat_getV_setResultFlag x r (toNat_shiftLeft_one _) (toNat_shiftedOutLeft _)⟩

theorem State.setI_indexFlag_eq_with_i_v (s : State) (a : Word) (flag : Byte) :
    (s.setI a).indexFlag flag = { s with i := ((s.setI a).indexFlag flag).i, v := ((s.setI a).indexFlag flag).v } := by
  unfold State.indexFlag; split <;> rfl

theorem toNat_indexOverflowFlag (limit : Nat) (i : Word) (b : Byte) :
    (indexOverflowFlag limit i b).toNat = if i.toNat + b.toNat > limit then 1 else 0 := by
  simp [indexOverflowFlag, toNat_flagByte]

/-- Settles O30: class F and the low byte fix the decoder's branch; I takes the wrapped sum and the flag, where the
quirk asks for it, compares the unwrapped one (R171). -/
theorem addToIndex : Obligations.AddToIndex := by
  refine ⟨?decodes, fun x s sum hsum => ⟨_, exec_addI x s, s.setI_indexFlag_eq_with_i_v _ _, ?index, fun r => ?flag⟩⟩
  case decodes =>
    intro w hclass hnn
    simp only [decode_of_class_F hclass, decodeF, hnn]
  all_goals subst hsum
  case index =>
    rw [State.indexFlag_i, State.setI_i, BitVec.toNat_add, BitVec.toNat_setWidth_of_le (by decide)]
  case flag =>
    rw [State.getV_indexFlag, apply_ite BitVec.toNat, toNat_indexOverflowFlag]
    rfl

theorem State.afterDraw_of_cons {s : State} {b : Byte} {rest : List Byte} (h : s.randIn = b :: rest) :
    s.afterDraw = { s with randIn := rest } := by
  simp only [State.afterDraw, h]

theorem State.afterDraw_of_nil {s : State} (h : s.randIn = []) : s.afterDraw = { s with draws := s.draws + 1 } := by
  simp only [State.afterDraw, h]

theorem State.randByte_of_cons {s : State} {b : Byte} {rest : List Byte} (h : s.randIn = b :: rest) :
    s.randByte = b := by
  simp only [State.randByte, h]

theorem State.randByte_of_nil {s : State} (h : s.randIn = []) : s.randByte = Config.randomByte s.draws := by
  simp only [State.randByte, h]

/-- Settles O32: class C fixes the decoder's branch; the draw takes the next supplied byte, else the free value, and RND
is one register write after it (R180). -/
theorem randomByteUnderMask : Obligations.RandomByteUnderMask := by
  refine ⟨?decodes, fun x nn s => ⟨fun b rest hsupplied => ?supplied, fun hnone => ?free⟩⟩
  case decodes =>
    intro w hclass
    simp only [decode, hclass]
  case supplied =>
    have hexec := exec_rnd x nn s
    rw [State.afterDraw_of_cons hsupplied, State.randByte_of_cons hsupplied] at hexec
    exact ⟨_, hexec, rfl, fun r => State.getV_setV _ x r _⟩
  case free =>
    have hexec := exec_rnd x nn s
    rw [State.afterDraw_of_nil hnone, State.randByte_of_nil hnone] at hexec
    exact ⟨_, hexec, rfl, fun r => State.getV_setV _ x r _⟩

end Sys2Proof.Machine
end

section
/-! Proofs of the obligations on the key instructions and the keyboard (46_keys.md). -/

namespace Sys2Proof.Machine

theorem State.afterSample_of_cons {s : State} {lines : BitVec 16} {rest : List (BitVec 16)}
    (h : s.keysIn = lines :: rest) : s.afterSample = { s with keysIn := rest } := by
  simp only [State.afterSample, h]

theorem State.afterSample_of_nil {s : State} (h : s.keysIn = []) :
    s.afterSample = { s with samples := s.samples + 1 } := by
  simp only [State.afterSample, h]

theorem State.keyLines_of_cons {s : State} {lines : BitVec 16} {rest : List (BitVec 16)}
    (h : s.keysIn = lines :: rest) : s.keyLines = lines := by
  simp only [State.keyLines, h]

theorem State.keyLines_of_nil {s : State} (h : s.keysIn = []) : s.keyLines = Config.hostKeys s.samples := by
  simp only [State.keyLines, h]

/-- The line SKP and SKNP test is that of the key V[x][3:0] (decision D15). -/
theorem State.isPressed_lowNibble (s : State) (x : RegIdx) :
    s.isPressed (lowNibble (s.getV x)) = s.keyLines.getLsbD ((s.getV x).toNat % 16) := by
  rw [State.isPressed, val_lowNibble]

/-- SKP's next state, whatever the sample. -/
theorem exec_skp_eq (x : RegIdx) (s : State) : exec (.skp x) s = .next { s.afterSample with
    pc := if s.keyLines.getLsbD ((s.getV x).toNat % 16) = true then s.pc + 2#16 else s.pc } := by
  rw [exec_skp, s.afterSample.skipIf_eq_with_pc, State.skipIf_pc, State.isPressed_lowNibble, State.afterSample_pc]

/-- SKNP's next state, whatever the sample. -/
theorem exec_sknp_eq (x : RegIdx) (s : State) : exec (.sknp x) s = .next { s.afterSample with
    pc := if s.keyLines.getLsbD ((s.getV x).toNat % 16) = true then s.pc else s.pc + 2#16 } := by
  rw [exec_sknp, s.afterSample.skipIf_eq_with_pc, State.skipIf_pc, State.isPressed_lowNibble, State.afterSample_pc]
  cases s.keyLines.getLsbD ((s.getV x).toNat % 16) <;> rfl

/-- Settles O40: class E and the low byte fix the decoder's branch; the sample taken is the next supplied one, else the
free value, and its line decides the skip (R213, R215, R216). -/
theorem keySkips : Obligations.KeySkips := by
  refine ⟨?skpDecodes, ?sknpDecodes, fun x s k hk => ⟨fun lines rest hsupplied => ?supplied, fun hnone => ?free⟩⟩
  case skpDecodes | sknpDecodes =>
    intro w hclass hnn
    simp only [decode_of_class_E hclass, decodeE, hnn]
  all_goals rw [exec_skp_eq, exec_sknp_eq, ← hk]
  case supplied =>
    rw [State.afterSample_of_cons hsupplied, State.keyLines_of_cons hsupplied]
    exact ⟨rfl, rfl⟩
  case free =>
    rw [State.afterSample_of_nil hnone, State.keyLines_of_nil hnone]
    exact ⟨rfl, rfl⟩

/-- Settles O41: class F and the low byte fix the decoder's branch; PENDING decides between the wait and the register
write, and a key number is a whole byte (R212, R217). -/
theorem waitForKey : Obligations.WaitForKey := by
  refine ⟨?decodes, fun x s => ⟨exec_ldVxK_of_not_pending x, fun k hpending => ?takes⟩⟩
  case decodes =>
    intro w hclass hnn
    simp only [decode_of_class_F hclass, decodeF, hnn]
  case takes =>
    refine ⟨_, exec_ldVxK_of_pending x hpending, rfl, fun r => ?_⟩
    have hbyte : (BitVec.ofNat 8 k.val).toNat = k.val :=
      (BitVec.toNat_ofNat _ _).trans (Nat.mod_eq_of_lt (k.isLt.trans (by decide)))
    rw [State.getV_setV, apply_ite BitVec.toNat, hbyte]
    rfl

/-- KeyUp of a key that is not held is ignored. -/
theorem State.keyUp_of_not_held {s : State} {k : Key} (hup : s.held[k] = false) : s.keyUp k = s := by
  simp [State.keyUp, hup]

/-- KeyUp of a held key clears HELD[k], and k becomes pending where nothing is (R211). -/
theorem State.keyUp_of_held {s : State} {k : Key} (hheld : s.held[k] = true) :
    s.keyUp k = { s with held := s.held.set k false, pending := s.pending.or (some k) } := by
  rw [State.keyUp, if_pos hheld]
  cases s.pending <;> rfl

theorem held_set_false (held : Vector Bool 16) (k j : Key) :
    (held.set k false)[j] = if j = k then false else held[j] := by
  simp only [Fin.getElem_fin, Vector.getElem_set, Fin.ext_iff, eq_comm]

/-- Settles O43: HELD[k] decides whether KeyUp does anything, and a pending release wins over the new one;
KeyboardReset writes both elements whole (R211, R214). -/
theorem keyUpReleasesOnce : Obligations.KeyUpReleasesOnce := by
  intro s k rest hfault
  refine ⟨fun hsched => ⟨fun hup => ?ignored, fun hheld => ?released⟩, fun hsched => ?reset⟩
  case ignored =>
    have hstep : step s = .next (s.begin.keyUp k) := step_eq_hostStep hfault hsched
    rwa [State.keyUp_of_not_held (s := s.begin) hup, State.begin_eq_of_sched hsched] at hstep
  case released =>
    have hstep : step s = .next (s.begin.keyUp k) := step_eq_hostStep hfault hsched
    rw [State.keyUp_of_held (s := s.begin) hheld, State.begin_eq_of_sched hsched] at hstep
    refine ⟨_, hstep, rfl, held_set_false s.held k, fun hfree => ?_, fun hpending => ?_⟩
    · simp [hfree]
    · obtain ⟨j, hj⟩ := Option.ne_none_iff_exists'.mp hpending
      simp [hj]
  case reset =>
    have hstep : step s = .next s.begin.keyboardReset := step_eq_hostStep hfault hsched
    rw [State.begin_eq_of_sched hsched] at hstep
    exact ⟨_, hstep, rfl, fun j => by simp⟩

end Sys2Proof.Machine
end

section
/-! Proofs of the obligations on the flag bank and the host operations (49_extended.md, 60_exceptions.md,
70_reset_and_hazards.md). -/

namespace Sys2Proof.Machine

/-! ### The flag bank -/

/-- Settles O53: class F and the low byte fix the decoder's branch; x splits the copy from the fault, and each copy
takes exactly the elements up to x (R256, R257). -/
theorem flagBankSaveAndRestore : Obligations.FlagBankSaveAndRestore := by
  refine ⟨?saveDecodes, ?restoreDecodes, fun x s => ⟨fun hx => ⟨?save, ?restore⟩, fun hx => ?faults⟩⟩
  case saveDecodes | restoreDecodes =>
    intro w hclass hnn
    simp only [decode_of_class_F hclass, decodeF, hnn]
  case save =>
    refine ⟨_, exec_saveFlags_of_le hx, rfl, fun j r hr => ?_⟩
    obtain rfl : j.castLE (by decide) = r := Fin.ext hr.symm
    simp [State.savedFlags, Fin.le_def]
  case restore =>
    refine ⟨_, exec_restoreFlags_of_le hx, rfl, fun j r hr hle => ?_, fun r => s.getV_restoredFlags_of_lt s⟩
    obtain rfl : j.castLE (by decide) = r := Fin.ext hr.symm
    have hle' : ¬x < ⟨j.val, by omega⟩ := not_lt.mpr hle
    simp [State.getV_eq, State.restoredFlags, hle']
  case faults => exact ⟨exec_saveFlags_of_gt hx, exec_restoreFlags_of_gt hx⟩

/-! ### TICK -/

theorem toNat_timerDown (b : Byte) : (timerDown b).toNat = b.toNat - 1 := by
  unfold timerDown
  split
  · have hone : (1#8).toNat = 1 := rfl
    rw [toNat_sub_byte, hone]
    omega
  · omega

/-- Settles O45: a timer goes down by 1 and stays at 0, and TICK's own equation gives the flush and the frame (R280). -/
theorem tickCountsAndFlushes : Obligations.TickCountsAndFlushes := by
  intro s rest hfault hsched
  have hstep : step s = .next s.begin.tick := step_eq_hostStep hfault hsched
  rw [State.begin_eq_of_sched hsched, State.tick_eq] at hstep
  exact ⟨_, hstep, rfl, toNat_timerDown s.dt, toNat_timerDown s.st⟩

theorem run_succ_of_step {s t : State} (h : step s = .next t) (k : Nat) :
    Host.Core.run core (k + 1) s = Host.Core.run core k t := by
  have hcore : core.step s = .next t := h
  simp only [Host.Core.run, hcore]

/-- Settles O46, by induction on the number of TICKs: each leaves the core without a fault and the rest of the schedule
(R281). -/
theorem timersReachZeroAndStay : Obligations.TimersReachZeroAndStay := by
  intro k
  induction k with
  | zero =>
    intro s rest _ hsched
    exact ⟨s, rfl, hsched, rfl, rfl⟩
  | succ k ih =>
    intro s rest hfault hsched
    rw [List.replicate_succ, List.cons_append] at hsched
    obtain ⟨t, hstep, hframe, hdt, hst⟩ := tickCountsAndFlushes s _ hfault hsched
    have hfault_t : t.fault = none := by rw [hframe]; exact hfault
    have hsched_t : t.sched = List.replicate k .tick ++ rest := by rw [hframe]
    obtain ⟨u, hrun, hsched_u, hdt_u, hst_u⟩ := ih t rest hfault_t hsched_t
    exact ⟨u, (run_succ_of_step hstep k).trans hrun, hsched_u, by omega, by omega⟩

/-- Settles O54: RESET writes its elements with constants (R301). -/
theorem resetSetsTheInterpreterOnly : Obligations.ResetSetsTheInterpreterOnly := by
  intro s rest hfault hsched
  have hstep : step s = .next s.begin.interpreterReset := step_eq_hostStep hfault hsched
  rw [State.begin_eq_of_sched hsched] at hstep
  exact ⟨_, hstep, rfl, fun r => by simp [State.getV_eq], fun j => by simp⟩

/-! ### Configuration -/

/-- A name a table does not list has no value there. -/
theorem lookupName_eq_none {α : Type} {name : String} {table : List (String × α)} (h : ∀ a, (name, a) ∉ table) :
    lookupName name table = none := by
  induction table with
  | nil => rfl
  | cons entry rest ih =>
    obtain ⟨n, a⟩ := entry
    have hne : n ≠ name := fun hn => h a (by simp [hn])
    rw [lookupName, if_neg hne]
    exact ih fun b hb => h b (List.mem_cons_of_mem _ hb)

theorem boolValue_eq_none {value : String} (htrue : value ≠ "true") (hfalse : value ≠ "false") :
    boolValue value = none := by
  rw [boolValue, if_neg htrue, if_neg hfalse]

theorem boolValue_of_bool (b : Bool) : boolValue (if b = true then "true" else "false") = some b := by
  cases b <;> rfl

theorem State.configWrite_of_bad {s : State} {name value : String}
    (hbad : lookupName name s.cfg.quirkNames = none ∨ boolValue value = none) :
    s.configWrite name value = s.emit (.report false) := by
  rcases s.configWrite_cases name value with ⟨f, b, hf, hb, -⟩ | ⟨-, e⟩
  · simp [hf, hb] at hbad
  · exact e

theorem State.preset_of_unknown {s : State} {name : String} (hunknown : lookupName name s.cfg.presets = none) :
    s.preset name = s.emit (.report false) := by
  simp only [State.preset, hunknown]

/-- Settles O56: the rejected write and the rejected preset send the report and change nothing (R277). -/
theorem badConfigurationIsRejected : Obligations.BadConfigurationIsRejected := by
  intro s rest name value hfault
  refine ⟨fun hsched hbad => ?write, fun hsched hunknown => ?preset⟩
  case write =>
    have hbad' : lookupName name s.cfg.quirkNames = none ∨ boolValue value = none :=
      hbad.imp lookupName_eq_none fun h => boolValue_eq_none h.1 h.2
    have hstep : step s = .next (s.begin.configWrite name value) := step_eq_hostStep hfault hsched
    rwa [State.configWrite_of_bad (s := s.begin) hbad', State.begin_eq_of_sched hsched] at hstep
  case preset =>
    have hstep : step s = .next (s.begin.preset name) := step_eq_hostStep hfault hsched
    rwa [State.preset_of_unknown (s := s.begin) (lookupName_eq_none hunknown), State.begin_eq_of_sched hsched] at hstep

/-- CONFIG_WRITE of a known name and a Boolean value sets that quirk (R289). -/
theorem step_configWrite {s : State} {rest : List HostOp} {name value : String} {f : Quirk} {b : Bool}
    (hfault : s.fault = none) (hsched : s.sched = .configWrite name value :: rest)
    (hname : lookupName name s.cfg.quirkNames = some f) (hvalue : boolValue value = some b) :
    step s = .next { s with sched := rest, qcr := setQuirk s.qcr f b, out := [.report true] } := by
  have hstep : step s = .next (s.begin.configWrite name value) := step_eq_hostStep hfault hsched
  have hwrite : s.begin.configWrite name value =
      { s.begin with qcr := setQuirk s.qcr f b }.emit (.report true) := by
    simp only [State.configWrite, State.begin_cfg, State.begin_qcr, hname, hvalue]
  rwa [hwrite, State.begin_eq_of_sched hsched] at hstep

/-- PRESET of a known name sets QCR (R289). -/
theorem step_preset {s : State} {rest : List HostOp} {name : String} {q : Qcr} (hfault : s.fault = none)
    (hsched : s.sched = .preset name :: rest) (hname : lookupName name s.cfg.presets = some q) :
    step s = .next { s with sched := rest, qcr := q, out := [.report true] } := by
  have hstep : step s = .next (s.begin.preset name) := step_eq_hostStep hfault hsched
  have hpreset : s.begin.preset name = { s.begin with qcr := q }.emit (.report true) := by
    simp only [State.preset, State.begin_cfg, hname]
  rwa [hpreset, State.begin_eq_of_sched hsched] at hstep

/-- Settles O57: the spec's tables give each name its quirk or its preset's values, which is what is written
(decision D6). -/
theorem configurationWritesOneFieldPresetsAll : Obligations.ConfigurationWritesOneFieldPresetsAll := by
  intro s rest b value hfault hnames hpresets hvalue
  refine ⟨fun name q hquirk hsched => ?write, fun name q hpreset hsched => ?preset⟩
  case write =>
    have hbool : boolValue value = some b := by rw [hvalue, boolValue_of_bool]
    have hwrite (f : Quirk) (hname : lookupName name Config.standard.quirkNames = some f) :=
      step_configWrite hfault hsched (hnames ▸ hname) hbool
    rcases hquirk with ⟨rfl, rfl⟩ | ⟨rfl, rfl⟩ | ⟨rfl, rfl⟩ | ⟨rfl, rfl⟩ | ⟨rfl, rfl⟩
    · exact hwrite .vfReset rfl
    · exact hwrite .memory rfl
    · exact hwrite .shifting rfl
    · exact hwrite .jumping rfl
    · exact hwrite .ioverflow rfl
  case preset =>
    have hname : lookupName name Config.standard.presets = some q := by
      rcases hpreset with ⟨rfl, rfl⟩ | ⟨rfl, rfl⟩ | ⟨rfl, rfl⟩ <;> rfl
    exact step_preset hfault hsched (hpresets ▸ hname)

end Sys2Proof.Machine
end
